-- ==== Sys2Proof/Word.lean ====
section
/-! DEFINITION. The kinds of value the engine works on (00_scope.md R10, R11): bytes, byte strings, the 32-bit command
word and the 4-byte Rijndael word. -/

namespace Sys2Proof

/-- A byte is an integer 0..255 (00_scope.md R10). -/
abbrev Byte := BitVec 8

/-- A byte string: a finite sequence of bytes, of any length (00_scope.md R10, 92_eei_decisions.md D29). -/
abbrev Bytes := List Byte

/-- The 32-bit command word (30_encoding.md R100). -/
abbrev CommandWord := BitVec 32

/-- One DES round subkey of 48 bits. Its eight 6-bit groups are views of it (40_des.md R136; log entry 10). -/
abbrev DesSubkey := BitVec 48

/-- A 4-byte Rijndael word, taken as a column of the state with byte 0 at row 0 (20_memory.md R74, 42_rijndael.md R194). -/
structure Column where
  b0 : Byte
  b1 : Byte
  b2 : Byte
  b3 : Byte
  deriving DecidableEq, Repr

end Sys2Proof
end

