-- ==== Sys2Proof/Syntax.lean ====
section
/-! DEFINITION. The commands of the engine: one constructor for each row of spec/opcode_table.json (30_encoding.md R102), and
the raw command the host issues (R100). -/

namespace Sys2Proof

/-- A command as it arrives: a 32-bit word and a list of byte-string operands beside it (30_encoding.md R100). -/
structure Command where
  word : CommandWord
  operands : List Bytes
  deriving DecidableEq, Repr

/-- A decoded command. -/
inductive Instr where
  /-- CONFIGURE: the raw ALG, MODE, KLEN and BLEN fields. All 2^24 combinations are valid encodings (30_encoding.md R103). -/
  | configure (alg mode : BitVec 4) (klen blen : BitVec 8)
  /-- SET_KEY (45_control.md R322). -/
  | setKey (key : Bytes)
  /-- SET_IV (45_control.md R323). -/
  | setIv (iv : Bytes)
  /-- SET_PASSWORD; an operand is absent where its S, I or L bit is 0 (30_encoding.md R107). `iterations` and `outputLength`
  are the 4-byte operands themselves. -/
  | setPassword (password : Bytes) (salt iterations outputLength : Option Bytes)
  /-- SET_KEY_LENGTH (45_control.md R326). -/
  | setKeyLength (klen : BitVec 8)
  /-- SET_BLOCK_LENGTH (45_control.md R327). -/
  | setBlockLength (blen : BitVec 8)
  /-- ENABLE_CB (45_control.md R328). -/
  | enableCb
  /-- DISABLE_CB (45_control.md R329). -/
  | disableCb
  /-- ENABLE_PAD (45_control.md R330). -/
  | enablePad
  /-- DISABLE_PAD (45_control.md R331). -/
  | disablePad
  /-- ENCRYPT (45_control.md R332). -/
  | encrypt (text : Bytes)
  /-- DECRYPT (45_control.md R333). -/
  | decrypt (text : Bytes)
  deriving DecidableEq, Repr

end Sys2Proof
end

