-- ==== Sys2Proof/WellFormed.lean ====
section
/-! DEFINITION. Which terms of Instr are commands. Field widths are in the types; what is left to check is the length of
SET_PASSWORD's numeric operands (30_encoding.md R107, R109). -/

namespace Sys2Proof

/-- A numeric operand that is present is exactly 4 bytes long (30_encoding.md R109). -/
def numericOperandOk : Option Bytes → Bool
  | none => true
  | some b => b.length == 4

/-- The command can be encoded. -/
def Instr.wf : Instr → Bool
  | .configure _ _ _ _ => true
  | .setKey _ => true
  | .setIv _ => true
  | .setPassword _ _ iterations outputLength => numericOperandOk iterations && numericOperandOk outputLength
  | .setKeyLength _ => true
  | .setBlockLength _ => true
  | .enableCb => true
  | .disableCb => true
  | .enablePad => true
  | .disablePad => true
  | .encrypt _ => true
  | .decrypt _ => true

end Sys2Proof
end

