-- ==== Sys2Proof/Decode.lean ====
section
/-! DEFINITION. The decoder of 30_encoding.md R111, total on every word and every operand list, and the encoder beside it.
Both read the same table of opcodes (R102). -/

namespace Sys2Proof

/-- Why a command is rejected. Each of these is `Fault(IllegalCommand)` (30_encoding.md R109, R110). -/
inductive DecodeError where
  /-- An opcode value not listed in R102. -/
  | unassignedOpcode
  /-- A listed opcode with a nonzero bit outside the fields its row leaves free. -/
  | reservedBits
  /-- A number of operands other than R109 gives. -/
  | operandCount
  /-- A SET_PASSWORD whose `iterations` or `outputLength` is not 4 bytes long. -/
  | numericOperandLength
  deriving DecidableEq, Repr

/-- The twelve operations of 30_encoding.md R102. -/
inductive Opcode where
  | configure | setKey | setIv | setPassword | setKeyLength | setBlockLength
  | enableCb | disableCb | enablePad | disablePad | encrypt | decrypt
  deriving DecidableEq, Repr

/-- One row of the opcode map: the bits the row fixes and their values. -/
structure OpcodeRow where
  opcode : Opcode
  mask : CommandWord
  pattern : CommandWord
  deriving DecidableEq, Repr

/-- The opcode map (30_encoding.md R102; spec/opcode_table.json `mask` and `match`). -/
def opcodeTable : List OpcodeRow :=
  [⟨.configure, 0x000000FF#32, 0x00000001#32⟩,
   ⟨.setKey, 0xFFFFFFFF#32, 0x00000002#32⟩,
   ⟨.setIv, 0xFFFFFFFF#32, 0x00000003#32⟩,
   ⟨.setPassword, 0xFFFFF8FF#32, 0x00000004#32⟩,
   ⟨.setKeyLength, 0xFF00FFFF#32, 0x00000005#32⟩,
   ⟨.setBlockLength, 0x00FFFFFF#32, 0x00000006#32⟩,
   ⟨.enableCb, 0xFFFFFFFF#32, 0x00000008#32⟩,
   ⟨.disableCb, 0xFFFFFFFF#32, 0x00000009#32⟩,
   ⟨.enablePad, 0xFFFFFFFF#32, 0x0000000A#32⟩,
   ⟨.disablePad, 0xFFFFFFFF#32, 0x0000000B#32⟩,
   ⟨.encrypt, 0xFFFFFFFF#32, 0x00000010#32⟩,
   ⟨.decrypt, 0xFFFFFFFF#32, 0x00000011#32⟩]

/-- The row a word matches. -/
def OpcodeRow.matches (row : OpcodeRow) (w : CommandWord) : Bool := w &&& row.mask == row.pattern

/-! ### Fields of the word (30_encoding.md R101, R107) -/

/-- OPC = w[7:0]. -/
def opcField (w : CommandWord) : BitVec 8 := w.extractLsb' 0 8
/-- ALG = w[11:8]. -/
def algField (w : CommandWord) : BitVec 4 := w.extractLsb' 8 4
/-- MODE = w[15:12]. -/
def modeField (w : CommandWord) : BitVec 4 := w.extractLsb' 12 4
/-- KLEN = w[23:16]. -/
def klenField (w : CommandWord) : BitVec 8 := w.extractLsb' 16 8
/-- BLEN = w[31:24]. -/
def blenField (w : CommandWord) : BitVec 8 := w.extractLsb' 24 8
/-- S = w[8], salt present. -/
def saltFlag (w : CommandWord) : Bool := w.getLsbD 8
/-- I = w[9], iterations present. -/
def iterationsFlag (w : CommandWord) : Bool := w.getLsbD 9
/-- L = w[10], outputLength present. -/
def outputLengthFlag (w : CommandWord) : Bool := w.getLsbD 10

/-- The operation a word names, where its reserved bits are 0 (30_encoding.md R102, R110). -/
def decodeOpcode (w : CommandWord) : Except DecodeError Opcode :=
  match opcodeTable.find? (fun row => row.matches w) with
  | some row => .ok row.opcode
  | none =>
    if opcodeTable.any (fun row => opcField row.pattern == opcField w) then .error .reservedBits
    else .error .unassignedOpcode

/-! ### Operands (30_encoding.md R109) -/

/-- A command without operands. -/
def takeNone (i : Instr) : List Bytes → Except DecodeError Instr
  | [] => .ok i
  | _ :: _ => .error .operandCount

/-- A command with one operand. -/
def takeOne (f : Bytes → Instr) : List Bytes → Except DecodeError Instr
  | [b] => .ok (f b)
  | _ => .error .operandCount

/-- SET_PASSWORD's operands in order: password, then salt if S, iterations if I and outputLength if L (30_encoding.md R107).
Their number is 1 + S + I + L. -/
def takePassword (hasSalt hasIterations hasOutputLength : Bool) (ops : List Bytes) : Except DecodeError Instr :=
  match hasSalt, hasIterations, hasOutputLength, ops with
  | false, false, false, [p] => .ok (.setPassword p none none none)
  | true, false, false, [p, s] => .ok (.setPassword p (some s) none none)
  | false, true, false, [p, c] => .ok (.setPassword p none (some c) none)
  | true, true, false, [p, s, c] => .ok (.setPassword p (some s) (some c) none)
  | false, false, true, [p, n] => .ok (.setPassword p none none (some n))
  | true, false, true, [p, s, n] => .ok (.setPassword p (some s) none (some n))
  | false, true, true, [p, c, n] => .ok (.setPassword p none (some c) (some n))
  | true, true, true, [p, s, c, n] => .ok (.setPassword p (some s) (some c) (some n))
  | _, _, _, _ => .error .operandCount

/-- The numeric operands are 4 bytes long, or the command is illegal (30_encoding.md R109). -/
def checkNumericOperands : Except DecodeError Instr → Except DecodeError Instr
  | .ok i => if i.wf then .ok i else .error .numericOperandLength
  | .error e => .error e

/-- The fields and operands of a command whose operation is known. -/
def decodeAs (op : Opcode) (w : CommandWord) (ops : List Bytes) : Except DecodeError Instr :=
  match op with
  | .configure => takeNone (.configure (algField w) (modeField w) (klenField w) (blenField w)) ops
  | .setKey => takeOne .setKey ops
  | .setIv => takeOne .setIv ops
  | .setPassword =>
    checkNumericOperands (takePassword (saltFlag w) (iterationsFlag w) (outputLengthFlag w) ops)
  | .setKeyLength => takeNone (.setKeyLength (klenField w)) ops
  | .setBlockLength => takeNone (.setBlockLength (blenField w)) ops
  | .enableCb => takeNone .enableCb ops
  | .disableCb => takeNone .disableCb ops
  | .enablePad => takeNone .enablePad ops
  | .disablePad => takeNone .disablePad ops
  | .encrypt => takeOne .encrypt ops
  | .decrypt => takeOne .decrypt ops

/-- `decode(w, ops)` (30_encoding.md R111). -/
def decode (c : Command) : Except DecodeError Instr :=
  match decodeOpcode c.word with
  | .ok op => decodeAs op c.word c.operands
  | .error e => .error e

/-! ### Encoder -/

/-- The operation of a command. -/
def Instr.opcode : Instr → Opcode
  | .configure _ _ _ _ => .configure
  | .setKey _ => .setKey
  | .setIv _ => .setIv
  | .setPassword _ _ _ _ => .setPassword
  | .setKeyLength _ => .setKeyLength
  | .setBlockLength _ => .setBlockLength
  | .enableCb => .enableCb
  | .disableCb => .disableCb
  | .enablePad => .enablePad
  | .disablePad => .disablePad
  | .encrypt _ => .encrypt
  | .decrypt _ => .decrypt

/-- The fixed bits of an operation (30_encoding.md R102). -/
def Opcode.pattern (op : Opcode) : CommandWord :=
  match opcodeTable.find? (fun row => row.opcode == op) with
  | some row => row.pattern
  | none => 0

/-- `v` placed at bit `lo` of the word. -/
def placeField {n : Nat} (lo : Nat) (v : BitVec n) : CommandWord := v.setWidth 32 <<< lo

/-- The free fields of a command's word (30_encoding.md R101, R107). -/
def Instr.fieldBits : Instr → CommandWord
  | .configure alg mode klen blen =>
    placeField 8 alg ||| placeField 12 mode ||| placeField 16 klen ||| placeField 24 blen
  | .setPassword _ salt iterations outputLength =>
    placeField 8 (BitVec.ofBool salt.isSome) ||| placeField 9 (BitVec.ofBool iterations.isSome)
      ||| placeField 10 (BitVec.ofBool outputLength.isSome)
  | .setKeyLength klen => placeField 16 klen
  | .setBlockLength blen => placeField 24 blen
  | .setKey _ | .setIv _ | .enableCb | .disableCb | .enablePad | .disablePad | .encrypt _ | .decrypt _ => 0

/-- The operands of a command, in order (30_encoding.md R107, R109). -/
def Instr.operands : Instr → List Bytes
  | .setKey b | .setIv b | .encrypt b | .decrypt b => [b]
  | .setPassword p salt iterations outputLength =>
    p :: (salt.toList ++ iterations.toList ++ outputLength.toList)
  | .configure _ _ _ _ | .setKeyLength _ | .setBlockLength _
  | .enableCb | .disableCb | .enablePad | .disablePad => []

/-- The command that stands for `i`. -/
def encode (i : Instr) : Command := ⟨i.opcode.pattern ||| i.fieldBits, i.operands⟩

/-! ### The opcode table's words -/

/-- Operands of zeros for a word of the opcode table, as many as R109 asks for: empty byte strings, and four zero bytes for
a number (log entry 11). -/
def tableOperands (w : CommandWord) : List Bytes :=
  match decodeOpcode w with
  | .ok .setKey | .ok .setIv | .ok .encrypt | .ok .decrypt => [[]]
  | .ok .setPassword =>
    [[]] ++ (if saltFlag w then [[]] else []) ++ (if iterationsFlag w then [[0, 0, 0, 0]] else [])
      ++ (if outputLengthFlag w then [[0, 0, 0, 0]] else [])
  | _ => []

/-- The command whose word has the low `nbits` bits of `w` and zeros above them. -/
def tableCommand (nbits w : Nat) : Command :=
  let word := BitVec.ofNat 32 (w % 2 ^ nbits)
  ⟨word, tableOperands word⟩

/-- What the decoder reads from a word of the opcode table. -/
def decodeTableWord (nbits w : Nat) : Option Instr :=
  match decode (tableCommand nbits w) with
  | .ok i => some i
  | .error _ => none

end Sys2Proof
end

