-- ==== Sys2Proof/Machine/State.lean ====
section
/-! DEFINITION. The architectural state of the engine: the one CipherContext of 10_state.md (R30 to R45) and, beside it, the
wires to the host. Plain data throughout. -/

namespace Sys2Proof.Machine

/-- `ctx.alg`: the legal algorithm codes 0..4 in order (10_state.md R32, 30_encoding.md R104; log entry 8). -/
inductive Algorithm where
  | des | tripleDes | rc4 | rijndael | aes
  deriving DecidableEq, Repr

/-- `ctx.mode`: the legal mode codes 0..5 in order; `tcbc` is 3CBC (10_state.md R33, 30_encoding.md R105; log entry 8). -/
inductive Mode where
  | ecb | cbc | cfb | ofb | ctr | tcbc
  deriving DecidableEq, Repr

/-- The two independent chaining directions (10_state.md R42). -/
inductive Direction where
  | enc | dec
  deriving DecidableEq, Repr

/-- The fault reasons of 60_exceptions.md R363, codes 1..8 in order. -/
inductive FaultReason where
  /-- Raised by the decoder (30_encoding.md R109 to R111). -/
  | illegalCommand
  /-- Raised by every command but CONFIGURE on a context that is not configured (45_control.md R320). -/
  | notConfigured
  /-- Raised by ENCRYPT and DECRYPT when no key was ever supplied (45_control.md R334). -/
  | keyNotSet
  /-- Raised by ENCRYPT and DECRYPT in a mode that uses an IV when none was ever set (44_modes.md R264). -/
  | ivNotSet
  /-- Raised by ENCRYPT and DECRYPT on a length the block-aligned modes do not take (44_modes.md R269). -/
  | unalignedInput
  /-- Raised by schedule derivation on an empty RC4 key (43_rc4.md R243). -/
  | emptyRc4Key
  /-- Raised by SET_PASSWORD with iteration count 0 (45_control.md R324). -/
  | badKdfParam
  /-- The assertion of 60_exceptions.md R366: raised by ENCRYPT and DECRYPT in a state whose schedule or direction record does
  not have the shape 10_state.md gives it. No run from reset reaches such a state (log entry 6). -/
  | internalInvariant
  deriving DecidableEq, Repr

/-- The one Status the host receives for a command (60_exceptions.md R360, R361): its kind, with the output bytes for OK and
the reason for FAULT. -/
inductive Status where
  | ok (out : Bytes)
  | configError
  | paddingError
  | fault (reason : FaultReason)
  deriving DecidableEq, Repr

/-- The derived round-key schedule `ctx.sched` (10_state.md R41). -/
inductive Schedule where
  /-- `ks[1..16]` of DES (40_des.md R136). -/
  | des (ks : List DesSubkey)
  /-- The three DES schedules of TripleDES (41_tripledes.md R170). -/
  | tripleDes (ks1 ks2 ks3 : List DesSubkey)
  /-- `Nb`, `Nk`, `Nr`, `w` and `dw` of Rijndael and AES (42_rijndael.md R200, R210). -/
  | rijndael (nb nk nr : Nat) (w dw : List Column)
  /-- `S0` of RC4 (43_rc4.md R242). -/
  | rc4 (s0 : Bytes)
  deriving DecidableEq, Repr

/-- One direction record `ctx.dir[d]` (10_state.md R42). -/
structure DirRecord where
  /-- The record has been initialised since the last event that discards it. -/
  valid : Bool
  /-- The chaining register, SUB098's `currentIV` or `counter`. -/
  reg : Bytes
  /-- The current keystream block. -/
  ks : Bytes
  /-- The cursor into `ks`. -/
  pos : Nat
  /-- The stage chaining registers `c[1]`, `c[2]`, `c[3]` of 3CBC. -/
  c1 : Bytes
  c2 : Bytes
  c3 : Bytes
  /-- The RC4 permutation `S[0..256)` and its indices. -/
  s : Bytes
  i : Byte
  j : Byte
  deriving DecidableEq, Repr

/-- What the host does next (INVENTORY.md, Host interface; log entry 1). -/
inductive HostEvent where
  /-- It issues a command, after the Status of the command before it. -/
  | command (c : Command)
  /-- It issues a command before the one before it has completed (20_memory.md R88; log entry 5). -/
  | overlapping (c : Command)
  /-- It removes and applies power (70_reset_and_hazards.md R390; log entry 13). -/
  | powerUp
  deriving DecidableEq, Repr

/-- The state of the engine: the fields of `ctx` and the host's wires. -/
structure State where
  /-- A CONFIGURE command has succeeded (10_state.md R31). -/
  configured : Bool
  /-- 10_state.md R32. -/
  alg : Algorithm
  /-- 10_state.md R33. -/
  mode : Mode
  /-- The raw key bytes as supplied, or `⊥` (10_state.md R34). -/
  keyReg : Option Bytes
  /-- The key-length parameter in bytes; 0 derives it from the key (10_state.md R35). -/
  keyLenParam : BitVec 8
  /-- The block-length parameter in bytes, one of 16, 20, 24, 28, 32 (10_state.md R36). -/
  blockLen : Nat
  /-- The raw IV bytes, or `⊥` (10_state.md R37). -/
  ivReg : Option Bytes
  /-- The schedule must be derived again (10_state.md R38). -/
  dirty : Bool
  /-- Continuous buffering (10_state.md R39). -/
  cbEnabled : Bool
  /-- Padding (10_state.md R40). -/
  padEnabled : Bool
  /-- The derived schedule, or `⊥` (10_state.md R41). -/
  sched : Option Schedule
  /-- `dir[enc]` (10_state.md R42). -/
  enc : DirRecord
  /-- `dir[dec]` (10_state.md R42). -/
  dec : DirRecord
  /-- `none`, or the sticky fault reason (10_state.md R44). -/
  fault : Option FaultReason
  /-- The number of commands completed since power-up (10_state.md R45). -/
  pc : Nat
  /-- The model's own: what the host is going to do, in order (log entry 1). -/
  inbox : List HostEvent
  /-- The model's own: the Status of the last command, on the wire to the host (log entry 2). -/
  response : Option Status
  deriving DecidableEq, Repr

/-- A stop of the model with a fault. There is none: a fault of the engine is a next state with `ctx.fault` set
(60_exceptions.md R362), after which the engine answers FAULT to every command. -/
inductive Fault where
  deriving DecidableEq, Repr

/-- A stop of the model with a refusal. -/
inductive Refusal where
  /-- Raised by `exec` for an instruction without a meaning; no arm raises it. Safe. -/
  | notModelled (mnemonic : String)
  /-- Raised by `step` for a command issued before the one before it completed: "the model refuses such a schedule"
  (20_memory.md R88). Safe. -/
  | overlappingCommand
  deriving DecidableEq, Repr

/-- A direction record at power-up. Only `valid` has a value in the spec (10_state.md R48); the others are zero at the width a
DES context gives them (log entry 3). -/
def DirRecord.reset : DirRecord where
  valid := false
  reg := List.replicate 8 0
  ks := List.replicate 8 0
  pos := 0
  c1 := List.replicate 8 0
  c2 := List.replicate 8 0
  c3 := List.replicate 8 0
  s := List.replicate 256 0
  i := 0
  j := 0

/-- Power-up (70_reset_and_hazards.md R390, 10_state.md R48). `alg`, `mode`, `keyLenParam`, `blockLen`, `dirty`, `cbEnabled` and
`padEnabled` are unspecified in the spec and take the values log entry 3 names; no command waits (log entry 1). -/
def State.reset : State where
  configured := false
  alg := .des
  mode := .ecb
  keyReg := none
  keyLenParam := 0
  blockLen := 16
  ivReg := none
  dirty := false
  cbEnabled := false
  padEnabled := false
  sched := none
  enc := DirRecord.reset
  dec := DirRecord.reset
  fault := none
  pc := 0
  inbox := []
  response := none

end Sys2Proof.Machine
end

