-- ==== Sys2Proof/Machine/Flags.lean ====
section
/-! DEFINITION. The flags of the context and the operations that write them (10_state.md R38 to R42). -/

namespace Sys2Proof.Machine

/-- `ctx.dirty <- true` (10_state.md R38). -/
def State.markDirty (s : State) : State := { s with dirty := true }

/-- `Discard()`: both direction records become invalid (45_control.md R335). -/
def State.discard (s : State) : State :=
  { s with enc := { s.enc with valid := false }, dec := { s.dec with valid := false } }

/-- `ctx.cbEnabled <- b` (10_state.md R39). -/
def State.setCb (b : Bool) (s : State) : State := { s with cbEnabled := b }

/-- `ctx.padEnabled <- b` (10_state.md R40). -/
def State.setPad (b : Bool) (s : State) : State := { s with padEnabled := b }

/-- `dir[d]` (10_state.md R42). -/
def State.dir (d : Direction) (s : State) : DirRecord :=
  match d with
  | .enc => s.enc
  | .dec => s.dec

/-- `dir[d] <- r` (10_state.md R42). -/
def State.setDir (d : Direction) (r : DirRecord) (s : State) : State :=
  match d with
  | .enc => { s with enc := r }
  | .dec => { s with dec := r }

end Sys2Proof.Machine
end

