-- ==== Sys2Proof/Config.lean ====
section
/-! DEFINITION. What an implementation of the engine fixes and the spec leaves as named parameters without a value
(00_scope.md R9, 92_eei_decisions.md D27; log entry 7): the HMAC primitive and the defaults of SET_PASSWORD. Each is an opaque
constant, so nothing can be proved about its value. -/

namespace Sys2Proof

/-- hLen − 1. Log entry 7 (DEDUCED): hLen is at least 1, or PBKDF2's loop (45_control.md R325) would not end. -/
opaque Config.hLenLessOne : Nat

/-- `hLen`, the output length of HMAC in bytes (00_scope.md R9). -/
def Config.hLen : Nat := Config.hLenLessOne + 1

/-- `HMAC : bytes × bytes → bytes`, the keyed PRF of PBKDF2: the key, then the message; `hLen` bytes come out
(00_scope.md R9, 45_control.md R325). -/
opaque Config.hmac : Bytes → Bytes → Vector Byte Config.hLen

/-- `KDF_DEFAULT_SALT` (00_scope.md R9). -/
opaque Config.kdfDefaultSalt : Bytes

/-- `KDF_DEFAULT_ITERATIONS` (00_scope.md R9). -/
opaque Config.kdfDefaultIterations : Nat

/-- `KDF_DEFAULT_DKLEN` (00_scope.md R9). -/
opaque Config.kdfDefaultDkLen : Nat

end Sys2Proof
end

