-- ==== Sys2Proof/Machine/Bytes.lean ====
section
/-! DEFINITION. Byte-string helpers of the spec's notation (00_scope.md R10, R11; 20_memory.md R71, R72). -/

namespace Sys2Proof.Machine

/-- `BE(b)`: the integer whose big-endian representation is `b` (00_scope.md R11). -/
def beNat (b : Bytes) : Nat := b.foldl (fun acc x => acc * 256 + x.toNat) 0

/-- `be_n(v)`: the n-byte big-endian representation of `v mod 2^(8n)` (00_scope.md R11). -/
def beBytes : Nat → Nat → Bytes
  | 0, _ => []
  | n + 1, v => beBytes n (v / 256) ++ [BitVec.ofNat 8 v]

/-- `zeros(n)` (00_scope.md R10). -/
def zeros (n : Nat) : Bytes := List.replicate n 0

/-- `a XOR b` on byte strings of equal length (00_scope.md R10). -/
def xorBytes (a b : Bytes) : Bytes := List.zipWith (· ^^^ ·) a b

/-- `b[0 .. min(n, len b)) || zeros(max(0, n − len b))`: the silent truncation and zero padding of keys and IVs
(40_des.md R130, 44_modes.md R261). -/
def fit (n : Nat) (b : Bytes) : Bytes := b.take n ++ zeros (n - b.length)

/-- `MemRead(op, a, n)`: the n bytes at offset a (20_memory.md R71). -/
def slice (a n : Nat) (b : Bytes) : Bytes := (b.drop a).take n

/-- The first `k` blocks of `bs` bytes, in order. -/
def takeBlocks (bs : Nat) : Nat → Bytes → List Bytes
  | 0, _ => []
  | k + 1, b => b.take bs :: takeBlocks bs k (b.drop bs)

/-- A data operand as blocks: block k is the bytes `[k·bs, (k+1)·bs)` (20_memory.md R72). -/
def blocks (bs : Nat) (b : Bytes) : List Bytes := takeBlocks bs (b.length / bs) b

end Sys2Proof.Machine
end

