-- ==== Sys2Proof/Machine/Kdf.lean ====
section
/-! DEFINITION. The KeyDerivation unit: PBKDF2 over a host-supplied HMAC (45_control.md R325). -/

namespace Sys2Proof.Machine

/-- The inner loop of PBKDF2, `n` more iterations: `U <- HMAC(P, U); X <- X XOR U` (45_control.md R325). -/
def pbkdf2Iterate (hmac : Bytes → Bytes → Bytes) (P : Bytes) : Nat → Bytes → Bytes → Bytes
  | 0, _, X => X
  | n + 1, U, X => pbkdf2Iterate hmac P n (hmac P U) (xorBytes X (hmac P U))

/-- `T_i = U_1 XOR … XOR U_c` (45_control.md R325). -/
def pbkdf2Block (hmac : Bytes → Bytes → Bytes) (P S : Bytes) (c i : Nat) : Bytes :=
  let U := hmac P (S ++ beBytes 4 i)
  pbkdf2Iterate hmac P (c - 1) U U

/-- The outer loop `while len(T) < dkLen`, at most `fuel` times round. With a nonempty HMAC output `dkLen` rounds are enough
(log entry 7). -/
def pbkdf2Loop (hmac : Bytes → Bytes → Bytes) (P S : Bytes) (c dkLen : Nat) : Nat → Nat → Bytes → Bytes
  | 0, _, T => T
  | fuel + 1, i, T =>
    if T.length < dkLen then pbkdf2Loop hmac P S c dkLen fuel (i + 1) (T ++ pbkdf2Block hmac P S c i) else T

/-- `PBKDF2(P, S, c, dkLen)` (45_control.md R325). -/
def pbkdf2 (hmac : Bytes → Bytes → Bytes) (P S : Bytes) (c dkLen : Nat) : Bytes :=
  (pbkdf2Loop hmac P S c dkLen dkLen 1 []).take dkLen

/-- The engine's HMAC parameter as a function to byte strings (00_scope.md R9). -/
def engineHmac (key message : Bytes) : Bytes := (Config.hmac key message).toList

end Sys2Proof.Machine
end

