-- ==== Sys2Proof/Machine/Modes.lean ====
section
/-! DEFINITION. The ChainingModeEngine's datapaths and the PaddingCodec (44_modes.md R266 to R279). A mode is what it does to
one block, or to one byte, of its direction record; the text then runs through it in order. -/

namespace Sys2Proof.Machine

/-- The text run through a mode, element by element in order (20_memory.md R72): the outputs and the record left behind. -/
def runThrough {α β : Type} (f : DirRecord → α → β × DirRecord) : DirRecord → List α → List β × DirRecord
  | r, [] => ([], r)
  | r, a :: rest => ((f r a).1 :: (runThrough f (f r a).2 rest).1, (runThrough f (f r a).2 rest).2)

/-- A block mode over a byte string whose length is a multiple of `bs`: output block k lies at the offsets of input block k
(20_memory.md R72). -/
def runBlocks (bs : Nat) (f : DirRecord → Bytes → Bytes × DirRecord) (r : DirRecord) (X : Bytes) : Bytes × DirRecord :=
  ((runThrough f r (blocks bs X)).1.flatten, (runThrough f r (blocks bs X)).2)

/-! ### PaddingCodec -/

/-- `Pad(M)` (44_modes.md R266). -/
def pad (bs : Nat) (M : Bytes) : Bytes :=
  let n := bs - M.length % bs
  M ++ List.replicate n (BitVec.ofNat 8 n)

/-- `Unpad(X)`; `none` is PaddingError. Only the last byte is checked (44_modes.md R267). -/
def unpad (bs : Nat) (X : Bytes) : Option Bytes :=
  match X.getLast? with
  | none => none
  | some last =>
    let n := last.toNat
    if n = 0 ∨ n > bs then none else some (X.take (X.length - n))

/-! ### ECB and CBC, one block -/

/-- ECB, either direction: the block transform alone (44_modes.md R270, R271). -/
def ecbStep (F : Bytes → Bytes) (r : DirRecord) (x : Bytes) : Bytes × DirRecord := (F x, r)

/-- CBC encryption: `C_i = E(P_i XOR C_{i−1})` (44_modes.md R272). -/
def cbcEncryptStep (E : Bytes → Bytes) (r : DirRecord) (p : Bytes) : Bytes × DirRecord :=
  let c := E (xorBytes p r.reg)
  (c, { r with reg := c })

/-- CBC decryption: `P_i = D(C_i) XOR C_{i−1}` (44_modes.md R273). -/
def cbcDecryptStep (D : Bytes → Bytes) (r : DirRecord) (c : Bytes) : Bytes × DirRecord :=
  (xorBytes (D c) r.reg, { r with reg := c })

/-! ### CFB, OFB and CTR, one byte -/

/-- CFB encryption: a new keystream block `E(reg)` when `pos = 0`; the ciphertext byte goes into `reg[pos]`
(44_modes.md R274). -/
def cfbEncryptStep (E : Bytes → Bytes) (bs : Nat) (r : DirRecord) (m : Byte) : Byte × DirRecord :=
  let ks := if r.pos = 0 then E r.reg else r.ks
  let out := m ^^^ ks.getD r.pos 0
  (out, { r with ks := ks, reg := r.reg.set r.pos out, pos := (r.pos + 1) % bs })

/-- CFB decryption: the feedback is the input ciphertext byte (44_modes.md R275). -/
def cfbDecryptStep (E : Bytes → Bytes) (bs : Nat) (r : DirRecord) (c : Byte) : Byte × DirRecord :=
  let ks := if r.pos = 0 then E r.reg else r.ks
  (c ^^^ ks.getD r.pos 0, { r with ks := ks, reg := r.reg.set r.pos c, pos := (r.pos + 1) % bs })

/-- OFB, either direction: `K_i = E(K_{i−1})` (44_modes.md R276). -/
def ofbStep (E : Bytes → Bytes) (bs : Nat) (r : DirRecord) (t : Byte) : Byte × DirRecord :=
  let reg := if r.pos = 0 then E r.reg else r.reg
  let ks := if r.pos = 0 then reg else r.ks
  (t ^^^ ks.getD r.pos 0, { r with reg := reg, ks := ks, pos := (r.pos + 1) % bs })

/-- `CTR_Inc` on the first `n` words of the counter, the rightmost of them first; the carry goes on to the left only where the
word wrapped to 0 (44_modes.md R278). -/
def ctrIncWords : Nat → Bytes → Bytes
  | 0, ctr => ctr
  | wi + 1, ctr =>
    let v := (beNat (slice (4 * wi) 4 ctr) + 1) % 2 ^ 32
    let ctr' := ctr.take (4 * wi) ++ beBytes 4 v ++ ctr.drop (4 * wi + 4)
    if v ≠ 0 then ctr' else ctrIncWords wi ctr'

/-- `CTR_Inc(ctr)` (44_modes.md R278). -/
def ctrInc (ctr : Bytes) : Bytes := ctrIncWords (ctr.length / 4) ctr

/-- CTR, either direction: `K = E(counter)`, then the increment, when `pos = 0` (44_modes.md R277). -/
def ctrStep (E : Bytes → Bytes) (bs : Nat) (r : DirRecord) (t : Byte) : Byte × DirRecord :=
  let ks := if r.pos = 0 then E r.reg else r.ks
  let reg := if r.pos = 0 then ctrInc r.reg else r.reg
  (t ^^^ ks.getD r.pos 0, { r with reg := reg, ks := ks, pos := (r.pos + 1) % bs })

end Sys2Proof.Machine
end

