-- ==== Sys2Proof/Machine/Operands.lean ====
section
/-! DEFINITION. What the operands and fields of a command stand for: the codes of CONFIGURE, the block size, the IV and the
optional operands of SET_PASSWORD; and the codes of a Status. -/

namespace Sys2Proof.Machine

/-! ### Codes -/

/-- The algorithm of an ALG code; codes 5..15 name none (30_encoding.md R104). -/
def algorithmOfCode (code : BitVec 4) : Option Algorithm :=
  match code.toNat with
  | 0 => some .des
  | 1 => some .tripleDes
  | 2 => some .rc4
  | 3 => some .rijndael
  | 4 => some .aes
  | _ => none

/-- The ALG code of an algorithm (30_encoding.md R104). -/
def algorithmCode : Algorithm → BitVec 4
  | .des => 0
  | .tripleDes => 1
  | .rc4 => 2
  | .rijndael => 3
  | .aes => 4

/-- The mode of a MODE code; codes 6..15 name none (30_encoding.md R105). -/
def modeOfCode (code : BitVec 4) : Option Mode :=
  match code.toNat with
  | 0 => some .ecb
  | 1 => some .cbc
  | 2 => some .cfb
  | 3 => some .ofb
  | 4 => some .ctr
  | 5 => some .tcbc
  | _ => none

/-- The MODE code of a mode (30_encoding.md R105). -/
def modeCode : Mode → BitVec 4
  | .ecb => 0
  | .cbc => 1
  | .cfb => 2
  | .ofb => 3
  | .ctr => 4
  | .tcbc => 5

/-- The algorithm and mode CONFIGURE accepts: both codes are known, and 3CBC goes with TripleDES only
(45_control.md R321, 60_exceptions.md R364). -/
def configuration (alg mode : BitVec 4) : Option (Algorithm × Mode) :=
  match algorithmOfCode alg, modeOfCode mode with
  | some a, some m => if m = .tcbc ∧ a ≠ .tripleDes then none else some (a, m)
  | _, _ => none

/-- The fault reason codes (60_exceptions.md R363). -/
def faultCode : FaultReason → BitVec 4
  | .illegalCommand => 1
  | .notConfigured => 2
  | .keyNotSet => 3
  | .ivNotSet => 4
  | .unalignedInput => 5
  | .emptyRc4Key => 6
  | .badKdfParam => 7
  | .internalInvariant => 8

/-- The status kind codes (60_exceptions.md R361). -/
def statusCode : Status → BitVec 2
  | .ok _ => 0
  | .configError => 1
  | .paddingError => 2
  | .fault _ => 3

/-- The output bytes of a Status (60_exceptions.md R360). -/
def statusOut : Status → Bytes
  | .ok out => out
  | .configError => []
  | .paddingError => []
  | .fault _ => []

/-- The fault reason reported beside a Status of kind FAULT (60_exceptions.md R361). -/
def statusReason : Status → Option FaultReason
  | .fault r => some r
  | .ok _ => none
  | .configError => none
  | .paddingError => none

/-! ### Block size and IV -/

/-- The block size `bs` of an algorithm (10_state.md R36). -/
def blockSizeOf (alg : Algorithm) (blockLen : Nat) : Nat :=
  match alg with
  | .des => 8
  | .tripleDes => 8
  | .rc4 => 1
  | .rijndael => blockLen
  | .aes => 16

/-- The block size `bs` of the context. -/
def State.bs (s : State) : Nat := blockSizeOf s.alg s.blockLen

/-- A mode that uses an IV (44_modes.md R264). -/
def usesIv : Mode → Bool
  | .ecb => false
  | .cbc => true
  | .cfb => true
  | .ofb => true
  | .ctr => true
  | .tcbc => true

/-- The normalised IV `IVn` (44_modes.md R261). -/
def normalisedIv (bs : Nat) : Option Bytes → Bytes
  | some iv => fit bs iv
  | none => zeros bs

/-! ### SET_PASSWORD (30_encoding.md R107, 45_control.md R324) -/

/-- The salt: the operand, or `KDF_DEFAULT_SALT`. -/
def kdfSalt (salt : Option Bytes) : Bytes := salt.getD Config.kdfDefaultSalt

/-- The iteration count: the 4-byte big-endian operand, or `KDF_DEFAULT_ITERATIONS`. -/
def kdfIterations : Option Bytes → Nat
  | some b => beNat b
  | none => Config.kdfDefaultIterations

/-- The output length: the 4-byte big-endian operand, or `KDF_DEFAULT_DKLEN`. -/
def kdfOutputLength : Option Bytes → Nat
  | some b => beNat b
  | none => Config.kdfDefaultDkLen

/-! ### Views of a direction record (10_state.md R43) -/

/-- `currentIV` or `counter`: `reg` of a valid record; RC4 has none. -/
def currentIv (alg : Algorithm) (r : DirRecord) : Option Bytes :=
  if alg = .rc4 ∨ r.valid = false then none else some r.reg

/-- `pendingPartialBlock`: the bytes `ks[pos .. bs)` when `pos > 0`, else empty; RC4 has none. -/
def pendingPartialBlock (alg : Algorithm) (bs : Nat) (r : DirRecord) : Option Bytes :=
  if alg = .rc4 ∨ r.valid = false then none
  else some (if r.pos = 0 then [] else slice r.pos (bs - r.pos) r.ks)

end Sys2Proof.Machine
end

