-- ==== Sys2Proof/Machine/Rc4.lean ====
section
/-! DEFINITION. RC4: the key schedule and the keystream generator (43_rc4.md R240 to R247). -/

namespace Sys2Proof.Machine

/-- `S[i]` (43_rc4.md R242). -/
def permAt (S : Bytes) (i : Byte) : Byte := S.getD i.toNat 0

/-- `swap S[i], S[j]` (43_rc4.md R242). -/
def permSwap (S : Bytes) (i j : Byte) : Bytes := (S.set i.toNat (permAt S j)).set j.toNat (permAt S i)

/-- The identity permutation of 0..255. -/
def permIdentity : Bytes := (List.range 256).map (BitVec.ofNat 8)

/-- The swap loop of `RC4_KSA` over the indices that are left (43_rc4.md R242). -/
def ksaLoop (key : Bytes) : List Nat → Byte → Bytes → Bytes
  | [], _, S => S
  | i :: rest, j, S =>
    let j' := j + permAt S (BitVec.ofNat 8 i) + key.getD (i % key.length) 0
    ksaLoop key rest j' (permSwap S (BitVec.ofNat 8 i) j')

/-- `RC4_KSA(key)`, for a key of at least one byte (43_rc4.md R242). -/
def rc4Ksa (key : Bytes) : Bytes := ksaLoop key (List.range 256) 0 permIdentity

/-- One byte of `RC4_Crypt` on a direction record (43_rc4.md R245). -/
def rc4Step (r : DirRecord) (t : Byte) : Byte × DirRecord :=
  let i := r.i + 1
  let j := r.j + permAt r.s i
  let S := permSwap r.s i j
  (t ^^^ permAt S (permAt S i + permAt S j), { r with s := S, i := i, j := j })

end Sys2Proof.Machine
end

