-- ==== Sys2Proof/Machine/Rijndael.lean ====
section
/-! DEFINITION. The Rijndael/AES core for every Nb and Nk in 4..8 (42_rijndael.md R190 to R213). -/

namespace Sys2Proof.Machine

/-! ### GF(2^8) (00_scope.md R14) -/

/-- `xtime(a)`: multiplication by x modulo 0x11B. -/
def xtime (a : Byte) : Byte := (a <<< 1) ^^^ (if a.msb then 0x1B#8 else 0#8)

/-- The first `n` terms of the product: bit k of `b` adds `a` multiplied by x^k. -/
def gfMulBits : Nat → Byte → Byte → Byte
  | 0, _, _ => 0
  | n + 1, a, b => (if b.getLsbD 0 then a else 0) ^^^ gfMulBits n (xtime a) (b >>> 1)

/-- `a • b`, the product in GF(2^8). -/
def gfMul (a b : Byte) : Byte := gfMulBits 8 a b

/-! ### Tables -/

/-- The S-box table: the row is the high nibble, the column the low one (42_rijndael.md R195). -/
def sboxRows : List (List Nat) :=
  [[0x63, 0x7c, 0x77, 0x7b, 0xf2, 0x6b, 0x6f, 0xc5, 0x30, 0x01, 0x67, 0x2b, 0xfe, 0xd7, 0xab, 0x76],
   [0xca, 0x82, 0xc9, 0x7d, 0xfa, 0x59, 0x47, 0xf0, 0xad, 0xd4, 0xa2, 0xaf, 0x9c, 0xa4, 0x72, 0xc0],
   [0xb7, 0xfd, 0x93, 0x26, 0x36, 0x3f, 0xf7, 0xcc, 0x34, 0xa5, 0xe5, 0xf1, 0x71, 0xd8, 0x31, 0x15],
   [0x04, 0xc7, 0x23, 0xc3, 0x18, 0x96, 0x05, 0x9a, 0x07, 0x12, 0x80, 0xe2, 0xeb, 0x27, 0xb2, 0x75],
   [0x09, 0x83, 0x2c, 0x1a, 0x1b, 0x6e, 0x5a, 0xa0, 0x52, 0x3b, 0xd6, 0xb3, 0x29, 0xe3, 0x2f, 0x84],
   [0x53, 0xd1, 0x00, 0xed, 0x20, 0xfc, 0xb1, 0x5b, 0x6a, 0xcb, 0xbe, 0x39, 0x4a, 0x4c, 0x58, 0xcf],
   [0xd0, 0xef, 0xaa, 0xfb, 0x43, 0x4d, 0x33, 0x85, 0x45, 0xf9, 0x02, 0x7f, 0x50, 0x3c, 0x9f, 0xa8],
   [0x51, 0xa3, 0x40, 0x8f, 0x92, 0x9d, 0x38, 0xf5, 0xbc, 0xb6, 0xda, 0x21, 0x10, 0xff, 0xf3, 0xd2],
   [0xcd, 0x0c, 0x13, 0xec, 0x5f, 0x97, 0x44, 0x17, 0xc4, 0xa7, 0x7e, 0x3d, 0x64, 0x5d, 0x19, 0x73],
   [0x60, 0x81, 0x4f, 0xdc, 0x22, 0x2a, 0x90, 0x88, 0x46, 0xee, 0xb8, 0x14, 0xde, 0x5e, 0x0b, 0xdb],
   [0xe0, 0x32, 0x3a, 0x0a, 0x49, 0x06, 0x24, 0x5c, 0xc2, 0xd3, 0xac, 0x62, 0x91, 0x95, 0xe4, 0x79],
   [0xe7, 0xc8, 0x37, 0x6d, 0x8d, 0xd5, 0x4e, 0xa9, 0x6c, 0x56, 0xf4, 0xea, 0x65, 0x7a, 0xae, 0x08],
   [0xba, 0x78, 0x25, 0x2e, 0x1c, 0xa6, 0xb4, 0xc6, 0xe8, 0xdd, 0x74, 0x1f, 0x4b, 0xbd, 0x8b, 0x8a],
   [0x70, 0x3e, 0xb5, 0x66, 0x48, 0x03, 0xf6, 0x0e, 0x61, 0x35, 0x57, 0xb9, 0x86, 0xc1, 0x1d, 0x9e],
   [0xe1, 0xf8, 0x98, 0x11, 0x69, 0xd9, 0x8e, 0x94, 0x9b, 0x1e, 0x87, 0xe9, 0xce, 0x55, 0x28, 0xdf],
   [0x8c, 0xa1, 0x89, 0x0d, 0xbf, 0xe6, 0x42, 0x68, 0x41, 0x99, 0x2d, 0x0f, 0xb0, 0x54, 0xbb, 0x16]]

/-- The inverse S-box table: the row is the high nibble, the column the low one (42_rijndael.md R196). -/
def invSboxRows : List (List Nat) :=
  [[0x52, 0x09, 0x6a, 0xd5, 0x30, 0x36, 0xa5, 0x38, 0xbf, 0x40, 0xa3, 0x9e, 0x81, 0xf3, 0xd7, 0xfb],
   [0x7c, 0xe3, 0x39, 0x82, 0x9b, 0x2f, 0xff, 0x87, 0x34, 0x8e, 0x43, 0x44, 0xc4, 0xde, 0xe9, 0xcb],
   [0x54, 0x7b, 0x94, 0x32, 0xa6, 0xc2, 0x23, 0x3d, 0xee, 0x4c, 0x95, 0x0b, 0x42, 0xfa, 0xc3, 0x4e],
   [0x08, 0x2e, 0xa1, 0x66, 0x28, 0xd9, 0x24, 0xb2, 0x76, 0x5b, 0xa2, 0x49, 0x6d, 0x8b, 0xd1, 0x25],
   [0x72, 0xf8, 0xf6, 0x64, 0x86, 0x68, 0x98, 0x16, 0xd4, 0xa4, 0x5c, 0xcc, 0x5d, 0x65, 0xb6, 0x92],
   [0x6c, 0x70, 0x48, 0x50, 0xfd, 0xed, 0xb9, 0xda, 0x5e, 0x15, 0x46, 0x57, 0xa7, 0x8d, 0x9d, 0x84],
   [0x90, 0xd8, 0xab, 0x00, 0x8c, 0xbc, 0xd3, 0x0a, 0xf7, 0xe4, 0x58, 0x05, 0xb8, 0xb3, 0x45, 0x06],
   [0xd0, 0x2c, 0x1e, 0x8f, 0xca, 0x3f, 0x0f, 0x02, 0xc1, 0xaf, 0xbd, 0x03, 0x01, 0x13, 0x8a, 0x6b],
   [0x3a, 0x91, 0x11, 0x41, 0x4f, 0x67, 0xdc, 0xea, 0x97, 0xf2, 0xcf, 0xce, 0xf0, 0xb4, 0xe6, 0x73],
   [0x96, 0xac, 0x74, 0x22, 0xe7, 0xad, 0x35, 0x85, 0xe2, 0xf9, 0x37, 0xe8, 0x1c, 0x75, 0xdf, 0x6e],
   [0x47, 0xf1, 0x1a, 0x71, 0x1d, 0x29, 0xc5, 0x89, 0x6f, 0xb7, 0x62, 0x0e, 0xaa, 0x18, 0xbe, 0x1b],
   [0xfc, 0x56, 0x3e, 0x4b, 0xc6, 0xd2, 0x79, 0x20, 0x9a, 0xdb, 0xc0, 0xfe, 0x78, 0xcd, 0x5a, 0xf4],
   [0x1f, 0xdd, 0xa8, 0x33, 0x88, 0x07, 0xc7, 0x31, 0xb1, 0x12, 0x10, 0x59, 0x27, 0x80, 0xec, 0x5f],
   [0x60, 0x51, 0x7f, 0xa9, 0x19, 0xb5, 0x4a, 0x0d, 0x2d, 0xe5, 0x7a, 0x9f, 0x93, 0xc9, 0x9c, 0xef],
   [0xa0, 0xe0, 0x3b, 0x4d, 0xae, 0x2a, 0xf5, 0xb0, 0xc8, 0xeb, 0xbb, 0x3c, 0x83, 0x53, 0x99, 0x61],
   [0x17, 0x2b, 0x04, 0x7e, 0xba, 0x77, 0xd6, 0x26, 0xe1, 0x69, 0x14, 0x63, 0x55, 0x21, 0x0c, 0x7d]]

/-- The entry of a byte table at high nibble, low nibble. -/
def lookupByte (rows : List (List Nat)) (a : Byte) : Byte :=
  BitVec.ofNat 8 ((rows.getD (a.toNat / 16) []).getD (a.toNat % 16) 0)

/-- `SBOX[a]` (42_rijndael.md R195). -/
def sbox (a : Byte) : Byte := lookupByte sboxRows a

/-- `INV_SBOX[a]` (42_rijndael.md R196). -/
def invSbox (a : Byte) : Byte := lookupByte invSboxRows a

/-- `Rcon[i]`, i ≥ 1: `Rcon[1] = 01`, `Rcon[i+1] = xtime(Rcon[i])` (42_rijndael.md R197). -/
def rcon : Nat → Byte
  | 0 => 0
  | 1 => 0x01
  | i + 2 => xtime (rcon (i + 1))

/-! ### Columns -/

/-- The zero column. -/
def zeroColumn : Column := ⟨0, 0, 0, 0⟩

/-- XOR of two words. -/
def xorColumn (a b : Column) : Column := ⟨a.b0 ^^^ b.b0, a.b1 ^^^ b.b1, a.b2 ^^^ b.b2, a.b3 ^^^ b.b3⟩

/-- A byte function on each byte of a word. -/
def mapColumn (f : Byte → Byte) (a : Column) : Column := ⟨f a.b0, f a.b1, f a.b2, f a.b3⟩

/-- `load`: the block taken column by column, `s[r][c] = in[r + 4c]`; also the words of a key (20_memory.md R74). -/
def loadColumns : Bytes → List Column
  | b0 :: b1 :: b2 :: b3 :: rest => ⟨b0, b1, b2, b3⟩ :: loadColumns rest
  | _ => []

/-- `store`: the columns written back in the same order (20_memory.md R74). -/
def storeColumns : List Column → Bytes
  | [] => []
  | a :: rest => a.b0 :: a.b1 :: a.b2 :: a.b3 :: storeColumns rest

/-! ### Normalisation -/

/-- The normalised key length `L' = min(32, max(16, 4·ceil(L/4)))`, `L` the parameter or, where it is 0, the key's own length
(42_rijndael.md R191). -/
def rijndaelKeyLength (keyLenParam : BitVec 8) (keyReg : Bytes) : Nat :=
  let L := if keyLenParam = 0 then keyReg.length else keyLenParam.toNat
  min 32 (max 16 (4 * ((L + 3) / 4)))

/-- `RJ_Key(keyReg, keyLenParam)` (42_rijndael.md R191). -/
def rijndaelKey (keyLenParam : BitVec 8) (keyReg : Bytes) : Bytes := fit (rijndaelKeyLength keyLenParam keyReg) keyReg

/-- `RJ_BlockLen(B)` (42_rijndael.md R192). -/
def rijndaelBlockLen (B : BitVec 8) : Nat := if B = 0 then 16 else min 32 (max 16 (4 * ((B.toNat + 3) / 4)))

/-- `Nr = max(Nb, Nk) + 6` (42_rijndael.md R190). -/
def rijndaelRounds (nb nk : Nat) : Nat := max nb nk + 6

/-! ### Key expansion -/

/-- `RotWord` (42_rijndael.md R198). -/
def rotWord (a : Column) : Column := ⟨a.b1, a.b2, a.b3, a.b0⟩

/-- `SubWord` (42_rijndael.md R198). -/
def subWord (a : Column) : Column := mapColumn sbox a

/-- What is XORed to `w[i−Nk]`: the word before it, transformed at every Nk-th word and, for Nk > 6, at offset 4
(42_rijndael.md R200). -/
def expansionWord (nk i : Nat) (prev : Column) : Column :=
  if i % nk = 0 then xorColumn (subWord (rotWord prev)) ⟨rcon (i / nk), 0, 0, 0⟩
  else if 6 < nk ∧ i % nk = 4 then subWord prev
  else prev

/-- The loop of `RJ_KeyExpansion`: `fuel` more words after the first `w.length` (42_rijndael.md R200). -/
def expandKeyFrom (nk : Nat) : Nat → List Column → List Column
  | 0, w => w
  | fuel + 1, w =>
    let i := w.length
    let t := expansionWord nk i (w.getD (i - 1) zeroColumn)
    expandKeyFrom nk fuel (w ++ [xorColumn (w.getD (i - nk) zeroColumn) t])

/-- `RJ_KeyExpansion(K, Nb)`: `Nb·(Nr+1)` words (42_rijndael.md R200). -/
def rijndaelExpandKey (nb : Nat) (key : Bytes) : List Column :=
  let nk := key.length / 4
  let total := nb * (rijndaelRounds nb nk + 1)
  expandKeyFrom nk (total - nk) ((loadColumns key).take total)

/-! ### Round functions -/

/-- `C[r]`, the ShiftRows offset of rows 1, 2 and 3; row 0 is not shifted (42_rijndael.md R202). -/
def shiftOffset (nb : Nat) : Nat → Nat
  | 0 => 0
  | 1 => 1
  | 2 => if nb = 8 then 3 else 2
  | _ => if nb = 7 ∨ nb = 8 then 4 else 3

/-- `SubBytes` (42_rijndael.md R201). -/
def subBytes (s : List Column) : List Column := s.map (mapColumn sbox)

/-- `InvSubBytes` (42_rijndael.md R206). -/
def invSubBytes (s : List Column) : List Column := s.map (mapColumn invSbox)

/-- Column `c` of a state of `nb` columns, counted modulo `nb`. -/
def columnAt (nb : Nat) (s : List Column) (c : Nat) : Column := s.getD (c % nb) zeroColumn

/-- `ShiftRows`: `s'[r][c] = s[r][(c + C[r]) mod Nb]` (42_rijndael.md R202). -/
def shiftRows (nb : Nat) (s : List Column) : List Column :=
  (List.range nb).map fun c =>
    ⟨(columnAt nb s c).b0, (columnAt nb s (c + shiftOffset nb 1)).b1,
     (columnAt nb s (c + shiftOffset nb 2)).b2, (columnAt nb s (c + shiftOffset nb 3)).b3⟩

/-- `InvShiftRows`: `s'[r][c] = s[r][(c − C[r]) mod Nb]` (42_rijndael.md R207). `C[r] ≤ Nb`, so `c + Nb − C[r]` is not cut off. -/
def invShiftRows (nb : Nat) (s : List Column) : List Column :=
  (List.range nb).map fun c =>
    ⟨(columnAt nb s c).b0, (columnAt nb s (c + nb - shiftOffset nb 1)).b1,
     (columnAt nb s (c + nb - shiftOffset nb 2)).b2, (columnAt nb s (c + nb - shiftOffset nb 3)).b3⟩

/-- `MixColumns` on one column (42_rijndael.md R203). -/
def mixColumn (a : Column) : Column where
  b0 := gfMul 0x02 a.b0 ^^^ gfMul 0x03 a.b1 ^^^ a.b2 ^^^ a.b3
  b1 := a.b0 ^^^ gfMul 0x02 a.b1 ^^^ gfMul 0x03 a.b2 ^^^ a.b3
  b2 := a.b0 ^^^ a.b1 ^^^ gfMul 0x02 a.b2 ^^^ gfMul 0x03 a.b3
  b3 := gfMul 0x03 a.b0 ^^^ a.b1 ^^^ a.b2 ^^^ gfMul 0x02 a.b3

/-- `InvMixColumns` on one column, `InvMixColumn(word)` (42_rijndael.md R208, R209). -/
def invMixColumn (a : Column) : Column where
  b0 := gfMul 0x0e a.b0 ^^^ gfMul 0x0b a.b1 ^^^ gfMul 0x0d a.b2 ^^^ gfMul 0x09 a.b3
  b1 := gfMul 0x09 a.b0 ^^^ gfMul 0x0e a.b1 ^^^ gfMul 0x0b a.b2 ^^^ gfMul 0x0d a.b3
  b2 := gfMul 0x0d a.b0 ^^^ gfMul 0x09 a.b1 ^^^ gfMul 0x0e a.b2 ^^^ gfMul 0x0b a.b3
  b3 := gfMul 0x0b a.b0 ^^^ gfMul 0x0d a.b1 ^^^ gfMul 0x09 a.b2 ^^^ gfMul 0x0e a.b3

/-- `AddRoundKey(r)`: word `w[r·Nb + c]` into column c (42_rijndael.md R199, R204). -/
def addRoundKey (nb : Nat) (w : List Column) (r : Nat) (s : List Column) : List Column :=
  s.zipWith xorColumn ((w.drop (r * nb)).take nb)

/-! ### Block transforms -/

/-- One full encryption round (42_rijndael.md R205). -/
def encryptRound (nb : Nat) (w : List Column) (s : List Column) (rnd : Nat) : List Column :=
  addRoundKey nb w rnd ((shiftRows nb (subBytes s)).map mixColumn)

/-- `RJ_EncryptBlock(in)` (42_rijndael.md R205). -/
def rijndaelEncryptBlock (nb nr : Nat) (w : List Column) (x : Bytes) : Bytes :=
  let s := addRoundKey nb w 0 (loadColumns x)
  let s := (List.range' 1 (nr - 1)).foldl (encryptRound nb w) s
  storeColumns (addRoundKey nb w nr (shiftRows nb (subBytes s)))

/-- The decryption schedule `dw`: InvMixColumn on every interior round-key row (42_rijndael.md R210). -/
def rijndaelDecryptionSchedule (nb nr : Nat) (w : List Column) : List Column :=
  (List.range (nb * (nr + 1))).map fun i =>
    let word := w.getD i zeroColumn
    if i / nb = 0 ∨ i / nb = nr then word else invMixColumn word

/-- One full decryption round of the equivalent inverse cipher (42_rijndael.md R211). -/
def decryptRound (nb : Nat) (dw : List Column) (s : List Column) (rnd : Nat) : List Column :=
  addRoundKey nb dw rnd ((invShiftRows nb (invSubBytes s)).map invMixColumn)

/-- `RJ_DecryptBlock(in)` (42_rijndael.md R211). -/
def rijndaelDecryptBlock (nb nr : Nat) (dw : List Column) (x : Bytes) : Bytes :=
  let s := addRoundKey nb dw nr (loadColumns x)
  let s := (List.range' 1 (nr - 1)).reverse.foldl (decryptRound nb dw) s
  storeColumns (addRoundKey nb dw 0 (invShiftRows nb (invSubBytes s)))

end Sys2Proof.Machine
end

