-- ==== Sys2Proof/Machine/Des.lean ====
section
/-! DEFINITION. The DES core: key schedule, Feistel rounds and S-boxes (40_des.md R130 to R155). -/

namespace Sys2Proof.Machine

/-! ### Bit selection -/

/-- `permute(v, n, T)`: output bit k is bit `T[k]` of the n-bit `v`, bits numbered from 1 at the most significant
(00_scope.md R12). `m` is the length of `T`. -/
def permute {n : Nat} (m : Nat) (table : List Nat) (v : BitVec n) : BitVec m :=
  BitVec.ofNat m (table.foldl (fun acc k => 2 * acc + (v.getMsbD (k - 1)).toNat) 0)

/-- Permuted choice 1 (40_des.md R132). -/
def pc1 : List Nat :=
  [57, 49, 41, 33, 25, 17, 9] ++
  [1, 58, 50, 42, 34, 26, 18] ++
  [10, 2, 59, 51, 43, 35, 27] ++
  [19, 11, 3, 60, 52, 44, 36] ++
  [63, 55, 47, 39, 31, 23, 15] ++
  [7, 62, 54, 46, 38, 30, 22] ++
  [14, 6, 61, 53, 45, 37, 29] ++
  [21, 13, 5, 28, 20, 12, 4]

/-- Permuted choice 2 (40_des.md R135). -/
def pc2 : List Nat :=
  [14, 17, 11, 24, 1, 5] ++
  [3, 28, 15, 6, 21, 10] ++
  [23, 19, 12, 4, 26, 8] ++
  [16, 7, 27, 20, 13, 2] ++
  [41, 52, 31, 37, 47, 55] ++
  [30, 40, 51, 45, 33, 48] ++
  [44, 49, 39, 56, 34, 53] ++
  [46, 42, 50, 36, 29, 32]

/-- Initial permutation (40_des.md R138). -/
def ipTable : List Nat :=
  [58, 50, 42, 34, 26, 18, 10, 2] ++
  [60, 52, 44, 36, 28, 20, 12, 4] ++
  [62, 54, 46, 38, 30, 22, 14, 6] ++
  [64, 56, 48, 40, 32, 24, 16, 8] ++
  [57, 49, 41, 33, 25, 17, 9, 1] ++
  [59, 51, 43, 35, 27, 19, 11, 3] ++
  [61, 53, 45, 37, 29, 21, 13, 5] ++
  [63, 55, 47, 39, 31, 23, 15, 7]

/-- Final permutation (40_des.md R139). -/
def fpTable : List Nat :=
  [40, 8, 48, 16, 56, 24, 64, 32] ++
  [39, 7, 47, 15, 55, 23, 63, 31] ++
  [38, 6, 46, 14, 54, 22, 62, 30] ++
  [37, 5, 45, 13, 53, 21, 61, 29] ++
  [36, 4, 44, 12, 52, 20, 60, 28] ++
  [35, 3, 43, 11, 51, 19, 59, 27] ++
  [34, 2, 42, 10, 50, 18, 58, 26] ++
  [33, 1, 41, 9, 49, 17, 57, 25]

/-- Expansion `E` (40_des.md R140). -/
def expansionTable : List Nat :=
  [32, 1, 2, 3, 4, 5] ++
  [4, 5, 6, 7, 8, 9] ++
  [8, 9, 10, 11, 12, 13] ++
  [12, 13, 14, 15, 16, 17] ++
  [16, 17, 18, 19, 20, 21] ++
  [20, 21, 22, 23, 24, 25] ++
  [24, 25, 26, 27, 28, 29] ++
  [28, 29, 30, 31, 32, 1]

/-- Permutation `P` of the S-box output (40_des.md R150). -/
def pTable : List Nat :=
  [16, 7, 20, 21] ++
  [29, 12, 28, 17] ++
  [1, 15, 23, 26] ++
  [5, 18, 31, 10] ++
  [2, 8, 24, 14] ++
  [32, 27, 3, 9] ++
  [19, 13, 30, 6] ++
  [22, 11, 4, 25]

/-! ### S-boxes -/

/-- S-box S1, `S1[row][col]` (40_des.md R142). -/
def s1Box : List (List Nat) :=
  [[14, 4, 13, 1, 2, 15, 11, 8, 3, 10, 6, 12, 5, 9, 0, 7],
   [0, 15, 7, 4, 14, 2, 13, 1, 10, 6, 12, 11, 9, 5, 3, 8],
   [4, 1, 14, 8, 13, 6, 2, 11, 15, 12, 9, 7, 3, 10, 5, 0],
   [15, 12, 8, 2, 4, 9, 1, 7, 5, 11, 3, 14, 10, 0, 6, 13]]

/-- S-box S2, `S2[row][col]` (40_des.md R143). -/
def s2Box : List (List Nat) :=
  [[15, 1, 8, 14, 6, 11, 3, 4, 9, 7, 2, 13, 12, 0, 5, 10],
   [3, 13, 4, 7, 15, 2, 8, 14, 12, 0, 1, 10, 6, 9, 11, 5],
   [0, 14, 7, 11, 10, 4, 13, 1, 5, 8, 12, 6, 9, 3, 2, 15],
   [13, 8, 10, 1, 3, 15, 4, 2, 11, 6, 7, 12, 0, 5, 14, 9]]

/-- S-box S3, `S3[row][col]` (40_des.md R144). -/
def s3Box : List (List Nat) :=
  [[10, 0, 9, 14, 6, 3, 15, 5, 1, 13, 12, 7, 11, 4, 2, 8],
   [13, 7, 0, 9, 3, 4, 6, 10, 2, 8, 5, 14, 12, 11, 15, 1],
   [13, 6, 4, 9, 8, 15, 3, 0, 11, 1, 2, 12, 5, 10, 14, 7],
   [1, 10, 13, 0, 6, 9, 8, 7, 4, 15, 14, 3, 11, 5, 2, 12]]

/-- S-box S4, `S4[row][col]` (40_des.md R145). -/
def s4Box : List (List Nat) :=
  [[7, 13, 14, 3, 0, 6, 9, 10, 1, 2, 8, 5, 11, 12, 4, 15],
   [13, 8, 11, 5, 6, 15, 0, 3, 4, 7, 2, 12, 1, 10, 14, 9],
   [10, 6, 9, 0, 12, 11, 7, 13, 15, 1, 3, 14, 5, 2, 8, 4],
   [3, 15, 0, 6, 10, 1, 13, 8, 9, 4, 5, 11, 12, 7, 2, 14]]

/-- S-box S5, `S5[row][col]` (40_des.md R146). -/
def s5Box : List (List Nat) :=
  [[2, 12, 4, 1, 7, 10, 11, 6, 8, 5, 3, 15, 13, 0, 14, 9],
   [14, 11, 2, 12, 4, 7, 13, 1, 5, 0, 15, 10, 3, 9, 8, 6],
   [4, 2, 1, 11, 10, 13, 7, 8, 15, 9, 12, 5, 6, 3, 0, 14],
   [11, 8, 12, 7, 1, 14, 2, 13, 6, 15, 0, 9, 10, 4, 5, 3]]

/-- S-box S6, `S6[row][col]` (40_des.md R147). -/
def s6Box : List (List Nat) :=
  [[12, 1, 10, 15, 9, 2, 6, 8, 0, 13, 3, 4, 14, 7, 5, 11],
   [10, 15, 4, 2, 7, 12, 9, 5, 6, 1, 13, 14, 0, 11, 3, 8],
   [9, 14, 15, 5, 2, 8, 12, 3, 7, 0, 4, 10, 1, 13, 11, 6],
   [4, 3, 2, 12, 9, 5, 15, 10, 11, 14, 1, 7, 6, 0, 8, 13]]

/-- S-box S7, `S7[row][col]` (40_des.md R148). -/
def s7Box : List (List Nat) :=
  [[4, 11, 2, 14, 15, 0, 8, 13, 3, 12, 9, 7, 5, 10, 6, 1],
   [13, 0, 11, 7, 4, 9, 1, 10, 14, 3, 5, 12, 2, 15, 8, 6],
   [1, 4, 11, 13, 12, 3, 7, 14, 10, 15, 6, 8, 0, 5, 9, 2],
   [6, 11, 13, 8, 1, 4, 10, 7, 9, 5, 0, 15, 14, 2, 3, 12]]

/-- S-box S8, `S8[row][col]` (40_des.md R149). -/
def s8Box : List (List Nat) :=
  [[13, 2, 8, 4, 6, 15, 11, 1, 10, 9, 3, 14, 5, 0, 12, 7],
   [1, 15, 13, 8, 10, 3, 7, 4, 12, 5, 6, 11, 0, 14, 9, 2],
   [7, 11, 4, 1, 9, 12, 14, 2, 0, 6, 10, 13, 15, 3, 5, 8],
   [2, 1, 14, 7, 4, 10, 8, 13, 15, 12, 9, 0, 3, 5, 6, 11]]

/-- The 4-bit output of an S-box for a 6-bit group `B`: row `2·b1 + b6`, column the four inner bits (40_des.md R141, R151). -/
def sboxOut (box : List (List Nat)) (B : BitVec 6) : BitVec 4 :=
  let row := 2 * (B.getLsbD 5).toNat + (B.getLsbD 0).toNat
  let col := (B.extractLsb' 1 4).toNat
  BitVec.ofNat 4 ((box.getD row []).getD col 0)

/-! ### Key schedule -/

/-- DES key normalisation to 8 bytes (40_des.md R130). -/
def desKey (keyReg : Bytes) : Bytes := fit 8 keyReg

/-- `SHIFTS[1..16]` (40_des.md R134). -/
def desShifts : List Nat := [1, 1, 2, 2, 2, 2, 2, 2, 1, 2, 2, 2, 2, 2, 2, 1]

/-- `rotl28(v, n)` (40_des.md R134). -/
def rotl28 (v : BitVec 28) (n : Nat) : BitVec 28 := (v <<< n) ||| (v >>> (28 - n))

/-- `CD0 = permute(BE(K), 64, PC1)` (40_des.md R133). -/
def desCd0 (key : Bytes) : BitVec 56 := permute 56 pc1 (BitVec.ofNat 64 (beNat key))

/-- The rounds of the key schedule from the halves `C` and `D` on, one subkey for each remaining shift (40_des.md R136). -/
def desScheduleRounds : BitVec 28 → BitVec 28 → List Nat → List DesSubkey
  | _, _, [] => []
  | C, D, n :: shifts =>
    permute 48 pc2 (rotl28 C n ++ rotl28 D n) :: desScheduleRounds (rotl28 C n) (rotl28 D n) shifts

/-- `DES_KeySchedule(K)`: `ks[1..16]` (40_des.md R136). -/
def desKeySchedule (key : Bytes) : List DesSubkey :=
  desScheduleRounds ((desCd0 key).extractLsb' 28 28) ((desCd0 key).extractLsb' 0 28) desShifts

/-- Group g of a 48-bit value, `X[47 − 6(g−1) : 42 − 6(g−1)]`, g = 1..8; of a subkey it is `ks[r].g[g]`
(40_des.md R136, R141). -/
def sixBitGroup (X : BitVec 48) (g : Nat) : BitVec 6 := X.extractLsb' (42 - 6 * (g - 1)) 6

/-- The decryption schedule `dks[r] = ks[17 − r]` (40_des.md R137). -/
def desDecryptionSchedule (ks : List DesSubkey) : List DesSubkey := ks.reverse

/-! ### Round function and block transforms -/

/-- The eight S-box outputs, S1 most significant (40_des.md R141). -/
def sboxLayer (X : BitVec 48) : BitVec 32 :=
  sboxOut s1Box (sixBitGroup X 1) ++ sboxOut s2Box (sixBitGroup X 2) ++ sboxOut s3Box (sixBitGroup X 3)
    ++ sboxOut s4Box (sixBitGroup X 4) ++ sboxOut s5Box (sixBitGroup X 5) ++ sboxOut s6Box (sixBitGroup X 6)
    ++ sboxOut s7Box (sixBitGroup X 7) ++ sboxOut s8Box (sixBitGroup X 8)

/-- `DES_f(R, k)` (40_des.md R151). -/
def desF (R : BitVec 32) (k : DesSubkey) : BitVec 32 :=
  permute 32 pTable (sboxLayer (permute 48 expansionTable R ^^^ k))

/-- One Feistel round on `(L, R)` (40_des.md R152). -/
def desRound (LR : BitVec 32 × BitVec 32) (k : DesSubkey) : BitVec 32 × BitVec 32 := (LR.2, LR.1 ^^^ desF LR.2 k)

/-- `DES_EncryptBlock` on the 64-bit value of the block: IP, the rounds, the swap of the halves and FP (40_des.md R153). -/
def desCrypt64 (ks : List DesSubkey) (x : BitVec 64) : BitVec 64 :=
  let v := permute 64 ipTable x
  let LR := ks.foldl desRound (v.extractLsb' 32 32, v.extractLsb' 0 32)
  permute 64 fpTable (LR.2 ++ LR.1)

/-- `DES_EncryptBlock(in, ks)` (40_des.md R153; bytes to bits by 20_memory.md R73). -/
def desEncryptBlock (ks : List DesSubkey) (x : Bytes) : Bytes :=
  beBytes 8 (desCrypt64 ks (BitVec.ofNat 64 (beNat x))).toNat

/-- `DES_DecryptBlock(in, ks)` (40_des.md R154). -/
def desDecryptBlock (ks : List DesSubkey) (x : Bytes) : Bytes := desEncryptBlock (desDecryptionSchedule ks) x

end Sys2Proof.Machine
end

