-- ==== Sys2Proof/Machine/TripleDes.lean ====
section
/-! DEFINITION. TripleDES: the key split, the EDE block transform and the 3CBC stages (41_tripledes.md R170 to R179). -/

namespace Sys2Proof.Machine

/-- The three DES keys of `TDES_Keys(keyReg)` (41_tripledes.md R170). -/
def tripleDesKeys (keyReg : Bytes) : Bytes × Bytes × Bytes :=
  if keyReg.length ≤ 8 then (desKey keyReg, desKey keyReg, desKey keyReg)
  else
    let k24 := fit 24 keyReg
    (slice 0 8 k24, slice 8 8 k24, slice 16 8 k24)

/-- The schedule of `TDES_Keys(keyReg)` (41_tripledes.md R170). -/
def tripleDesSchedule (keyReg : Bytes) : Schedule :=
  let (k1, k2, k3) := tripleDesKeys keyReg
  .tripleDes (desKeySchedule k1) (desKeySchedule k2) (desKeySchedule k3)

/-- `TDES_EncryptBlock(in)` (41_tripledes.md R171). -/
def tripleDesEncryptBlock (ks1 ks2 ks3 : List DesSubkey) (x : Bytes) : Bytes :=
  desEncryptBlock ks3 (desDecryptBlock ks2 (desEncryptBlock ks1 x))

/-- `TDES_DecryptBlock(in)` (41_tripledes.md R172). -/
def tripleDesDecryptBlock (ks1 ks2 ks3 : List DesSubkey) (x : Bytes) : Bytes :=
  desDecryptBlock ks1 (desEncryptBlock ks2 (desDecryptBlock ks3 x))

/-- One block of `TCBC_Encrypt` through the three stages (41_tripledes.md R175). -/
def tcbcEncryptStep (ks1 ks2 ks3 : List DesSubkey) (r : DirRecord) (x : Bytes) : Bytes × DirRecord :=
  let y1 := desEncryptBlock ks1 (xorBytes x r.c1)
  let y2 := xorBytes (desDecryptBlock ks2 y1) r.c2
  let y3 := desEncryptBlock ks3 (xorBytes y2 r.c3)
  (y3, { r with c1 := y1, c2 := y1, c3 := y3 })

/-- One block of `TCBC_Decrypt`, the stages undone in reverse (41_tripledes.md R176). -/
def tcbcDecryptStep (ks1 ks2 ks3 : List DesSubkey) (r : DirRecord) (y3 : Bytes) : Bytes × DirRecord :=
  let y2 := xorBytes (desDecryptBlock ks3 y3) r.c3
  let y1 := desEncryptBlock ks2 (xorBytes y2 r.c2)
  let x := xorBytes (desDecryptBlock ks1 y1) r.c1
  (x, { r with c1 := y1, c2 := y1, c3 := y3 })

end Sys2Proof.Machine
end

