-- ==== Sys2Proof/Machine/Ops.lean ====
section
/-! DEFINITION. The operations the commands share: answering the host, raising a fault, power-up, schedule derivation and the
frame of ENCRYPT and DECRYPT. -/

namespace Sys2Proof.Machine

/-- How a command ends. -/
abbrev Result := Host.Outcome State Fault Refusal

/-! ### Status and faults -/

/-- `return Status(…)`: the one Status the host receives (60_exceptions.md R360). -/
def State.answer (st : Status) (s : State) : State := { s with response := some st }

/-- A command that completes: `ctx.pc` advances and the Status goes out (45_control.md R320, 10_state.md R45). -/
def State.complete (st : Status) (s : State) : State := { s with pc := s.pc + 1, response := some st }

/-- `raise Fault(r)`, the engine's taking of an exception: `ctx.fault <- r`, the Status is FAULT, `pc` stays
(60_exceptions.md R362). `s` is the state before the command: its other fields, undefined after a fault, are left there
(log entry 4). -/
def State.raise (r : FaultReason) (s : State) : State := { s with fault := some r, response := some (.fault r) }

/-- Power-up, the only event that clears a fault: every field of `ctx` takes its power-up value, and the host's own plans stay
(70_reset_and_hazards.md R390; log entry 13). There is no other return from a fault (60_exceptions.md R370). -/
def State.powerUp (s : State) : State := { State.reset with inbox := s.inbox }

/-- The dispatch of R320 around a command other than CONFIGURE: a sticky fault answers FAULT and changes nothing else, and a
context that is not configured faults (45_control.md R320). -/
def whenConfigured (body : State → Result) (s : State) : Result :=
  match s.fault with
  | some r => .next (s.answer (.fault r))
  | none => if s.configured then body s else .next (s.raise .notConfigured)

/-- The dispatch of R320 around CONFIGURE, which needs no configured context (45_control.md R320). -/
def whenNotFaulted (body : State → Result) (s : State) : Result :=
  match s.fault with
  | some r => .next (s.answer (.fault r))
  | none => body s

/-- A command that is not decoded (30_encoding.md R110). -/
def illegalCommand (s : State) : Result := whenNotFaulted (fun s => .next (s.raise .illegalCommand)) s

/-! ### Schedule derivation (45_control.md R334) -/

/-- The Rijndael schedule for a block size and a raw key (45_control.md R334, 42_rijndael.md R191, R200, R210). -/
def rijndaelSchedule (bs : Nat) (keyLenParam : BitVec 8) (keyReg : Bytes) : Schedule :=
  let key := rijndaelKey keyLenParam keyReg
  let nb := bs / 4
  let nk := key.length / 4
  let nr := rijndaelRounds nb nk
  let w := rijndaelExpandKey nb key
  .rijndael nb nk nr w (rijndaelDecryptionSchedule nb nr w)

/-- The schedule that belongs to an algorithm, a block size and the key registers (45_control.md R334). -/
def deriveSchedule (alg : Algorithm) (bs : Nat) (keyLenParam : BitVec 8) (keyReg : Bytes) : Except FaultReason Schedule :=
  match alg with
  | .des => .ok (.des (desKeySchedule (desKey keyReg)))
  | .tripleDes => .ok (tripleDesSchedule keyReg)
  | .rijndael => .ok (rijndaelSchedule bs keyLenParam keyReg)
  | .aes => .ok (rijndaelSchedule bs keyLenParam keyReg)
  | .rc4 => if keyReg.length = 0 then .error .emptyRc4Key else .ok (.rc4 (rc4Ksa keyReg))

/-- `EnsureSchedule()` (45_control.md R334). -/
def ensureSchedule (s : State) : Except FaultReason State :=
  match s.keyReg with
  | none => .error .keyNotSet
  | some key =>
    if s.dirty then
      match deriveSchedule s.alg s.bs s.keyLenParam key with
      | .ok sched => .ok { s with sched := some sched, dirty := false }
      | .error r => .error r
    else .ok s

/-! ### Shapes (the assertion of 60_exceptions.md R366; log entry 6) -/

/-- A schedule has the shape 10_state.md R41 gives it. -/
def Schedule.fits (alg : Algorithm) (bs : Nat) : Schedule → Bool
  | .des ks => alg == .des && ks.length == 16
  | .tripleDes ks1 ks2 ks3 => alg == .tripleDes && ks1.length == 16 && ks2.length == 16 && ks3.length == 16
  | .rijndael nb nk nr w dw =>
    (alg == .rijndael || alg == .aes) && 4 * nb == bs && nr == rijndaelRounds nb nk
      && w.length == nb * (nr + 1) && dw.length == nb * (nr + 1)
  | .rc4 s0 => alg == .rc4 && s0.length == 256

/-- A direction record has the widths 10_state.md R42 gives its fields. -/
def DirRecord.fits (alg : Algorithm) (mode : Mode) (bs : Nat) (r : DirRecord) : Bool :=
  match alg with
  | .rc4 => r.s.length == 256
  | .des | .tripleDes | .rijndael | .aes =>
    r.reg.length == bs && r.ks.length == bs && decide (r.pos < bs)
      && (mode != .tcbc || (r.c1.length == 8 && r.c2.length == 8 && r.c3.length == 8))

/-! ### Direction records (44_modes.md R262, R263, R280) -/

/-- The record `DirInit` leaves: the RC4 permutation and its indices, or the chaining registers from the normalised IV
(44_modes.md R262). The stage registers are written in 3CBC only (log entry 9). -/
def initialRecord (s : State) (r : DirRecord) : DirRecord :=
  match s.alg with
  | .rc4 =>
    let s0 := match s.sched with
      | some (.rc4 s0) => s0
      | _ => []
    { r with valid := true, s := s0, i := 0, j := 0 }
  | .des | .tripleDes | .rijndael | .aes =>
    let v := normalisedIv s.bs s.ivReg
    let r := { r with valid := true, reg := v, ks := zeros s.bs, pos := 0 }
    if s.mode = .tcbc then { r with c1 := v, c2 := v, c3 := v } else r

/-- `DirInit(d)` (44_modes.md R262, R264). -/
def dirInit (d : Direction) (s : State) : Except FaultReason State :=
  if s.alg ≠ .rc4 ∧ usesIv s.mode ∧ s.ivReg = none then .error .ivNotSet
  else .ok (s.setDir d (initialRecord s (s.dir d)))

/-- The call prologue (44_modes.md R263). -/
def callPrologue (d : Direction) (s : State) : Except FaultReason State :=
  if s.cbEnabled = false ∨ (s.dir d).valid = false then dirInit d s else .ok s

/-- The call epilogue: the record stays valid only under continuous buffering (44_modes.md R280). -/
def callEpilogue (d : Direction) (s : State) : State :=
  if s.cbEnabled then s else s.setDir d { s.dir d with valid := false }

/-! ### Block transforms and mode functions -/

/-- The block transforms `E` and `D` (44_modes.md R260). -/
structure BlockCipher where
  E : Bytes → Bytes
  D : Bytes → Bytes

/-- `E` and `D` of a schedule (44_modes.md R260). RC4 has no block transform (43_rc4.md R240). -/
def blockCipher : Schedule → Option BlockCipher
  | .des ks => some ⟨desEncryptBlock ks, desDecryptBlock ks⟩
  | .tripleDes ks1 ks2 ks3 => some ⟨tripleDesEncryptBlock ks1 ks2 ks3, tripleDesDecryptBlock ks1 ks2 ks3⟩
  | .rijndael nb _ nr w dw => some ⟨rijndaelEncryptBlock nb nr w, rijndaelDecryptBlock nb nr dw⟩
  | .rc4 _ => none

/-- What a mode function leaves: the output (`none` is PaddingError) and the direction record. -/
abbrev ModeResult := Except FaultReason (Option Bytes × DirRecord)

/-- Encryption in a block-aligned mode: pad, or refuse an unaligned length before any block is processed; then the blocks in
order (44_modes.md R268, R269, R270). -/
def encryptAligned (padEnabled : Bool) (bs : Nat) (f : DirRecord → Bytes → Bytes × DirRecord) (r : DirRecord) (M : Bytes) :
    ModeResult :=
  if padEnabled then
    let (out, r') := runBlocks bs f r (pad bs M)
    .ok (some out, r')
  else if M.length % bs = 0 then
    let (out, r') := runBlocks bs f r M
    .ok (some out, r')
  else .error .unalignedInput

/-- Decryption in a block-aligned mode: refuse an unaligned length; then the blocks in order, and padding removal
(44_modes.md R268, R269, R271). -/
def decryptAligned (padEnabled : Bool) (bs : Nat) (f : DirRecord → Bytes → Bytes × DirRecord) (r : DirRecord) (C : Bytes) :
    ModeResult :=
  if C.length % bs = 0 then
    let (out, r') := runBlocks bs f r C
    .ok (if padEnabled then unpad bs out else some out, r')
  else .error .unalignedInput

/-- A byte-stream mode: input byte t yields output byte t, and nothing is padded (20_memory.md R72, 44_modes.md R268). -/
def cryptStream (f : DirRecord → Byte → Byte × DirRecord) (r : DirRecord) (text : Bytes) : ModeResult :=
  let (out, r') := runThrough f r text
  .ok (some out, r')

/-- The three stage schedules of 3CBC; only TripleDES has them (41_tripledes.md R175, R179). -/
def stageSchedules : Schedule → Option (List DesSubkey × List DesSubkey × List DesSubkey)
  | .tripleDes ks1 ks2 ks3 => some (ks1, ks2, ks3)
  | .des _ => none
  | .rijndael _ _ _ _ _ => none
  | .rc4 _ => none

/-- The case of ENCRYPT on `(ctx.alg, ctx.mode)` (45_control.md R332); the schedule is the one of `ctx.alg`. -/
def encryptText (s : State) (sched : Schedule) (r : DirRecord) (text : Bytes) : ModeResult :=
  match blockCipher sched with
  | none => cryptStream rc4Step r text
  | some c =>
    match s.mode with
    | .ecb => encryptAligned s.padEnabled s.bs (ecbStep c.E) r text
    | .cbc => encryptAligned s.padEnabled s.bs (cbcEncryptStep c.E) r text
    | .cfb => cryptStream (cfbEncryptStep c.E s.bs) r text
    | .ofb => cryptStream (ofbStep c.E s.bs) r text
    | .ctr => cryptStream (ctrStep c.E s.bs) r text
    | .tcbc =>
      match stageSchedules sched with
      | some (ks1, ks2, ks3) => encryptAligned s.padEnabled s.bs (tcbcEncryptStep ks1 ks2 ks3) r text
      | none => .error .internalInvariant

/-- The case of DECRYPT on `(ctx.alg, ctx.mode)` (45_control.md R333); the schedule is the one of `ctx.alg`. -/
def decryptText (s : State) (sched : Schedule) (r : DirRecord) (text : Bytes) : ModeResult :=
  match blockCipher sched with
  | none => cryptStream rc4Step r text
  | some c =>
    match s.mode with
    | .ecb => decryptAligned s.padEnabled s.bs (ecbStep c.D) r text
    | .cbc => decryptAligned s.padEnabled s.bs (cbcDecryptStep c.D) r text
    | .cfb => cryptStream (cfbDecryptStep c.E s.bs) r text
    | .ofb => cryptStream (ofbStep c.E s.bs) r text
    | .ctr => cryptStream (ctrStep c.E s.bs) r text
    | .tcbc =>
      match stageSchedules sched with
      | some (ks1, ks2, ks3) => decryptAligned s.padEnabled s.bs (tcbcDecryptStep ks1 ks2 ks3) r text
      | none => .error .internalInvariant

/-- The schedule and direction record a mode function runs with, after EnsureSchedule and the prologue; a shape that no run
reaches raises InternalInvariant (45_control.md R332; 60_exceptions.md R366). -/
def readyRecord (d : Direction) (s : State) : Except FaultReason (Schedule × DirRecord) :=
  match s.sched with
  | some sched =>
    if sched.fits s.alg s.bs && (s.dir d).fits s.alg s.mode s.bs then .ok (sched, s.dir d) else .error .internalInvariant
  | none => .error .internalInvariant

/-- `Status(OK, out)`, or `Status(PADDING_ERROR, "")` when the mode function found bad padding (45_control.md R333). -/
def cryptStatus : Option Bytes → Status
  | some out => .ok out
  | none => .paddingError

/-- The common course of ENCRYPT and DECRYPT up to their Status: schedule, prologue, mode function, epilogue
(45_control.md R332, R333). The order of the faults is 60_exceptions.md R367. -/
def cryptCourse (d : Direction) (text : State → Schedule → DirRecord → ModeResult) (s : State) :
    Except FaultReason (Status × State) :=
  match ensureSchedule s with
  | .error e => .error e
  | .ok s1 =>
    match callPrologue d s1 with
    | .error e => .error e
    | .ok s2 =>
      match readyRecord d s2 with
      | .error e => .error e
      | .ok (sched, r) =>
        match text s2 sched r with
        | .error e => .error e
        | .ok (out, r') => .ok (cryptStatus out, callEpilogue d (s2.setDir d r'))

/-- ENCRYPT or DECRYPT as a whole: it completes with its Status, or its fault leaves the state before it
(45_control.md R332, R333; 60_exceptions.md R362). -/
def crypt (d : Direction) (text : State → Schedule → DirRecord → ModeResult) (s : State) : Result :=
  match cryptCourse d text s with
  | .ok (st, s') => .next (s'.complete st)
  | .error e => .next (s.raise e)

end Sys2Proof.Machine
end

