-- ==== Sys2Proof/Machine/Configuration.lean ====
section
/-! DEFINITION. CONFIGURE and the length commands (45_control.md R321, R326, R327). -/

namespace Sys2Proof.Machine

/-- The context a successful CONFIGURE creates: every field but `fault` and `pc` (45_control.md R321, 10_state.md R48).
`blockLen` is 16 for every algorithm but Rijndael, as R321 and 30_encoding.md R106 have it and not as R48's row does (log entry
15, DEDUCED). The fields of the direction records that R48 leaves unspecified keep their values (log entry 16, DESIGN CHOICE). -/
def State.createContext (alg : Algorithm) (mode : Mode) (klen blen : BitVec 8) (s : State) : State :=
  { s.discard with
    configured := true
    alg := alg
    mode := mode
    keyReg := none
    keyLenParam := klen
    blockLen := if alg = .rijndael then rijndaelBlockLen blen else 16
    ivReg := none
    dirty := true
    cbEnabled := false
    padEnabled := true
    sched := none }

/-- CONFIGURE (45_control.md R321). A refused one leaves the context unconfigured (60_exceptions.md R364). -/
def execConfigure (alg mode : BitVec 4) (klen blen : BitVec 8) (s : State) : Result :=
  whenNotFaulted (fun s =>
    match configuration alg mode with
    | some (a, m) => .next ((s.createContext a m klen blen).complete (.ok []))
    | none => .next ({ s with configured := false }.complete .configError)) s

/-- SET_KEY_LENGTH (45_control.md R326). -/
def execSetKeyLength (klen : BitVec 8) (s : State) : Result :=
  whenConfigured (fun s => .next (({ s with keyLenParam := klen }.markDirty.discard).complete (.ok []))) s

/-- SET_BLOCK_LENGTH: for Rijndael only; every other algorithm completes it without effect (45_control.md R327). -/
def execSetBlockLength (blen : BitVec 8) (s : State) : Result :=
  whenConfigured (fun s =>
    if s.alg = .rijndael then
      .next (({ s with blockLen := rijndaelBlockLen blen }.markDirty.discard).complete (.ok []))
    else .next (s.complete (.ok []))) s

end Sys2Proof.Machine
end

