-- ==== Sys2Proof/Machine/Crypt.lean ====
section
/-! DEFINITION. ENCRYPT and DECRYPT (45_control.md R332, R333). -/

namespace Sys2Proof.Machine

/-- ENCRYPT (45_control.md R332). -/
def execEncrypt (text : Bytes) (s : State) : Result :=
  whenConfigured (crypt .enc (fun s sched r => encryptText s sched r text)) s

/-- DECRYPT (45_control.md R333). -/
def execDecrypt (text : Bytes) (s : State) : Result :=
  whenConfigured (crypt .dec (fun s sched r => decryptText s sched r text)) s

end Sys2Proof.Machine
end

