-- ==== Sys2Proof/Machine/Keying.lean ====
section
/-! DEFINITION. The commands that load the key and the IV (45_control.md R322 to R325). -/

namespace Sys2Proof.Machine

/-- `ctx.keyReg <- key; ctx.dirty <- true; Discard()` (45_control.md R322). -/
def State.loadKey (key : Bytes) (s : State) : State := { s with keyReg := some key }.markDirty.discard

/-- SET_KEY (45_control.md R322). -/
def execSetKey (key : Bytes) (s : State) : Result :=
  whenConfigured (fun s => .next ((s.loadKey key).complete (.ok []))) s

/-- SET_IV: the raw bytes are kept and `dirty` is not set (45_control.md R323). -/
def execSetIv (iv : Bytes) (s : State) : Result :=
  whenConfigured (fun s => .next (({ s with ivReg := some iv }.discard).complete (.ok []))) s

/-- SET_PASSWORD: the key is derived by PBKDF2; no iteration at all is a fault (45_control.md R324). -/
def execSetPassword (password : Bytes) (salt iterations outputLength : Option Bytes) (s : State) : Result :=
  whenConfigured (fun s =>
    if kdfIterations iterations = 0 then .next (s.raise .badKdfParam)
    else
      let key := pbkdf2 engineHmac password (kdfSalt salt) (kdfIterations iterations) (kdfOutputLength outputLength)
      .next ((s.loadKey key).complete (.ok []))) s

end Sys2Proof.Machine
end

