-- ==== Sys2Proof/Machine/Streaming.lean ====
section
/-! DEFINITION. Streaming and padding control (45_control.md R328 to R331). -/

namespace Sys2Proof.Machine

/-- ENABLE_CB: the streams are kept (45_control.md R328). -/
def execEnableCb (s : State) : Result := whenConfigured (fun s => .next ((s.setCb true).complete (.ok []))) s

/-- DISABLE_CB: both streams are discarded (45_control.md R329). -/
def execDisableCb (s : State) : Result := whenConfigured (fun s => .next (((s.setCb false).discard).complete (.ok []))) s

/-- ENABLE_PAD: chaining state is not touched (45_control.md R330). -/
def execEnablePad (s : State) : Result := whenConfigured (fun s => .next ((s.setPad true).complete (.ok []))) s

/-- DISABLE_PAD: chaining state is not touched (45_control.md R331). -/
def execDisablePad (s : State) : Result := whenConfigured (fun s => .next ((s.setPad false).complete (.ok []))) s

end Sys2Proof.Machine
end

