-- ==== Sys2Proof/Machine/Dispatch.lean ====
section
/-! DEFINITION. One arm for each command of Instr. -/

namespace Sys2Proof.Machine

def exec (i : Instr) (s : State) : Host.Outcome State Fault Refusal :=
  match i with
  | .configure alg mode klen blen => Sys2Proof.Machine.execConfigure alg mode klen blen s
  | .setKey key => Sys2Proof.Machine.execSetKey key s
  | .setIv iv => Sys2Proof.Machine.execSetIv iv s
  | .setPassword password salt iterations outputLength => Sys2Proof.Machine.execSetPassword password salt iterations outputLength s
  | .setKeyLength klen => Sys2Proof.Machine.execSetKeyLength klen s
  | .setBlockLength blen => Sys2Proof.Machine.execSetBlockLength blen s
  | .enableCb => Sys2Proof.Machine.execEnableCb s
  | .disableCb => Sys2Proof.Machine.execDisableCb s
  | .enablePad => Sys2Proof.Machine.execEnablePad s
  | .disablePad => Sys2Proof.Machine.execDisablePad s
  | .encrypt text => Sys2Proof.Machine.execEncrypt text s
  | .decrypt text => Sys2Proof.Machine.execDecrypt text s

end Sys2Proof.Machine
end

