-- ==== Sys2Proof/Machine/Sequencer.lean ====
section
/-! DEFINITION. How the engine takes a command from the host (45_control.md R320; log entry 1). -/

namespace Sys2Proof.Machine

/-- `Step(ctx, w, ops)`: a sticky fault comes before decoding, an illegal encoding before the command's own checks
(45_control.md R320, 60_exceptions.md R367). -/
def runCommand (c : Command) (s : State) : Result :=
  match s.fault with
  | some r => .next (s.answer (.fault r))
  | none =>
    match decode c with
    | .ok i => exec i s
    | .error _ => illegalCommand s

/-- What the host does next, taken off the inbox. Without an event the engine is idle and holds all its state
(60_exceptions.md R378). -/
def takeEvent (s : State) : Result :=
  match s.inbox with
  | [] => .next s
  | .command c :: rest => runCommand c { s with inbox := rest }
  | .overlapping _ :: _ => .refused .overlappingCommand
  | .powerUp :: rest => .next { s with inbox := rest }.powerUp

/-- The host issues `c` next, before anything else it had planned. -/
def State.issueNext (c : Command) (s : State) : State := { s with inbox := .command c :: s.inbox }

end Sys2Proof.Machine
end

