-- ==== Sys2Proof/Machine/Step.lean ====
section
/-! DEFINITION. One step of the machine: the host's next event. -/

namespace Sys2Proof.Machine

/-- One step. -/
def step (s : State) : Host.Outcome State Fault Refusal := takeEvent s

/-- The command whose word is the low `nbits` bits of `w` (operands of zeros, log entry 11) stands first in the inbox, where
the next step takes it. -/
def State.withFetchWord (s : State) (nbits w : Nat) : State := s.issueNext (tableCommand nbits w)

end Sys2Proof.Machine
end

