-- ==== Sys2Proof/Machine/Assembler.lean ====
section
/-! DEFINITION. The assembler of the command set: its lines, the two pseudo-instructions and the text it reads
(30_encoding.md R112, R113; log entry 12). -/

namespace Sys2Proof.Machine

/-- One line of assembler (30_encoding.md R112, R113). An operand that may be omitted is an Option. -/
inductive AsmLine where
  | configure (alg : Algorithm) (mode : Mode) (klen blen : Option (BitVec 8))
  | setKey (key : Bytes)
  | setIv (iv : Bytes)
  | setPassword (password : Bytes) (salt : Option Bytes) (iter dklen : Option (BitVec 32))
  | setKeyLength (n : BitVec 8)
  | setBlockLength (n : BitVec 8)
  | enableCb
  | disableCb
  | enablePad
  | disablePad
  | encrypt (text : Bytes)
  | decrypt (text : Bytes)
  /-- `RESYNC`: DISABLE_CB, then ENABLE_CB. -/
  | resync
  /-- `SET_KEY_IV <k>, <v>`: SET_KEY, then SET_IV. -/
  | setKeyIv (key iv : Bytes)
  deriving DecidableEq, Repr

/-- The commands a line stands for. An omitted `klen=` or `blen=` assembles as 0 (30_encoding.md R112). -/
def AsmLine.instrs : AsmLine → List Instr
  | .configure alg mode klen blen =>
    [.configure (algorithmCode alg) (modeCode mode) (klen.getD 0) (blen.getD 0)]
  | .setKey key => [.setKey key]
  | .setIv iv => [.setIv iv]
  | .setPassword password salt iter dklen =>
    [.setPassword password salt (iter.map fun n => beBytes 4 n.toNat) (dklen.map fun n => beBytes 4 n.toNat)]
  | .setKeyLength n => [.setKeyLength n]
  | .setBlockLength n => [.setBlockLength n]
  | .enableCb => [.enableCb]
  | .disableCb => [.disableCb]
  | .enablePad => [.enablePad]
  | .disablePad => [.disablePad]
  | .encrypt text => [.encrypt text]
  | .decrypt text => [.decrypt text]
  | .resync => [.disableCb, .enableCb]
  | .setKeyIv key iv => [.setKey key, .setIv iv]

/-- The command words and operands of a program, in order (30_encoding.md R112). -/
def assemble (program : List AsmLine) : List Command := program.flatMap fun line => line.instrs.map encode

/-- The host plans to issue a program after what it has planned (log entry 1). -/
def State.issueProgram (program : List AsmLine) (s : State) : State :=
  { s with inbox := s.inbox ++ (assemble program).map .command }

/-! ### Text -/

/-- The value of a hexadecimal digit. -/
def hexDigit (c : Char) : Option Nat :=
  if '0' ≤ c ∧ c ≤ '9' then some (c.toNat - '0'.toNat)
  else if 'a' ≤ c ∧ c ≤ 'f' then some (c.toNat - 'a'.toNat + 10)
  else if 'A' ≤ c ∧ c ≤ 'F' then some (c.toNat - 'A'.toNat + 10)
  else none

/-- An even number of hexadecimal digits. -/
def hexPairs : List Char → Option Bytes
  | [] => some []
  | [_] => none
  | hi :: lo :: rest =>
    match hexDigit hi, hexDigit lo, hexPairs rest with
    | some h, some l, some b => some (BitVec.ofNat 8 (16 * h + l) :: b)
    | _, _, _ => none

/-- A byte string: hexadecimal without prefix, or `""` for the empty one (30_encoding.md R112). -/
def parseHex : List Char → Option Bytes
  | [] => none
  | ['"', '"'] => some []
  | cs => hexPairs cs

/-- The value of decimal digits after `acc`. -/
def decimalDigits : List Char → Nat → Option Nat
  | [], acc => some acc
  | c :: rest, acc => if '0' ≤ c ∧ c ≤ '9' then decimalDigits rest (10 * acc + (c.toNat - '0'.toNat)) else none

/-- A decimal number of `width` bits (30_encoding.md R112). -/
def parseNumber (width : Nat) (cs : List Char) : Option (BitVec width) :=
  match cs with
  | [] => none
  | _ =>
    match decimalDigits cs 0 with
    | some n => if n < 2 ^ width then some (BitVec.ofNat width n) else none
    | none => none

/-- Blanks taken off both ends. -/
def trimBlanks (cs : List Char) : List Char := ((cs.dropWhile (· == ' ')).reverse.dropWhile (· == ' ')).reverse

/-- The operands between commas. -/
def splitCommas : List Char → List (List Char)
  | [] => [[]]
  | ',' :: rest => [] :: splitCommas rest
  | c :: rest =>
    match splitCommas rest with
    | first :: more => (c :: first) :: more
    | [] => [[c]]

/-- The operands of a line, trimmed; a line without any has none. -/
def operandTexts (cs : List Char) : List (List Char) :=
  if trimBlanks cs = [] then [] else (splitCommas cs).map trimBlanks

/-- A keyed operand such as `klen=<n>` at the head of the operands, where it stands. -/
def takeKeyed (key : String) : List (List Char) → Option (List Char) × List (List Char)
  | [] => (none, [])
  | t :: rest =>
    if t.take key.toList.length = key.toList then (some (t.drop key.toList.length), rest) else (none, t :: rest)

/-- An optional operand read: absent, or present and well formed; `none` is an error. -/
def readOptional {α : Type} (parse : List Char → Option α) : Option (List Char) → Option (Option α)
  | none => some none
  | some t => (parse t).map some

/-- The algorithm names (30_encoding.md R112). -/
def parseAlgorithm (cs : List Char) : Option Algorithm :=
  if cs = "DES".toList then some .des
  else if cs = "TDES".toList then some .tripleDes
  else if cs = "RC4".toList then some .rc4
  else if cs = "RIJNDAEL".toList then some .rijndael
  else if cs = "AES".toList then some .aes
  else none

/-- The mode names (30_encoding.md R112). -/
def parseMode (cs : List Char) : Option Mode :=
  if cs = "ECB".toList then some .ecb
  else if cs = "CBC".toList then some .cbc
  else if cs = "CFB".toList then some .cfb
  else if cs = "OFB".toList then some .ofb
  else if cs = "CTR".toList then some .ctr
  else if cs = "3CBC".toList then some .tcbc
  else none

/-- `CONFIGURE <alg>, <mode> [, klen=<n>] [, blen=<n>]`. -/
def parseConfigure : List (List Char) → Option AsmLine
  | alg :: mode :: rest =>
    let (klen, rest) := takeKeyed "klen=" rest
    let (blen, rest) := takeKeyed "blen=" rest
    match parseAlgorithm alg, parseMode mode, readOptional (parseNumber 8) klen, readOptional (parseNumber 8) blen, rest with
    | some a, some m, some k, some b, [] => some (.configure a m k b)
    | _, _, _, _, _ => none
  | _ => none

/-- `SET_PASSWORD <hex> [, salt=<hex>] [, iter=<n>] [, dklen=<n>]`. -/
def parsePassword : List (List Char) → Option AsmLine
  | password :: rest =>
    let (salt, rest) := takeKeyed "salt=" rest
    let (iter, rest) := takeKeyed "iter=" rest
    let (dklen, rest) := takeKeyed "dklen=" rest
    match parseHex password, readOptional parseHex salt, readOptional (parseNumber 32) iter,
      readOptional (parseNumber 32) dklen, rest with
    | some p, some s, some c, some n, [] => some (.setPassword p s c n)
    | _, _, _, _, _ => none
  | _ => none

/-- A line with one operand. -/
def parseOne {α : Type} (parse : List Char → Option α) (f : α → AsmLine) : List (List Char) → Option AsmLine
  | [t] => (parse t).map f
  | _ => none

/-- A line without operands. -/
def parseNone (line : AsmLine) : List (List Char) → Option AsmLine
  | [] => some line
  | _ => none

/-- `SET_KEY_IV <k>, <v>`. -/
def parseKeyIv : List (List Char) → Option AsmLine
  | [k, v] =>
    match parseHex k, parseHex v with
    | some key, some iv => some (.setKeyIv key iv)
    | _, _ => none
  | _ => none

/-- The mnemonics and how each reads its operands (30_encoding.md R112, R113). -/
def mnemonicTable : List (String × (List (List Char) → Option AsmLine)) :=
  [("CONFIGURE", parseConfigure),
   ("SET_KEY", parseOne parseHex .setKey),
   ("SET_IV", parseOne parseHex .setIv),
   ("SET_PASSWORD", parsePassword),
   ("SET_KEY_LENGTH", parseOne (parseNumber 8) .setKeyLength),
   ("SET_BLOCK_LENGTH", parseOne (parseNumber 8) .setBlockLength),
   ("ENABLE_CB", parseNone .enableCb),
   ("DISABLE_CB", parseNone .disableCb),
   ("ENABLE_PAD", parseNone .enablePad),
   ("DISABLE_PAD", parseNone .disablePad),
   ("ENCRYPT", parseOne parseHex .encrypt),
   ("DECRYPT", parseOne parseHex .decrypt),
   ("RESYNC", parseNone .resync),
   ("SET_KEY_IV", parseKeyIv)]

/-- One line of text: a mnemonic, a blank, and the operands (30_encoding.md R112). -/
def parseLine (text : List Char) : Option AsmLine :=
  let line := trimBlanks text
  let mnemonic := line.takeWhile (· != ' ')
  match mnemonicTable.find? (fun row => row.1.toList == mnemonic) with
  | some row => row.2 (operandTexts (line.drop mnemonic.length))
  | none => none

end Sys2Proof.Machine
end

