-- ==== Sys2Proof/Safety.lean ====
section
/-! DEFINITION. The terms the statements use: the invariant of the engine's state, and what the spec says of a command from
its state and operands alone (when ENCRYPT and DECRYPT fault, where a stream starts). No meaning uses these. -/

namespace Sys2Proof.Machine

/-- The host may issue commands and the context exists: no fault stands and a CONFIGURE has succeeded (45_control.md R320). -/
def State.isReady (s : State) : Bool := s.fault == none && s.configured

/-- The invariant of one direction record: a valid record stands only under continuous buffering, has the widths of
10_state.md R42, and was initialised from an IV in a mode that uses one (44_modes.md R262, R264, R280). -/
structure DirRecord.Inv (s : State) (r : DirRecord) : Prop where
  buffered : r.valid = true → s.cbEnabled = true
  shaped : r.valid = true → r.fits s.alg s.mode s.bs = true
  fromIv : r.valid = true → s.alg ≠ .rc4 → usesIv s.mode = true → s.ivReg ≠ none

/-- The invariant of the state (10_state.md R36, R41, R43; 60_exceptions.md R366). -/
structure State.Inv (s : State) : Prop where
  /-- The block length is a legal one (10_state.md R36). -/
  blockLenLegal : s.blockLen ∈ [16, 20, 24, 28, 32]
  /-- It is 16 for every algorithm but Rijndael (45_control.md R321). -/
  blockLenFixed : s.alg ≠ .rijndael → s.blockLen = 16
  /-- 3CBC goes with TripleDES only (41_tripledes.md R179). -/
  tcbcAlgorithm : s.mode = .tcbc → s.alg = .tripleDes
  /-- The schedule is never stale: where `dirty` is clear it is the one of the key in force (45_control.md R334). -/
  scheduleFresh : ∀ key, s.keyReg = some key → s.dirty = false →
    ∃ sched, deriveSchedule s.alg s.bs s.keyLenParam key = .ok sched ∧ s.sched = some sched
  encInv : s.enc.Inv s
  decInv : s.dec.Inv s
  /-- The assertion never fails (60_exceptions.md R366). -/
  assertion : s.fault ≠ some .internalInvariant

/-- Every RC4 permutation the state holds is a permutation of 0..255 (43_rc4.md R242). -/
structure State.Rc4Permutations (s : State) : Prop where
  schedule : ∀ s0, s.sched = some (.rc4 s0) → s0.Perm permIdentity
  enc : s.alg = .rc4 → s.enc.valid = true → s.enc.s.Perm permIdentity
  dec : s.alg = .rc4 → s.dec.valid = true → s.dec.s.Perm permIdentity

/-- The block-aligned modes (44_modes.md R269). -/
def blockAligned : Mode → Bool
  | .ecb => true
  | .cbc => true
  | .tcbc => true
  | .cfb => false
  | .ofb => false
  | .ctr => false

/-- The fault ENCRYPT or DECRYPT of `text` ends in, in the order of 60_exceptions.md R367; `none` where it completes. -/
def cryptFault (d : Direction) (s : State) (text : Bytes) : Option FaultReason :=
  if s.keyReg = none then some .keyNotSet
  else if s.alg = .rc4 ∧ s.keyReg = some [] then some .emptyRc4Key
  else if s.alg ≠ .rc4 ∧ usesIv s.mode = true ∧ s.ivReg = none then some .ivNotSet
  else if s.alg ≠ .rc4 ∧ blockAligned s.mode = true ∧ (d = .dec ∨ s.padEnabled = false) ∧ text.length % s.bs ≠ 0 then
    some .unalignedInput
  else none

/-- The command that runs a direction. -/
def cryptInstr : Direction → Bytes → Instr
  | .enc, text => .encrypt text
  | .dec, text => .decrypt text

/-- The padded input of a block-aligned encryption (44_modes.md R268). -/
def paddedInput (s : State) (text : Bytes) : Bytes := if s.padEnabled then pad s.bs text else text

/-- A call of direction `d` starts from a fresh record: buffering is off, or the record is not valid (44_modes.md R263). -/
def State.startsFresh (d : Direction) (s : State) : Bool := !s.cbEnabled || !(s.dir d).valid

/-- The chaining register a call starts from (44_modes.md R263): the configured IV, or the register of a valid record. -/
def State.startReg (d : Direction) (s : State) : Bytes :=
  if s.startsFresh d then normalisedIv s.bs s.ivReg else (s.dir d).reg

/-- Block k of a byte string (20_memory.md R72). -/
def blockAt (bs k : Nat) (b : Bytes) : Bytes := slice (k * bs) bs b

/-- What a chaining register holds after the blocks of `b` went through it: the last of them, or what it held before
(44_modes.md R272, R273). -/
def lastBlockOr (bs : Nat) (start b : Bytes) : Bytes := if b = [] then start else blockAt bs (b.length / bs - 1) b

/-- The stage registers `c[1]`, `c[2]` and `c[3]` a 3CBC call starts from: the configured IV in all three, or those of a valid
record (41_tripledes.md R177, 44_modes.md R263). -/
def State.startStages (d : Direction) (s : State) : Bytes × Bytes × Bytes :=
  if s.startsFresh d then (normalisedIv 8 s.ivReg, normalisedIv 8 s.ivReg, normalisedIv 8 s.ivReg)
  else ((s.dir d).c1, (s.dir d).c2, (s.dir d).c3)

/-- `S'` is the table `S` with entries `i` and `j` exchanged (43_rc4.md R242, R245). -/
def swappedAt (S S' : Bytes) (i j : Byte) : Prop :=
  S'.length = 256 ∧ ∀ n : Byte, S'.getD n.toNat 0
    = if n = i then S.getD j.toNat 0 else if n = j then S.getD i.toNat 0 else S.getD n.toNat 0

/-- A CBC pass over a whole byte string from a chaining register: encryption (44_modes.md R272). -/
def cbcEncryptPass (E : Bytes → Bytes) (bs : Nat) (iv X : Bytes) : Bytes :=
  (runBlocks bs (cbcEncryptStep E) { DirRecord.reset with reg := iv } X).1

/-- A CBC pass over a whole byte string from a chaining register: decryption (44_modes.md R273). -/
def cbcDecryptPass (D : Bytes → Bytes) (bs : Nat) (iv X : Bytes) : Bytes :=
  (runBlocks bs (cbcDecryptStep D) { DirRecord.reset with reg := iv } X).1

/-- The commands of 30_encoding.md R111, by the value of the word and the operands alone (R109, R110). -/
def legalCommand (w : Nat) (ops : List Bytes) : Prop :=
  (w % 256 = 0x01 ∧ ops.length = 0)
    ∨ ((w = 0x02 ∨ w = 0x03 ∨ w = 0x10 ∨ w = 0x11) ∧ ops.length = 1)
    ∨ (w % 256 = 0x04 ∧ w / 2 ^ 11 = 0 ∧ ops.length = 1 + w / 2 ^ 8 % 2 + w / 2 ^ 9 % 2 + w / 2 ^ 10 % 2
        ∧ (w / 2 ^ 9 % 2 = 1 → (ops.getD (1 + w / 2 ^ 8 % 2) []).length = 4)
        ∧ (w / 2 ^ 10 % 2 = 1 → (ops.getD (1 + w / 2 ^ 8 % 2 + w / 2 ^ 9 % 2) []).length = 4))
    ∨ (w % 2 ^ 16 = 0x05 ∧ w / 2 ^ 24 = 0 ∧ ops.length = 0)
    ∨ (w % 2 ^ 24 = 0x06 ∧ ops.length = 0)
    ∨ ((w = 0x08 ∨ w = 0x09 ∨ w = 0x0A ∨ w = 0x0B) ∧ ops.length = 0)

/-- The straightforward inverse cipher of 42_rijndael.md R212, with the encryption schedule `w`: in each round from Nr down to 1
InvShiftRows, InvSubBytes, AddRoundKey and InvMixColumns, the last of them without InvMixColumns. -/
def straightInverseRounds (nb : Nat) (w : List Column) (s : List Column) : Nat → List Column
  | 0 => s
  | 1 => addRoundKey nb w 0 (invSubBytes (invShiftRows nb s))
  | n + 2 => straightInverseRounds nb w ((addRoundKey nb w (n + 1) (invSubBytes (invShiftRows nb s))).map invMixColumn) (n + 1)

/-- The straightforward inverse cipher on a block (42_rijndael.md R212). -/
def straightInverseBlock (nb nr : Nat) (w : List Column) (x : Bytes) : Bytes :=
  storeColumns (straightInverseRounds nb w (addRoundKey nb w nr (loadColumns x)) nr)

end Sys2Proof.Machine
end

