-- ==== Sys2Proof/Certificates/Slice0/Obligations.lean ====
section
/-! DEFINITION. The statements for the provers, in the order of OBLIGATIONS.json. In all of them `inbox` is the model's own list of
what the host does next (log entry 1), and `response` the wire its Status goes out on (log entry 2). -/

open Sys2Proof Sys2Proof.Machine

/-! ### Encoding -/

/-- Decoding the encoding of a well-formed command gives it back, with every operand (30_encoding.md R101 to R109). -/
def Obligations.DecodeInvertsEncode : Prop := ∀ i : Instr, i.wf = true → decode (encode i) = .ok i

/-- Every command the decoder accepts is the encoding of what it reads, and what it reads is well formed. -/
def Obligations.EncodeInvertsDecode : Prop :=
  ∀ (c : Command) (i : Instr), decode c = .ok i → i.wf = true ∧ encode i = c

/-- The decoder accepts exactly the commands of 30_encoding.md R111; all others are illegal (R109, R110). -/
def Obligations.DecoderAcceptsExactlyLegalCommands : Prop :=
  ∀ c : Command, (∃ i, decode c = .ok i) ↔ legalCommand c.word.toNat c.operands

/-- Words written out from 30_encoding.md R101 and R102 decode to what they stand for. -/
def Obligations.SampleWordsDecode : Prop :=
  decode ⟨0x20004301#32, []⟩ = .ok (.configure 3 4 0 32)
    ∧ decode ⟨0x00000704#32, [[0x70], [0x73], [0, 0, 0, 1], [0, 0, 0, 16]]⟩
        = .ok (.setPassword [0x70] (some [0x73]) (some [0, 0, 0, 1]) (some [0, 0, 0, 16]))
    ∧ decode ⟨0x00200005#32, []⟩ = .ok (.setKeyLength 32)
    ∧ decode ⟨0x00000009#32, []⟩ = .ok .disableCb
    ∧ decode ⟨0x00000010#32, [[0xAA]]⟩ = .ok (.encrypt [0xAA])
    ∧ decode ⟨0x00000102#32, [[0xAA]]⟩ = .error .reservedBits
    ∧ decode ⟨0x00000007#32, []⟩ = .error .unassignedOpcode

/-! ### Steps -/

/-- A step runs the command the host issues: it takes it off the inbox, and where no fault stands and it decodes to `i`,
the step is `exec i` (45_control.md R320). The inbox is the model's choice (log entry 1). -/
def Obligations.StepRunsTheDecodedCommand : Prop :=
  ∀ (s : State) (c : Command) (rest : List HostEvent) (i : Instr),
    s.inbox = .command c :: rest → s.fault = none → decode c = .ok i → step s = exec i { s with inbox := rest }

/-- A command that does not decode raises Fault(IllegalCommand) (30_encoding.md R109, R110; 60_exceptions.md R362). The
inbox is the model's choice (log entry 1). -/
def Obligations.StepFaultsOnIllegalCommands : Prop :=
  ∀ (s : State) (c : Command) (rest : List HostEvent),
    s.inbox = .command c :: rest → s.fault = none → ¬ legalCommand c.word.toNat c.operands →
      ∃ t, step s = .next t ∧ t.fault = some .illegalCommand ∧ t.response = some (.fault .illegalCommand)
        ∧ t.pc = s.pc ∧ t.inbox = rest

/-- After a fault every command, whatever its word, answers FAULT with the same reason and changes nothing
(60_exceptions.md R362). -/
def Obligations.FaultIsSticky : Prop :=
  ∀ (s : State) (r : FaultReason), s.fault = some r →
    (∀ (c : Command) (rest : List HostEvent), s.inbox = .command c :: rest →
      step s = .next { s with inbox := rest, response := some (.fault r) })
    ∧ ∀ i : Instr, exec i s = .next { s with response := some (.fault r) }

/-- Power-up gives the fields of `ctx` their power-up values and is not held up by a fault; the reset state holds the same
values (70_reset_and_hazards.md R390). The event of power-up is the model's choice (log entry 13). -/
def Obligations.PowerUpResetsTheContext : Prop :=
  (∀ (s : State) (rest : List HostEvent), s.inbox = .powerUp :: rest →
    ∃ t, step s = .next t ∧ t.configured = false ∧ t.keyReg = none ∧ t.ivReg = none ∧ t.sched = none
      ∧ t.enc.valid = false ∧ t.dec.valid = false ∧ t.fault = none ∧ t.pc = 0 ∧ t.inbox = rest)
  ∧ State.reset.configured = false ∧ State.reset.keyReg = none ∧ State.reset.ivReg = none ∧ State.reset.sched = none
    ∧ State.reset.enc.valid = false ∧ State.reset.dec.valid = false ∧ State.reset.fault = none ∧ State.reset.pc = 0

/-- A command issued before the one before it completed is refused (20_memory.md R88). Without a command the engine is idle
and holds all its state (60_exceptions.md R378). The two events, an overlap and an idle step, are the model's choices (log entries 5
and 1). -/
def Obligations.OverlapIsRefusedAndIdleHoldsState : Prop :=
  (∀ (s : State) (c : Command) (rest : List HostEvent), s.inbox = .overlapping c :: rest →
    step s = .refused .overlappingCommand)
  ∧ ∀ s : State, s.inbox = [] → step s = .next s

/-- A step stops only where the host overlaps its commands; every command gets exactly one Status
(60_exceptions.md R360, 20_memory.md R88). -/
def Obligations.EveryCommandIsAnswered : Prop :=
  (∀ s : State, (∀ c rest, s.inbox ≠ .overlapping c :: rest) → ∃ t, step s = .next t)
    ∧ ∀ (i : Instr) (s : State), ∃ t st, exec i s = .next t ∧ t.response = some st ∧ t.inbox = s.inbox

/-- `pc` counts the commands that complete: one that ends in OK, ConfigurationError or PaddingError advances it by 1, one that
faults does not (10_state.md R45). -/
def Obligations.PcCountsCompletedCommands : Prop :=
  ∀ (s t : State) (c : Command) (rest : List HostEvent), s.inbox = .command c :: rest → step s = .next t →
    ((∃ r, t.response = some (.fault r)) ∧ t.pc = s.pc)
      ∨ (((∃ out, t.response = some (.ok out)) ∨ t.response = some .configError ∨ t.response = some .paddingError)
          ∧ t.pc = s.pc + 1)

/-- Before a successful CONFIGURE every other command faults with NotConfigured (45_control.md R320, 60_exceptions.md R363). -/
def Obligations.OtherCommandsNeedConfigure : Prop :=
  ∀ (i : Instr) (s : State), i.opcode ≠ .configure → s.fault = none → s.configured = false →
    ∃ t, exec i s = .next t ∧ t.fault = some .notConfigured ∧ t.response = some (.fault .notConfigured) ∧ t.pc = s.pc

/-! ### The setting commands: result and frame -/

/-- CONFIGURE with known codes, 3CBC with TripleDES only, creates the context anew; every other field keeps its value
(45_control.md R321, 42_rijndael.md R192). That the fields of the direction records other than `valid` keep theirs is the model's
choice, since 10_state.md R48 leaves them unspecified (log entry 16); that `blockLen` is 16 for DES, TripleDES and RC4 follows R321
where R48's row differs (log entry 15). -/
def Obligations.ConfigureCreatesTheContext : Prop :=
  ∀ (s : State) (alg mode : BitVec 4) (a : Algorithm) (m : Mode) (klen blen : BitVec 8),
    s.fault = none →
    (alg, a) ∈ [(0, Algorithm.des), (1, .tripleDes), (2, .rc4), (3, .rijndael), (4, .aes)] →
    (mode, m) ∈ [(0, Mode.ecb), (1, .cbc), (2, .cfb), (3, .ofb), (4, .ctr), (5, .tcbc)] →
    (m = .tcbc → a = .tripleDes) →
      exec (.configure alg mode klen blen) s = .next { s with
        configured := true, alg := a, mode := m, keyReg := none, keyLenParam := klen
        blockLen := if a = .rijndael ∧ blen ≠ 0 then min 32 (max 16 (4 * ((blen.toNat + 3) / 4))) else 16
        ivReg := none, dirty := true, cbEnabled := false, padEnabled := true, sched := none
        enc := { s.enc with valid := false }, dec := { s.dec with valid := false }
        pc := s.pc + 1, response := some (.ok []) }

/-- CONFIGURE with an unknown code, or with 3CBC for another algorithm, returns ConfigurationError and leaves the context
unconfigured; it is not a fault (60_exceptions.md R364). -/
def Obligations.ConfigureRefusesOtherCodes : Prop :=
  ∀ (s : State) (alg mode : BitVec 4) (klen blen : BitVec 8), s.fault = none →
    (4 < alg.toNat ∨ 5 < mode.toNat ∨ (mode.toNat = 5 ∧ alg.toNat ≠ 1)) →
      exec (.configure alg mode klen blen) s
        = .next { s with configured := false, pc := s.pc + 1, response := some .configError }

/-- SET_KEY keeps the raw key, sets `dirty` and discards both directions (45_control.md R322). -/
def Obligations.SetKeyLoadsTheKey : Prop :=
  ∀ (s : State) (key : Bytes), s.isReady = true →
    exec (.setKey key) s = .next { s with
      keyReg := some key, dirty := true, enc := { s.enc with valid := false }, dec := { s.dec with valid := false }
      pc := s.pc + 1, response := some (.ok []) }

/-- SET_IV keeps the raw IV and discards both directions; `dirty` is not set (45_control.md R323). -/
def Obligations.SetIvLoadsTheIv : Prop :=
  ∀ (s : State) (iv : Bytes), s.isReady = true →
    exec (.setIv iv) s = .next { s with
      ivReg := some iv, enc := { s.enc with valid := false }, dec := { s.dec with valid := false }
      pc := s.pc + 1, response := some (.ok []) }

/-- SET_PASSWORD with at least one iteration loads the key PBKDF2 derives, an absent operand taking its default; with iteration
count 0 it raises Fault(BadKdfParam) (45_control.md R324). -/
def Obligations.SetPasswordDerivesTheKey : Prop :=
  ∀ (s : State) (password : Bytes) (salt iterations outputLength : Option Bytes), s.isReady = true →
    ((iterations.map beNat).getD Config.kdfDefaultIterations ≠ 0 →
      exec (.setPassword password salt iterations outputLength) s = .next { s with
        keyReg := some (pbkdf2 engineHmac password (salt.getD Config.kdfDefaultSalt)
          ((iterations.map beNat).getD Config.kdfDefaultIterations)
          ((outputLength.map beNat).getD Config.kdfDefaultDkLen))
        dirty := true, enc := { s.enc with valid := false }, dec := { s.dec with valid := false }
        pc := s.pc + 1, response := some (.ok []) })
    ∧ ((iterations.map beNat).getD Config.kdfDefaultIterations = 0 →
      ∃ t, exec (.setPassword password salt iterations outputLength) s = .next t
        ∧ t.fault = some .badKdfParam ∧ t.response = some (.fault .badKdfParam) ∧ t.pc = s.pc)

/-- SET_KEY_LENGTH stores the length for every algorithm, sets `dirty` and discards both directions. SET_BLOCK_LENGTH does so
with the normalised block length for Rijndael, and completes without effect for every other algorithm
(45_control.md R326, R327; 42_rijndael.md R192). -/
def Obligations.LengthCommandsStoreTheLengths : Prop :=
  ∀ (s : State) (len : BitVec 8), s.isReady = true →
    exec (.setKeyLength len) s = .next { s with
      keyLenParam := len, dirty := true
      enc := { s.enc with valid := false }, dec := { s.dec with valid := false }
      pc := s.pc + 1, response := some (.ok []) }
    ∧ (s.alg = .rijndael → exec (.setBlockLength len) s = .next { s with
      blockLen := if len = 0 then 16 else min 32 (max 16 (4 * ((len.toNat + 3) / 4)))
      dirty := true, enc := { s.enc with valid := false }, dec := { s.dec with valid := false }
      pc := s.pc + 1, response := some (.ok []) })
    ∧ (s.alg ≠ .rijndael → exec (.setBlockLength len) s = .next { s with pc := s.pc + 1, response := some (.ok []) })

/-- ENABLE_CB writes `cbEnabled` alone, and DISABLE_CB also discards both directions; ENABLE_PAD and DISABLE_PAD write
`padEnabled` alone (45_control.md R328 to R331). -/
def Obligations.TogglesWriteTheirFlag : Prop :=
  ∀ s : State, s.isReady = true →
    exec .enableCb s = .next { s with cbEnabled := true, pc := s.pc + 1, response := some (.ok []) }
    ∧ exec .disableCb s = .next { s with
        cbEnabled := false, enc := { s.enc with valid := false }, dec := { s.dec with valid := false }
        pc := s.pc + 1, response := some (.ok []) }
    ∧ exec .enablePad s = .next { s with padEnabled := true, pc := s.pc + 1, response := some (.ok []) }
    ∧ exec .disablePad s = .next { s with padEnabled := false, pc := s.pc + 1, response := some (.ok []) }

/-- Each register is written only by the commands 10_state.md names for it: `keyReg` by CONFIGURE, SET_KEY and SET_PASSWORD,
`ivReg` by CONFIGURE and SET_IV, the lengths by CONFIGURE and their own command, the flags by CONFIGURE and their toggles, and
`configured`, `alg` and `mode` by CONFIGURE (10_state.md R31 to R37, R39, R40). -/
def Obligations.RegistersHaveTheirWriters : Prop :=
  ∀ (i : Instr) (s t : State), exec i s = .next t → t.fault = none → i.opcode ≠ .configure →
    t.configured = s.configured ∧ t.alg = s.alg ∧ t.mode = s.mode
    ∧ (i.opcode ≠ .setKey → i.opcode ≠ .setPassword → t.keyReg = s.keyReg)
    ∧ (i.opcode ≠ .setIv → t.ivReg = s.ivReg)
    ∧ (i.opcode ≠ .setKeyLength → t.keyLenParam = s.keyLenParam)
    ∧ (i.opcode ≠ .setBlockLength → t.blockLen = s.blockLen)
    ∧ (i.opcode ≠ .enableCb → i.opcode ≠ .disableCb → t.cbEnabled = s.cbEnabled)
    ∧ (i.opcode ≠ .enablePad → i.opcode ≠ .disablePad → t.padEnabled = s.padEnabled)

/-! ### ENCRYPT and DECRYPT: completion, faults, frame -/

/-- ENCRYPT completes with OK whenever 60_exceptions.md R367 names no fault for it. It writes the schedule and `dirty`, and
`dir[enc]`, and nothing else; the record stays valid only under continuous buffering (45_control.md R332, R334;
44_modes.md R265, R280). -/
def Obligations.EncryptCompletes : Prop :=
  ∀ (s : State) (text key : Bytes), s.Inv → s.isReady = true → s.keyReg = some key → cryptFault .enc s text = none →
    ∃ out sched r,
      exec (.encrypt text) s = .next { s with
        sched := some sched, dirty := false, enc := r, pc := s.pc + 1, response := some (.ok out) }
      ∧ deriveSchedule s.alg s.bs s.keyLenParam key = .ok sched
      ∧ r.valid = s.cbEnabled
      ∧ out.length = if s.alg ≠ .rc4 ∧ blockAligned s.mode = true ∧ s.padEnabled = true
          then text.length + (s.bs - text.length % s.bs) else text.length

/-- DECRYPT completes with OK or PADDING_ERROR whenever R367 names no fault for it, with the frame of ENCRYPT on `dir[dec]`.
Without padding the output is as long as the input; with it, 1 to bs bytes shorter (45_control.md R333; 44_modes.md R265). -/
def Obligations.DecryptCompletes : Prop :=
  ∀ (s : State) (text key : Bytes), s.Inv → s.isReady = true → s.keyReg = some key → cryptFault .dec s text = none →
    ∃ st sched r,
      exec (.decrypt text) s = .next { s with
        sched := some sched, dirty := false, dec := r, pc := s.pc + 1, response := some st }
      ∧ deriveSchedule s.alg s.bs s.keyLenParam key = .ok sched
      ∧ r.valid = s.cbEnabled
      ∧ if s.alg ≠ .rc4 ∧ blockAligned s.mode = true ∧ s.padEnabled = true
          then st = .paddingError ∨ ∃ out, st = .ok out ∧ out.length < text.length ∧ text.length ≤ out.length + s.bs
          else ∃ out, st = .ok out ∧ out.length = text.length

/-- ENCRYPT and DECRYPT report the first fault in the order of 60_exceptions.md R367. -/
def Obligations.CryptFaultsInOrder : Prop :=
  ∀ (d : Direction) (s : State) (text : Bytes) (r : FaultReason), s.Inv → s.isReady = true →
    cryptFault d s text = some r →
      ∃ t, exec (cryptInstr d text) s = .next t ∧ t.fault = some r ∧ t.response = some (.fault r) ∧ t.pc = s.pc

/-- An unaligned input is refused before any block is processed: no output and no state change result, but for the fault
itself and its Status (44_modes.md R269). -/
def Obligations.UnalignedInputChangesNothing : Prop :=
  ∀ (d : Direction) (s : State) (text : Bytes), s.Inv → s.isReady = true → cryptFault d s text = some .unalignedInput →
    exec (cryptInstr d text) s
      = .next { s with fault := some .unalignedInput, response := some (.fault .unalignedInput) }

/-- An ENCRYPT leaves `dir[dec]` alone and does not read it, and a DECRYPT `dir[enc]` (44_modes.md R284). -/
def Obligations.DirectionsAreIndependent : Prop :=
  ∀ (s t : State) (text : Bytes) (r : DirRecord),
    t.fault = none →
    (exec (.encrypt text) s = .next t →
      t.dec = s.dec ∧ exec (.encrypt text) { s with dec := r } = .next { t with dec := r })
    ∧ (exec (.decrypt text) s = .next t →
      t.enc = s.enc ∧ exec (.decrypt text) { s with enc := r } = .next { t with enc := r })

/-- The schedule cache cannot be observed: deriving the schedule again changes nothing in what ENCRYPT and DECRYPT answer or
leave behind (45_control.md R334, 70_reset_and_hazards.md R394). -/
def Obligations.ScheduleIsNeverStale : Prop :=
  ∀ (d : Direction) (s t : State) (text : Bytes), s.Inv → exec (cryptInstr d text) s = .next t → t.fault = none →
    exec (cryptInstr d text) { s with dirty := true } = .next t

/-! ### Modes -/

/-- ECB transforms every block by itself: `E` to encrypt, `D` to decrypt, and then the padding is removed where it is enabled
(44_modes.md R270, R271). -/
def Obligations.EcbTransformsEachBlock : Prop :=
  ∀ (s t : State) (text : Bytes) (sched : Schedule) (c : BlockCipher), s.Inv → s.mode = .ecb →
    t.fault = none → t.sched = some sched → blockCipher sched = some c →
      (exec (.encrypt text) s = .next t →
        ∃ out, t.response = some (.ok out) ∧ out.length = (paddedInput s text).length
          ∧ ∀ k, k < (paddedInput s text).length / s.bs →
              blockAt s.bs k out = c.E (blockAt s.bs k (paddedInput s text)))
      ∧ (exec (.decrypt text) s = .next t →
        ∃ X : Bytes, X.length = text.length
          ∧ (∀ k, k < text.length / s.bs → blockAt s.bs k X = c.D (blockAt s.bs k text))
          ∧ t.response = some (cryptStatus (if s.padEnabled then unpad s.bs X else some X)))

/-- CBC encryption: `C_i = E(P_i XOR C_{i−1})`, the first from the chaining register, which keeps the last ciphertext block
(44_modes.md R272). -/
def Obligations.CbcEncryptsInAChain : Prop :=
  ∀ (s t : State) (text out : Bytes) (sched : Schedule) (c : BlockCipher), s.Inv → s.mode = .cbc →
    exec (.encrypt text) s = .next t → t.response = some (.ok out) → t.sched = some sched → blockCipher sched = some c →
      (∀ k, k < (paddedInput s text).length / s.bs →
        blockAt s.bs k out = c.E (xorBytes (blockAt s.bs k (paddedInput s text))
          (if k = 0 then s.startReg .enc else blockAt s.bs (k - 1) out)))
      ∧ (s.cbEnabled = true →
          t.enc.reg = if out = [] then s.startReg .enc else blockAt s.bs (out.length / s.bs - 1) out)

/-- CBC decryption: `P_i = D(C_i) XOR C_{i−1}`, then the padding is removed where it is enabled; the register keeps the last
ciphertext block, after a PaddingError too (44_modes.md R273, R283). -/
def Obligations.CbcDecryptsInAChain : Prop :=
  ∀ (s t : State) (text : Bytes) (sched : Schedule) (c : BlockCipher), s.Inv → s.mode = .cbc →
    exec (.decrypt text) s = .next t → t.fault = none → t.sched = some sched → blockCipher sched = some c →
      ∃ X : Bytes, X.length = text.length
        ∧ (∀ k, k < text.length / s.bs →
          blockAt s.bs k X = xorBytes (c.D (blockAt s.bs k text))
            (if k = 0 then s.startReg .dec else blockAt s.bs (k - 1) text))
        ∧ t.response = some (cryptStatus (if s.padEnabled then unpad s.bs X else some X))
        ∧ (s.cbEnabled = true →
          t.dec.reg = if text = [] then s.startReg .dec else blockAt s.bs (text.length / s.bs - 1) text)

/-- CFB from a fresh record, in both directions: byte n is the text byte XOR byte n mod bs of `E` of the ciphertext block before,
the IV first, `C_i = E(C_{i−1}) XOR P_i`; the ciphertext is the output of ENCRYPT and the input of DECRYPT
(44_modes.md R274, R275). -/
def Obligations.CfbFeedsBackTheCiphertext : Prop :=
  ∀ (d : Direction) (s t : State) (text out : Bytes) (sched : Schedule) (c : BlockCipher), s.Inv → s.mode = .cfb →
    s.startsFresh d = true →
    exec (cryptInstr d text) s = .next t → t.response = some (.ok out) → t.sched = some sched →
    blockCipher sched = some c →
      ∀ n, n < text.length →
        out.getD n 0 = text.getD n 0 ^^^
          (c.E (if n < s.bs then normalisedIv s.bs s.ivReg
            else blockAt s.bs (n / s.bs - 1) (if d = .enc then out else text))).getD (n % s.bs) 0

/-- OFB from a fresh record, in both directions: the keystream blocks are `K_i = E(K_{i−1})` with `K_0` the IV
(44_modes.md R276). -/
def Obligations.OfbKeystreamIsIterated : Prop :=
  ∀ (d : Direction) (s t : State) (text out : Bytes) (sched : Schedule) (c : BlockCipher), s.Inv → s.mode = .ofb →
    s.startsFresh d = true →
    exec (cryptInstr d text) s = .next t → t.response = some (.ok out) → t.sched = some sched →
    blockCipher sched = some c →
      ∀ n, n < text.length →
        out.getD n 0 = text.getD n 0 ^^^ (c.E^[n / s.bs + 1] (normalisedIv s.bs s.ivReg)).getD (n % s.bs) 0

/-- CTR from a fresh record, in both directions: keystream block i is `E(IV + i)`, the counter a big-endian number of bs bytes
that wraps (44_modes.md R277, R278). -/
def Obligations.CtrKeystreamCounts : Prop :=
  ∀ (d : Direction) (s t : State) (text out : Bytes) (sched : Schedule) (c : BlockCipher), s.Inv → s.mode = .ctr →
    s.startsFresh d = true →
    exec (cryptInstr d text) s = .next t → t.response = some (.ok out) → t.sched = some sched →
    blockCipher sched = some c →
      ∀ n, n < text.length →
        out.getD n 0 = text.getD n 0 ^^^
          (c.E (beBytes s.bs (beNat (normalisedIv s.bs s.ivReg) + n / s.bs))).getD (n % s.bs) 0

/-- `CTR_Inc` is the big-endian increment modulo `2^(8·bs)` (44_modes.md R278). -/
def Obligations.CtrIncIsBigEndianIncrement : Prop :=
  ∀ ctr : Bytes, ctr.length % 4 = 0 → ctrInc ctr = beBytes ctr.length (beNat ctr + 1)

/-- 3CBC is three CBC passes, each with its own chaining register: encrypt under k1, decrypt under k2, encrypt under k3;
decryption undoes them in reverse, and then the padding is removed where it is enabled. The passes start from the configured IV,
or from `c[1]`, `c[2]` and `c[3]` of a valid record under continuous buffering, and leave there the last block of the first
pass's output (twice) and of the ciphertext, after a PaddingError too (41_tripledes.md R175 to R178; 44_modes.md R263, R280,
R283). -/
def Obligations.TripleCbcIsThreePasses : Prop :=
  ∀ (s t : State) (text : Bytes) (ks1 ks2 ks3 : List DesSubkey), s.Inv → s.mode = .tcbc →
    t.fault = none → t.sched = some (.tripleDes ks1 ks2 ks3) →
      (∀ c1 c2 c3, s.startStages .enc = (c1, c2, c3) → exec (.encrypt text) s = .next t →
        ∃ y1 y2 y3, y1 = cbcEncryptPass (desEncryptBlock ks1) 8 c1 (paddedInput s text)
          ∧ y2 = cbcDecryptPass (desDecryptBlock ks2) 8 c2 y1
          ∧ y3 = cbcEncryptPass (desEncryptBlock ks3) 8 c3 y2
          ∧ t.response = some (.ok y3)
          ∧ (s.cbEnabled = true → t.enc.valid = true ∧ t.enc.c1 = lastBlockOr 8 c1 y1 ∧ t.enc.c2 = lastBlockOr 8 c2 y1
            ∧ t.enc.c3 = lastBlockOr 8 c3 y3))
      ∧ (∀ c1 c2 c3, s.startStages .dec = (c1, c2, c3) → exec (.decrypt text) s = .next t →
        ∃ y2 y1 x, y2 = cbcDecryptPass (desDecryptBlock ks3) 8 c3 text
          ∧ y1 = cbcEncryptPass (desEncryptBlock ks2) 8 c2 y2
          ∧ x = cbcDecryptPass (desDecryptBlock ks1) 8 c1 y1
          ∧ t.response = some (cryptStatus (if s.padEnabled then unpad 8 x else some x))
          ∧ (s.cbEnabled = true → t.dec.valid = true ∧ t.dec.c1 = lastBlockOr 8 c1 y1 ∧ t.dec.c2 = lastBlockOr 8 c2 y1
            ∧ t.dec.c3 = lastBlockOr 8 c3 text))

/-- Padding appends 1 to bs bytes, to a multiple of bs, and removing it gives the string back; a last byte of 0 or above bs, or
an empty string, is a PaddingError (44_modes.md R266, R267). -/
def Obligations.UnpadInvertsPad : Prop :=
  (∀ (bs : Nat) (M : Bytes), 0 < bs → bs < 256 →
    (pad bs M).length % bs = 0 ∧ M.length < (pad bs M).length ∧ (pad bs M).length ≤ M.length + bs
      ∧ unpad bs (pad bs M) = some M)
  ∧ ∀ (bs : Nat) (X : Bytes), unpad bs X = none ↔
      (X = [] ∨ (X.getLastD 0).toNat = 0 ∨ bs < (X.getLastD 0).toNat)

/-- A DECRYPT that returns PaddingError leaves the direction record it would leave with padding disabled
(44_modes.md R283). -/
def Obligations.PaddingErrorStillAdvances : Prop :=
  ∀ (s t : State) (text : Bytes), exec (.decrypt text) s = .next t → t.response = some .paddingError →
    ∃ out u, exec (.decrypt text) { s with padEnabled := false } = .next u
      ∧ u.response = some (.ok out) ∧ u.dec = t.dec ∧ t.pc = s.pc + 1 ∧ t.fault = s.fault

/-- Continuous-buffer equivalence: in CFB, OFB, CTR and RC4 with continuous buffering, two calls give the concatenated output of
one call on the concatenated text, and leave the same state but for the count and the Status (44_modes.md R281). -/
def Obligations.ChunkingIsInvisible : Prop :=
  ∀ (d : Direction) (s t : State) (A B out : Bytes), s.Inv → s.cbEnabled = true →
    (s.alg = .rc4 ∨ blockAligned s.mode = false) →
    exec (cryptInstr d (A ++ B)) s = .next t → t.response = some (.ok out) →
      ∃ u outA outB, exec (cryptInstr d A) s = .next u ∧ u.response = some (.ok outA)
        ∧ exec (cryptInstr d B) u = .next { t with pc := s.pc + 2, response := some (.ok outB) }
        ∧ out = outA ++ outB

/-- Non-continuous independence: with continuous buffering disabled, the same call twice gets the same Status, in every mode
and for every algorithm (44_modes.md R282). -/
def Obligations.NonContinuousCallsRepeat : Prop :=
  ∀ (d : Direction) (s t : State) (text : Bytes), s.Inv → s.cbEnabled = false → exec (cryptInstr d text) s = .next t →
    ∃ u, exec (cryptInstr d text) t = .next u ∧ u.response = t.response

/-- Round trip: for every algorithm and mode, with continuous buffering disabled, decrypting what ENCRYPT returned gives the
text back (44_modes.md R285). -/
def Obligations.DecryptInvertsEncrypt : Prop :=
  ∀ (s t : State) (M C : Bytes), s.Inv → s.cbEnabled = false →
    exec (.encrypt M) s = .next t → t.response = some (.ok C) →
      ∃ u, exec (.decrypt C) t = .next u ∧ u.response = some (.ok M)

/-! ### Block ciphers -/

/-- The DES schedule does not depend on the parity bits, the least significant bit of each key byte (40_des.md R131). -/
def Obligations.DesIgnoresParityBits : Prop :=
  ∀ k k' : Bytes, k.length = 8 → k'.length = 8 → k.map (fun b : Byte => b >>> 1) = k'.map (fun b : Byte => b >>> 1) →
    desKeySchedule k = desKeySchedule k'

/-- DES decryption undoes encryption and the other way round, for every schedule and block; so TripleDES decryption undoes
its encryption (40_des.md R154, 41_tripledes.md R172). -/
def Obligations.DesAndTripleDesDecryptInvertEncrypt : Prop :=
  (∀ (ks : List DesSubkey) (x : Bytes), x.length = 8 →
    desDecryptBlock ks (desEncryptBlock ks x) = x ∧ desEncryptBlock ks (desDecryptBlock ks x) = x)
  ∧ ∀ (ks1 ks2 ks3 : List DesSubkey) (x : Bytes), x.length = 8 →
      tripleDesDecryptBlock ks1 ks2 ks3 (tripleDesEncryptBlock ks1 ks2 ks3 x) = x

/-- With a key of at most 8 bytes TripleDES answers exactly as DES with that key, in every mode but 3CBC
(41_tripledes.md R173). -/
def Obligations.ShortKeyTripleDesIsDes : Prop :=
  ∀ (d : Direction) (s : State) (text key : Bytes), s.alg = .tripleDes → s.mode ≠ .tcbc → s.keyReg = some key →
    key.length ≤ 8 → s.dirty = true →
      ∃ t u, exec (cryptInstr d text) s = .next t ∧ exec (cryptInstr d text) { s with alg := .des } = .next u
        ∧ t.response = u.response

/-- With a key of at most 8 bytes, 3CBC from a fresh record answers exactly as DES-CBC with that key and IV
(41_tripledes.md R179). -/
def Obligations.ShortKeyTripleCbcIsDesCbc : Prop :=
  ∀ (d : Direction) (s : State) (text key : Bytes), s.alg = .tripleDes → s.mode = .tcbc → s.keyReg = some key →
    key.length ≤ 8 → s.dirty = true → s.startsFresh d = true →
      ∃ t u, exec (cryptInstr d text) s = .next t
        ∧ exec (cryptInstr d text) { s with alg := .des, mode := .cbc } = .next u ∧ t.response = u.response

/-- The S-box is the affine map of the inverse in GF(2^8), with `0⁻¹ = 0`, and the inverse S-box undoes it
(42_rijndael.md R195, R196). -/
def Obligations.SboxIsAffineOfInverse : Prop :=
  ∀ a : Byte,
    (∃ x : Byte, (a ≠ 0 → gfMul a x = 1) ∧ (a = 0 → x = 0)
      ∧ sbox a = x ^^^ x.rotateLeft 1 ^^^ x.rotateLeft 2 ^^^ x.rotateLeft 3 ^^^ x.rotateLeft 4 ^^^ 0x63)
    ∧ invSbox (sbox a) = a ∧ sbox (invSbox a) = a

/-- InvMixColumns undoes MixColumns, and InvShiftRows undoes ShiftRows for every block length
(42_rijndael.md R202, R203, R207, R208). -/
def Obligations.InverseLayersUndoTheirLayers : Prop :=
  (∀ a : Column, invMixColumn (mixColumn a) = a ∧ mixColumn (invMixColumn a) = a)
  ∧ ∀ (nb : Nat) (s : List Column), nb ∈ [4, 5, 6, 7, 8] → s.length = nb → invShiftRows nb (shiftRows nb s) = s

/-- Key normalisation: the length parameter, or the key's own length where it is 0, rounded up to a multiple of 4 and held
between 16 and 32; the bytes of the key, zeros after them (42_rijndael.md R191). -/
def Obligations.RijndaelKeyIsNormalised : Prop :=
  ∀ (klen : BitVec 8) (key : Bytes),
    (rijndaelKey klen key).length = min 32 (max 16 (4 * (((if klen = 0 then key.length else klen.toNat) + 3) / 4)))
    ∧ ∀ i, i < (rijndaelKey klen key).length → (rijndaelKey klen key).getD i 0 = key.getD i 0

/-- The key expansion: `Nb·(Nr+1)` words, the first Nk of them the key, each later one by the recurrence
(42_rijndael.md R190, R200). -/
def Obligations.KeyExpansionRecurrence : Prop :=
  ∀ (nb nk : Nat) (key : Bytes), nb ∈ [4, 5, 6, 7, 8] → nk ∈ [4, 5, 6, 7, 8] → key.length = 4 * nk →
    (rijndaelExpandKey nb key).length = nb * (max nb nk + 6 + 1)
    ∧ (∀ i, i < nk → (rijndaelExpandKey nb key).getD i zeroColumn
        = ⟨key.getD (4 * i) 0, key.getD (4 * i + 1) 0, key.getD (4 * i + 2) 0, key.getD (4 * i + 3) 0⟩)
    ∧ ∀ i, nk ≤ i → i < nb * (max nb nk + 6 + 1) →
        (rijndaelExpandKey nb key).getD i zeroColumn
          = xorColumn ((rijndaelExpandKey nb key).getD (i - nk) zeroColumn)
              (let t := (rijndaelExpandKey nb key).getD (i - 1) zeroColumn
               if i % nk = 0 then xorColumn (subWord (rotWord t)) ⟨rcon (i / nk), 0, 0, 0⟩
               else if nk > 6 ∧ i % nk = 4 then subWord t else t)

/-- Rijndael decryption undoes encryption for every block length, key length, key and block (42_rijndael.md R211). -/
def Obligations.RijndaelDecryptInvertsEncrypt : Prop :=
  ∀ (nb nk : Nat) (key x : Bytes), nb ∈ [4, 5, 6, 7, 8] → nk ∈ [4, 5, 6, 7, 8] → key.length = 4 * nk →
    x.length = 4 * nb →
      rijndaelDecryptBlock nb (rijndaelRounds nb nk)
        (rijndaelDecryptionSchedule nb (rijndaelRounds nb nk) (rijndaelExpandKey nb key))
        (rijndaelEncryptBlock nb (rijndaelRounds nb nk) (rijndaelExpandKey nb key) x) = x

/-- The equivalent inverse cipher with `dw` gives exactly the output of the straightforward inverse cipher with `w`
(42_rijndael.md R212). -/
def Obligations.EquivalentInverseCipherAgrees : Prop :=
  ∀ (nb nr : Nat) (w : List Column) (x : Bytes), nb ∈ [4, 5, 6, 7, 8] → 0 < nr → w.length = nb * (nr + 1) →
    x.length = 4 * nb →
      rijndaelDecryptBlock nb nr (rijndaelDecryptionSchedule nb nr w) x = straightInverseBlock nb nr w x

/-! ### RC4 -/

/-- RC4 in both directions, byte by byte: `i <- i + 1`, `j <- j + S[i]`, the entries at i and j change places, and the byte is
XORed with `S[S[i] + S[j]]`, all modulo 256. The call starts from the permutation of the key with i = j = 0, or from a valid record
under continuous buffering, where it leaves S, i and j. Mode, IV, padding and lengths do not matter
(43_rc4.md R240, R244 to R247). -/
def Obligations.Rc4RunsTheGenerator : Prop :=
  ∀ (d : Direction) (s : State) (text key : Bytes), s.Inv → s.isReady = true → s.alg = .rc4 → s.keyReg = some key →
    key ≠ [] →
      ∃ (t : State) (out : Bytes) (S : Nat → Bytes) (i j : Nat → Byte),
        exec (cryptInstr d text) s = .next t ∧ t.response = some (.ok out) ∧ out.length = text.length
        ∧ S 0 = (if s.startsFresh d then rc4Ksa key else (s.dir d).s)
        ∧ i 0 = (if s.startsFresh d then 0 else (s.dir d).i)
        ∧ j 0 = (if s.startsFresh d then 0 else (s.dir d).j)
        ∧ (∀ n, n < text.length →
            i (n + 1) = i n + 1
            ∧ j (n + 1) = j n + (S n).getD (i (n + 1)).toNat 0
            ∧ swappedAt (S n) (S (n + 1)) (i (n + 1)) (j (n + 1))
            ∧ out.getD n 0 = text.getD n 0 ^^^ (S (n + 1)).getD
                ((S (n + 1)).getD (i (n + 1)).toNat 0 + (S (n + 1)).getD (j (n + 1)).toNat 0).toNat 0)
        ∧ (s.cbEnabled = true → (t.dir d).valid = true ∧ (t.dir d).s = S text.length ∧ (t.dir d).i = i text.length
            ∧ (t.dir d).j = j text.length)

/-- A key longer than 256 bytes acts as its first 256 bytes (43_rc4.md R241). -/
def Obligations.Rc4ReadsTheFirst256KeyBytes : Prop :=
  ∀ key : Bytes, 256 < key.length → rc4Ksa key = rc4Ksa (key.take 256)

/-- Every RC4 table the engine holds is a permutation of 0..255, and every step keeps it one (43_rc4.md R242). Of a step that faults
this rests on the model's choice to keep the fields the spec leaves undefined after a fault (log entry 4). -/
def Obligations.Rc4TablesStayPermutations : Prop :=
  (∀ key : Bytes, (rc4Ksa key).Perm permIdentity)
  ∧ ∀ s t : State, s.Rc4Permutations → step s = .next t → t.Rc4Permutations

/-! ### PBKDF2 -/

/-- PBKDF2 with the engine's HMAC: exactly `dkLen` bytes, and byte n is byte n mod hLen of `U_1 XOR … XOR U_c`, where
`U_1 = HMAC(P, S || BE32(n / hLen + 1))` and `U_j = HMAC(P, U_{j−1})` (45_control.md R325). That hLen is at least 1 is DEDUCED
(log entry 7). -/
def Obligations.Pbkdf2IsTheXorOfIterates : Prop :=
  ∀ (P S : Bytes) (c dkLen : Nat), 0 < c →
    (pbkdf2 engineHmac P S c dkLen).length = dkLen
    ∧ ∀ n, n < dkLen →
        (pbkdf2 engineHmac P S c dkLen).getD n 0
          = (List.range c).foldl (fun acc j =>
              acc ^^^ ((engineHmac P)^[j] (engineHmac P (S ++ beBytes 4 (n / Config.hLen + 1)))).getD (n % Config.hLen) 0) 0

/-! ### Invariants and the whole machine -/

/-- The invariants hold after reset. The values of the fields the spec leaves unspecified are the model's choice (log entry 3). -/
def Obligations.ResetMeetsTheInvariant : Prop := State.reset.Inv ∧ State.reset.Rc4Permutations

/-- Every step keeps the invariant: legal lengths, 3CBC with TripleDES only, a schedule that is never stale, direction records of
the right widths, and no InternalInvariant fault (10_state.md R36, R41, R43; 44_modes.md R280; 45_control.md R321; 60_exceptions.md
R366). Of a step of power-up it rests on the model's choice of the unspecified values (log entries 3 and 13), of a step that faults
on the choice to keep the fields undefined after a fault (log entry 4); a `blockLen` of 16 for DES, TripleDES and RC4 follows R321
where R48's row differs (log entry 15). -/
def Obligations.StepKeepsTheInvariant : Prop := ∀ s t : State, s.Inv → step s = .next t → t.Inv

/-- The views of a valid record: `currentIV` is bs bytes long, and `pendingPartialBlock` is shorter than a block
(10_state.md R43). -/
def Obligations.ViewsHaveTheirLengths : Prop :=
  ∀ (d : Direction) (s : State), s.Inv → s.alg ≠ .rc4 → (s.dir d).valid = true →
    ∃ iv pending, currentIv s.alg (s.dir d) = some iv ∧ pendingPartialBlock s.alg s.bs (s.dir d) = some pending
      ∧ iv.length = s.bs ∧ pending.length < s.bs
      ∧ pending = if (s.dir d).pos = 0 then [] else (s.dir d).ks.drop (s.dir d).pos

/-- The boot order of 70_reset_and_hazards.md R393: CONFIGURE with a legal algorithm and mode, SET_KEY, SET_IV and ENCRYPT, issued to
an engine without a fault, end in OK, whatever the key, IV and text (an RC4 key not empty). The inbox is the model's choice
(log entry 1). -/
def Obligations.BootSequenceEncrypts : Prop :=
  ∀ (s : State) (a : Algorithm) (m : Mode) (klen blen : BitVec 8) (key iv text : Bytes), s.fault = none →
    (m = .tcbc → a = .tripleDes) → (a = .rc4 → key ≠ []) →
    s.inbox = [.configure (algorithmCode a) (modeCode m) klen blen, .setKey key, .setIv iv, .encrypt text].map
      (fun i => HostEvent.command (encode i)) →
      ∃ t out, Sys2Proof.core.run 4 s = .next t ∧ t.response = some (.ok out) ∧ t.pc = s.pc + 4 ∧ t.inbox = []

/-- RESYNC is DISABLE_CB followed by ENABLE_CB: both directions are discarded and continuous buffering is left on
(30_encoding.md R113). -/
def Obligations.ResyncDiscardsBothDirections : Prop :=
  ∀ s : State, s.isReady = true → s.inbox = (assemble [.resync]).map .command →
    Sys2Proof.core.run 2 s = .next { s with
      cbEnabled := true, enc := { s.enc with valid := false }, dec := { s.dec with valid := false }
      inbox := [], pc := s.pc + 2, response := some (.ok []) }

/-! ### Key schedules in their own terms -/

/-- RC4_KSA: the table starts as the identity with j = 0, and for i = 0 to 255 `j <- j + S[i] + key[i mod len(key)]` modulo 256 and
the entries at i and j change places (43_rc4.md R242). -/
def Obligations.Rc4KeyScheduleSwaps : Prop :=
  ∀ key : Bytes, key ≠ [] →
    ∃ (S : Nat → Bytes) (j : Nat → Byte),
      (S 0).length = 256 ∧ (∀ n : Byte, (S 0).getD n.toNat 0 = n) ∧ j 0 = 0
      ∧ (∀ i, i < 256 →
          j (i + 1) = j i + (S i).getD i 0 + key.getD (i % key.length) 0
          ∧ swappedAt (S i) (S (i + 1)) (BitVec.ofNat 8 i) (j (i + 1)))
      ∧ rc4Ksa key = S 256

/-- The DES schedule is that of the key's first 8 bytes, zeros after them. TripleDES takes that key three times where the key has at
most 8 bytes; else its three keys are bytes 0 to 7, 8 to 15 and 16 to 23 of the key, zeros beyond its end, so a 16-byte key gives
a third key of zeros (40_des.md R130, 41_tripledes.md R170). -/
def Obligations.DesKeysAreNormalised : Prop :=
  ∀ (bs : Nat) (klen : BitVec 8) (key : Bytes),
    ∃ k1 k2 k3 : Bytes, k1.length = 8 ∧ k2.length = 8 ∧ k3.length = 8
      ∧ deriveSchedule .des bs klen key = .ok (.des (desKeySchedule k1))
      ∧ deriveSchedule .tripleDes bs klen key
          = .ok (.tripleDes (desKeySchedule k1) (desKeySchedule k2) (desKeySchedule k3))
      ∧ (∀ n, n < 8 → k1.getD n 0 = key.getD n 0)
      ∧ (key.length ≤ 8 → k2 = k1 ∧ k3 = k1)
      ∧ (8 < key.length → ∀ n, n < 8 → k2.getD n 0 = key.getD (8 + n) 0 ∧ k3.getD n 0 = key.getD (16 + n) 0)
end

