-- ==== Sys2Proof/Laws/Bytes.lean ====
section
/-! SUPPORT. Lengths and block structure of byte strings, big-endian numbers, and the run of a text through a mode. -/

namespace Sys2Proof.Machine

/-! ### Lengths -/

@[simp] theorem zeros_length (n : Nat) : (zeros n).length = n := by simp [zeros]

@[simp] theorem fit_length (n : Nat) (b : Bytes) : (fit n b).length = n := by
  simp only [fit, List.length_append, List.length_take, zeros_length]; omega

/-- A string fitted to a length has its own bytes, and zeros beyond its end. -/
theorem fit_getD {n i : Nat} (b : Bytes) (h : i < n) : (fit n b).getD i 0 = b.getD i 0 := by
  simp only [fit, zeros, List.getD_eq_getElem?_getD]
  by_cases hi : i < b.length
  · rw [List.getElem?_append_left (by rw [List.length_take]; omega), List.getElem?_take_of_lt h]
  · rw [List.getElem?_append_right (by rw [List.length_take]; omega), List.getElem?_eq_none (by omega : b.length ≤ i),
      List.getElem?_replicate]
    split <;> rfl

@[simp] theorem beBytes_length (n v : Nat) : (beBytes n v).length = n := by
  induction n generalizing v with
  | zero => rfl
  | succ n ih => simp [beBytes, ih]

@[simp] theorem xorBytes_length (a b : Bytes) : (xorBytes a b).length = min a.length b.length := by simp [xorBytes]

/-- A byte of a slice is the byte of the string at its offset. -/
theorem slice_getD {a n i : Nat} (b : Bytes) (h : i < n) : (slice a n b).getD i 0 = b.getD (a + i) 0 := by
  simp only [slice, List.getD_eq_getElem?_getD, List.getElem?_take_of_lt h, List.getElem?_drop]

theorem slice_length (a n : Nat) (b : Bytes) : (slice a n b).length = min n (b.length - a) := by simp [slice]

@[simp] theorem normalisedLength (bs : Nat) (b : Bytes) : (fit bs b).length = bs := fit_length bs b

/-- XOR with the same string twice gives the first back. -/
theorem xorBytes_cancel (a b : Bytes) (h : a.length = b.length) : xorBytes (xorBytes a b) b = a := by
  induction a generalizing b with
  | nil => rfl
  | cons x a ih =>
    cases b with
    | nil => simp at h
    | cons y b =>
      simp only [xorBytes, List.zipWith_cons_cons, List.cons.injEq]
      exact ⟨by rw [BitVec.xor_assoc, BitVec.xor_self, BitVec.xor_zero], ih b (by simpa using h)⟩

/-! ### Big-endian numbers -/

theorem beNat_append (a b : Bytes) : beNat (a ++ b) = beNat a * 256 ^ b.length + beNat b := by
  have key : ∀ (b : Bytes) (acc : Nat),
      b.foldl (fun acc x => acc * 256 + x.toNat) acc = acc * 256 ^ b.length + beNat b := by
    intro b
    induction b with
    | nil => intro acc; simp [beNat]
    | cons x b ih =>
      intro acc
      simp only [beNat, List.foldl_cons, List.length_cons] at ih ⊢
      rw [ih, ih (0 * 256 + x.toNat)]; ring
  simpa [beNat, List.foldl_append] using key b (beNat a)

theorem beNat_lt (b : Bytes) : beNat b < 256 ^ b.length := by
  induction b using List.reverseRecOn with
  | nil => simp [beNat]
  | append_singleton b x ih =>
    have hx : x.toNat < 256 := x.isLt
    have : beNat [x] = x.toNat := by simp [beNat]
    rw [beNat_append, this, List.length_append, List.length_singleton, pow_one, Nat.pow_succ]
    omega

/-- `be_n(BE(b))` gives an n-byte string back. -/
theorem beBytes_beNat (b : Bytes) : beBytes b.length (beNat b) = b := by
  induction b using List.reverseRecOn with
  | nil => rfl
  | append_singleton b x ih =>
    have hx : x.toNat < 256 := x.isLt
    have h1 : beNat [x] = x.toNat := by simp [beNat]
    have h2 : (beNat b * 256 + x.toNat) / 256 = beNat b := by omega
    have h3 : BitVec.ofNat 8 (beNat b * 256 + x.toNat) = x := by
      apply BitVec.eq_of_toNat_eq; simp only [BitVec.toNat_ofNat]; omega
    rw [beNat_append, h1, List.length_append, List.length_singleton, pow_one, beBytes, h2, h3, ih]

/-- `BE(be_n(v)) = v mod 2^(8n)` (00_scope.md R11). -/
theorem beNat_beBytes (n v : Nat) : beNat (beBytes n v) = v % 256 ^ n := by
  induction n generalizing v with
  | zero => simp [beBytes, beNat, Nat.mod_one]
  | succ n ih =>
    have h1 : beNat [BitVec.ofNat 8 v] = v % 256 := by simp [beNat]
    rw [beBytes, beNat_append, ih, h1, List.length_singleton, pow_one, pow_succ, Nat.mul_comm (256 ^ n) 256,
      Nat.mod_mul, Nat.mul_comm]
    omega

/-! ### Blocks -/

@[simp] theorem takeBlocks_length (bs k : Nat) (b : Bytes) : (takeBlocks bs k b).length = k := by
  induction k generalizing b with
  | zero => rfl
  | succ k ih => simp [takeBlocks, ih]

@[simp] theorem blocks_length (bs : Nat) (b : Bytes) : (blocks bs b).length = b.length / bs := by simp [blocks]

theorem takeBlocks_flatten (bs k : Nat) (b : Bytes) : (takeBlocks bs k b).flatten = b.take (k * bs) := by
  induction k generalizing b with
  | zero => simp [takeBlocks]
  | succ k ih => rw [takeBlocks, List.flatten_cons, ih, ← List.take_add]; congr 1; ring

/-- The blocks of an aligned string make it up. -/
theorem blocks_flatten (bs : Nat) (b : Bytes) (h : b.length % bs = 0) : (blocks bs b).flatten = b := by
  rw [blocks, takeBlocks_flatten, Nat.div_mul_cancel (Nat.dvd_of_mod_eq_zero h), List.take_length]

theorem takeBlocks_mem_length {bs k : Nat} {b x : Bytes} (h : k * bs ≤ b.length) (hx : x ∈ takeBlocks bs k b) :
    x.length = bs := by
  induction k generalizing b with
  | zero => simp [takeBlocks] at hx
  | succ k ih =>
    rw [takeBlocks, List.mem_cons] at hx
    rw [Nat.succ_mul] at h
    rcases hx with rfl | hx
    · rw [List.length_take]; omega
    · exact ih (by rw [List.length_drop]; omega) hx

/-- Every block has `bs` bytes. -/
theorem blocks_mem_length {bs : Nat} {b x : Bytes} (hx : x ∈ blocks bs b) : x.length = bs :=
  takeBlocks_mem_length (Nat.div_mul_le_self _ _) hx

/-- The blocks of blocks put together. -/
theorem takeBlocks_of_flatten (bs : Nat) (l : List Bytes) (h : ∀ x ∈ l, x.length = bs) :
    takeBlocks bs l.length l.flatten = l := by
  induction l with
  | nil => rfl
  | cons x l ih =>
    have hx : x.length = bs := h x (List.mem_cons_self ..)
    rw [List.length_cons, takeBlocks, List.flatten_cons, List.take_left' hx, List.drop_left' hx,
      ih (fun y hy => h y (List.mem_cons_of_mem _ hy))]

theorem flatten_length_of_forall (bs : Nat) (l : List Bytes) (h : ∀ x ∈ l, x.length = bs) :
    l.flatten.length = l.length * bs := by
  induction l with
  | nil => simp
  | cons x l ih =>
    rw [List.flatten_cons, List.length_append, ih (fun y hy => h y (List.mem_cons_of_mem _ hy)),
      h x (List.mem_cons_self ..), List.length_cons]; ring

theorem blocks_of_flatten (bs : Nat) (hbs : 0 < bs) (l : List Bytes) (h : ∀ x ∈ l, x.length = bs) :
    blocks bs l.flatten = l := by
  rw [blocks, flatten_length_of_forall bs l h, Nat.mul_div_cancel _ hbs, takeBlocks_of_flatten bs l h]

/-! ### A text through a mode -/

section
variable {α β : Type} (f : DirRecord → α → β × DirRecord)

@[simp] theorem runThrough_nil (r : DirRecord) : runThrough f r [] = ([], r) := rfl

@[simp] theorem runThrough_cons (r : DirRecord) (a : α) (l : List α) :
    runThrough f r (a :: l) = ((f r a).1 :: (runThrough f (f r a).2 l).1, (runThrough f (f r a).2 l).2) := rfl

/-- One output for each input. -/
@[simp] theorem runThrough_length (r : DirRecord) (l : List α) : (runThrough f r l).1.length = l.length := by
  induction l generalizing r with
  | nil => rfl
  | cons a l ih => simp [ih]

/-- A run over a concatenation is two runs, the second from where the first ended (44_modes.md R281). -/
theorem runThrough_append (r : DirRecord) (a b : List α) :
    runThrough f r (a ++ b)
      = ((runThrough f r a).1 ++ (runThrough f (runThrough f r a).2 b).1, (runThrough f (runThrough f r a).2 b).2) := by
  induction a generalizing r with
  | nil => rfl
  | cons x a ih => simp [ih]

/-- What every element keeps, the run keeps. -/
theorem runThrough_keeps (p : DirRecord → Prop) (q : α → Prop) (hf : ∀ r a, p r → q a → p (f r a).2)
    (r : DirRecord) (l : List α) (hr : p r) (hl : ∀ a ∈ l, q a) : p (runThrough f r l).2 := by
  induction l generalizing r with
  | nil => exact hr
  | cons a l ih =>
    exact ih _ (hf r a hr (hl a (List.mem_cons_self ..))) (fun b hb => hl b (List.mem_cons_of_mem _ hb))

/-- What every output has, all outputs have. -/
theorem runThrough_outputs (p : DirRecord → Prop) (q : α → Prop) (o : β → Prop)
    (hf : ∀ r a, p r → q a → p (f r a).2 ∧ o (f r a).1)
    (r : DirRecord) (l : List α) (hr : p r) (hl : ∀ a ∈ l, q a) : ∀ b ∈ (runThrough f r l).1, o b := by
  induction l generalizing r with
  | nil => intro b hb; simp at hb
  | cons a l ih =>
    have h := hf r a hr (hl a (List.mem_cons_self ..))
    intro b hb
    rw [runThrough_cons, List.mem_cons] at hb
    rcases hb with rfl | hb
    · exact h.2
    · exact ih _ h.1 (fun c hc => hl c (List.mem_cons_of_mem _ hc)) b hb

end

/-- A run undone by another: from related records, where each step undoes its partner's and keeps them related. -/
theorem runThrough_inverts {α β : Type} (f : DirRecord → α → β × DirRecord) (g : DirRecord → β → α × DirRecord)
    (rel : DirRecord → DirRecord → Prop) (q : α → Prop)
    (h : ∀ r r' a, rel r r' → q a → (g r' (f r a).1).1 = a ∧ rel (f r a).2 (g r' (f r a).1).2)
    (r r' : DirRecord) (l : List α) (hr : rel r r') (hl : ∀ a ∈ l, q a) :
    (runThrough g r' (runThrough f r l).1).1 = l := by
  induction l generalizing r r' with
  | nil => rfl
  | cons a l ih =>
    have ha := h r r' a hr (hl a (List.mem_cons_self ..))
    rw [runThrough_cons, runThrough_cons, ha.1, ih _ _ ha.2 (fun b hb => hl b (List.mem_cons_of_mem _ hb))]

end Sys2Proof.Machine
end

