-- ==== Sys2Proof/Laws/Ciphers.lean ====
section
/-! SUPPORT. Lengths of the schedules and blocks of each cipher, the shape of a derived schedule, and bit selection. -/

namespace Sys2Proof.Machine

/-! ### Bit selection -/

theorem selectBits_testBit (bits : List Bool) (acc i : Nat) :
    (bits.foldl (fun acc b => 2 * acc + b.toNat) acc).testBit i
      = if i < bits.length then bits.reverse.getD i false else acc.testBit (i - bits.length) := by
  induction bits using List.reverseRecOn generalizing i with
  | nil => simp
  | append_singleton bits b ih =>
    rw [List.foldl_append, List.foldl_cons, List.foldl_nil]
    cases i with
    | zero => cases b <;> simp [Nat.testBit_zero]
    | succ i =>
      rw [Nat.testBit_succ, show (2 * bits.foldl (fun acc b => 2 * acc + b.toNat) acc + b.toNat) / 2
        = bits.foldl (fun acc b => 2 * acc + b.toNat) acc by cases b <;> (simp; try omega), ih]
      simp [Nat.add_sub_add_right]

/-- Bit k of `permute`, numbered from the most significant, is the bit of the argument the table names (00_scope.md R12). -/
theorem permute_getMsbD {n : Nat} (m : Nat) (table : List Nat) (v : BitVec n) (h : table.length = m) (k : Nat) (hk : k < m) :
    (permute m table v).getMsbD k = v.getMsbD (table.getD k 0 - 1) := by
  have hf : table.foldl (fun acc k => 2 * acc + (v.getMsbD (k - 1)).toNat) 0
      = (table.map fun k => v.getMsbD (k - 1)).foldl (fun acc b => 2 * acc + b.toNat) 0 := by
    rw [List.foldl_map]
  have hlen : m - 1 - k < table.length := by omega
  have hk' : k < table.length := by omega
  rw [permute, hf, BitVec.getMsbD_eq_getLsbD, BitVec.getLsbD_ofNat, selectBits_testBit]
  have hm : m - 1 - k < m := by omega
  simp [hk, hm, List.getD_eq_getElem?_getD, h, show m - 1 - (m - 1 - k) = k by omega]

/-! ### DES and TripleDES -/

theorem desScheduleRounds_length (C D : BitVec 28) (shifts : List Nat) :
    (desScheduleRounds C D shifts).length = shifts.length := by
  induction shifts generalizing C D with
  | nil => rfl
  | cons n shifts ih => simp [desScheduleRounds, ih]

@[simp] theorem desKeySchedule_length (key : Bytes) : (desKeySchedule key).length = 16 :=
  desScheduleRounds_length ..

/-- The three DES keys of TripleDES have 8 bytes each (41_tripledes.md R170). -/
theorem tripleDesKeys_length (key : Bytes) :
    (tripleDesKeys key).1.length = 8 ∧ (tripleDesKeys key).2.1.length = 8 ∧ (tripleDesKeys key).2.2.length = 8 := by
  unfold tripleDesKeys
  split <;> simp [desKey, slice_length]

@[simp] theorem desEncryptBlock_length (ks : List DesSubkey) (x : Bytes) : (desEncryptBlock ks x).length = 8 :=
  beBytes_length ..

@[simp] theorem desDecryptBlock_length (ks : List DesSubkey) (x : Bytes) : (desDecryptBlock ks x).length = 8 :=
  beBytes_length ..

@[simp] theorem tripleDesEncryptBlock_length (ks1 ks2 ks3 : List DesSubkey) (x : Bytes) :
    (tripleDesEncryptBlock ks1 ks2 ks3 x).length = 8 := beBytes_length ..

@[simp] theorem tripleDesDecryptBlock_length (ks1 ks2 ks3 : List DesSubkey) (x : Bytes) :
    (tripleDesDecryptBlock ks1 ks2 ks3 x).length = 8 := beBytes_length ..

/-! ### Rijndael -/

theorem loadColumns_length (x : Bytes) : (loadColumns x).length = x.length / 4 := by
  fun_induction loadColumns x with
  | case1 b0 b1 b2 b3 rest ih => simp [ih]; omega
  | case2 x h =>
    match x, h with
    | [], _ | [_], _ | [_, _], _ | [_, _, _], _ => simp
    | a :: b :: c :: d :: rest, h => exact absurd rfl (h a b c d rest)

@[simp] theorem storeColumns_length (s : List Column) : (storeColumns s).length = 4 * s.length := by
  induction s with
  | nil => rfl
  | cons a s ih => simp [storeColumns, ih]; omega

/-- Loading undoes storing (20_memory.md R74). -/
@[simp] theorem loadColumns_storeColumns (s : List Column) : loadColumns (storeColumns s) = s := by
  induction s with
  | nil => rfl
  | cons a s ih => simp [storeColumns, loadColumns, ih]

/-- Storing undoes loading on a whole number of words (20_memory.md R74). -/
theorem storeColumns_loadColumns (x : Bytes) (h : x.length % 4 = 0) : storeColumns (loadColumns x) = x := by
  fun_induction loadColumns x with
  | case1 b0 b1 b2 b3 rest ih =>
    simp only [List.length_cons] at h
    simp [storeColumns, ih (by omega)]
  | case2 x hx =>
    match x, hx with
    | [], _ => rfl
    | [_], _ | [_, _], _ | [_, _, _], _ => simp at h
    | a :: b :: c :: d :: rest, hx => exact absurd rfl (hx a b c d rest)

@[simp] theorem subBytes_length (s : List Column) : (subBytes s).length = s.length := by simp [subBytes]
@[simp] theorem invSubBytes_length (s : List Column) : (invSubBytes s).length = s.length := by simp [invSubBytes]
@[simp] theorem shiftRows_length (nb : Nat) (s : List Column) : (shiftRows nb s).length = nb := by simp [shiftRows]
@[simp] theorem invShiftRows_length (nb : Nat) (s : List Column) : (invShiftRows nb s).length = nb := by simp [invShiftRows]

/-- A round key of a schedule of `Nb·(Nr+1)` words is a whole one. -/
theorem addRoundKey_length {nb nr r : Nat} {w s : List Column} (hw : w.length = nb * (nr + 1)) (hr : r ≤ nr)
    (hs : s.length = nb) : (addRoundKey nb w r s).length = nb := by
  have : r * nb + nb ≤ w.length := by
    rw [hw, ← Nat.succ_mul, Nat.mul_comm]; exact Nat.mul_le_mul_left _ (by omega)
  simp only [addRoundKey, List.length_zipWith, List.length_take, List.length_drop, hs]; omega

theorem foldl_rounds_length {nb nr : Nat} (f : List Column → Nat → List Column) (rounds : List Nat) (s : List Column)
    (hf : ∀ s r, s.length = nb → r ≤ nr → (f s r).length = nb) (hr : ∀ r ∈ rounds, r ≤ nr) (hs : s.length = nb) :
    (rounds.foldl f s).length = nb := by
  induction rounds generalizing s with
  | nil => exact hs
  | cons r rounds ih =>
    exact ih _ (fun q hq => hr q (List.mem_cons_of_mem _ hq)) (hf s r hs (hr r (List.mem_cons_self ..)))

/-- A Rijndael block is as long as its block length. -/
theorem rijndaelEncryptBlock_length {nb nr : Nat} {w : List Column} {x : Bytes} (hw : w.length = nb * (nr + 1))
    (hx : x.length = 4 * nb) : (rijndaelEncryptBlock nb nr w x).length = 4 * nb := by
  have h0 : (loadColumns x).length = nb := by rw [loadColumns_length, hx]; omega
  rw [rijndaelEncryptBlock, storeColumns_length, addRoundKey_length hw (Nat.le_refl nr)]
  simp

theorem rijndaelDecryptBlock_length {nb nr : Nat} {dw : List Column} {x : Bytes} (hw : dw.length = nb * (nr + 1)) :
    (rijndaelDecryptBlock nb nr dw x).length = 4 * nb := by
  rw [rijndaelDecryptBlock, storeColumns_length, addRoundKey_length hw (Nat.zero_le nr)]
  simp

@[simp] theorem expandKeyFrom_length (nk fuel : Nat) (w : List Column) :
    (expandKeyFrom nk fuel w).length = w.length + fuel := by
  induction fuel generalizing w with
  | zero => rfl
  | succ fuel ih => rw [expandKeyFrom, ih]; simp; omega

/-- The words already there stay. -/
theorem expandKeyFrom_prefix (nk fuel : Nat) (w : List Column) : w <+: expandKeyFrom nk fuel w := by
  induction fuel generalizing w with
  | zero => exact List.prefix_refl w
  | succ fuel ih => exact (List.prefix_append _ _).trans (ih _)

/-- The key of the block cipher is 16, 20, 24, 28 or 32 bytes long (42_rijndael.md R191). -/
theorem rijndaelKey_length (klen : BitVec 8) (key : Bytes) :
    (rijndaelKey klen key).length = rijndaelKeyLength klen key := fit_length ..

theorem rijndaelKeyLength_range (klen : BitVec 8) (key : Bytes) :
    16 ≤ rijndaelKeyLength klen key ∧ rijndaelKeyLength klen key ≤ 32 ∧ rijndaelKeyLength klen key % 4 = 0 := by
  simp only [rijndaelKeyLength]; omega

/-- A legal block length (10_state.md R36, 42_rijndael.md R192). -/
theorem rijndaelBlockLen_legal (B : BitVec 8) : rijndaelBlockLen B ∈ [16, 20, 24, 28, 32] := by
  simp only [rijndaelBlockLen, List.mem_cons, List.not_mem_nil, or_false]
  split <;> omega

/-- The expanded key has `Nb·(Nr+1)` words (42_rijndael.md R200). -/
theorem rijndaelExpandKey_length {nb : Nat} {key : Bytes} (hb : 4 ≤ nb) :
    (rijndaelExpandKey nb key).length = nb * (rijndaelRounds nb (key.length / 4) + 1) := by
  have h1 : 4 * (max nb (key.length / 4) + 6 + 1) ≤ nb * (max nb (key.length / 4) + 6 + 1) :=
    Nat.mul_le_mul_right _ hb
  simp only [rijndaelExpandKey, expandKeyFrom_length, List.length_take, loadColumns_length, rijndaelRounds] at h1 ⊢
  omega

@[simp] theorem rijndaelDecryptionSchedule_length (nb nr : Nat) (w : List Column) :
    (rijndaelDecryptionSchedule nb nr w).length = nb * (nr + 1) := by simp [rijndaelDecryptionSchedule]

/-! ### RC4 -/

@[simp] theorem permSwap_length (S : Bytes) (i j : Byte) : (permSwap S i j).length = S.length := by simp [permSwap]

@[simp] theorem ksaLoop_length (key : Bytes) (l : List Nat) (j : Byte) (S : Bytes) :
    (ksaLoop key l j S).length = S.length := by
  induction l generalizing j S with
  | nil => rfl
  | cons i l ih => simp [ksaLoop, ih]

@[simp] theorem permIdentity_length : permIdentity.length = 256 := by simp [permIdentity]

@[simp] theorem rc4Ksa_length (key : Bytes) : (rc4Ksa key).length = 256 := by simp [rc4Ksa]

/-- A swap permutes the table (43_rc4.md R242). -/
theorem permSwap_perm (S : Bytes) (i j : Byte) (h : S.length = 256) : (permSwap S i j).Perm S := by
  have hi : i.toNat < S.length := by rw [h]; exact i.isLt
  have hj : j.toNat < S.length := by rw [h]; exact j.isLt
  rw [permSwap, permAt, permAt, List.getD_eq_getElem _ _ hi, List.getD_eq_getElem _ _ hj]
  exact List.set_set_perm hi hj

/-- What a swap leaves at each entry (43_rc4.md R242). -/
theorem permSwap_swappedAt (S : Bytes) (i j : Byte) (h : S.length = 256) : swappedAt S (permSwap S i j) i j := by
  refine ⟨by rw [permSwap_length, h], fun n => ?_⟩
  have hn : n.toNat < S.length := by rw [h]; exact n.isLt
  have hi : i.toNat < S.length := by rw [h]; exact i.isLt
  simp only [permSwap, permAt, List.getD_eq_getElem?_getD, List.getElem?_set, List.length_set, BitVec.toNat_inj, eq_comm (b := n)]
  by_cases hj : n = j <;> by_cases hni : n = i <;> simp_all

/-- One byte of RC4 exchanges the entries at the new indices (43_rc4.md R245). -/
theorem rc4Step_swappedAt (r : DirRecord) (b : Byte) (h : r.s.length = 256) :
    swappedAt r.s (rc4Step r b).2.s (rc4Step r b).2.i (rc4Step r b).2.j := permSwap_swappedAt _ _ _ h

/-! ### The derived schedule -/

/-- A derived schedule has its shape (10_state.md R41, 45_control.md R334). -/
theorem deriveSchedule_fits {alg : Algorithm} {bs : Nat} {klen : BitVec 8} {key : Bytes} {sched : Schedule}
    (hbs : bs ∈ [16, 20, 24, 28, 32] ∨ (alg ≠ .rijndael ∧ alg ≠ .aes)) (h : deriveSchedule alg bs klen key = .ok sched) :
    sched.fits alg bs = true := by
  have rij : bs ∈ [16, 20, 24, 28, 32] → alg = .rijndael ∨ alg = .aes →
      (rijndaelSchedule bs klen key).fits alg bs = true := by
    intro hb ha
    simp only [List.mem_cons, List.not_mem_nil, or_false] at hb
    have h4 : 4 * (bs / 4) = bs := by omega
    have hl := rijndaelExpandKey_length (nb := bs / 4) (key := rijndaelKey klen key) (by omega)
    simp only [rijndaelSchedule, Schedule.fits, h4, hl, rijndaelDecryptionSchedule_length]
    rcases ha with rfl | rfl <;> simp
  cases alg with
  | des => cases h; simp [Schedule.fits]
  | tripleDes => cases h; simp [tripleDesSchedule, Schedule.fits]
  | rijndael => cases h; exact rij (by simpa using hbs) (.inl rfl)
  | aes => cases h; exact rij (by simpa using hbs) (.inr rfl)
  | rc4 =>
    simp only [deriveSchedule] at h
    split at h
    · cases h
    · cases h; simp [Schedule.fits]

/-- Derivation fails on an empty RC4 key and there only (43_rc4.md R243). -/
theorem deriveSchedule_error {alg : Algorithm} {bs : Nat} {klen : BitVec 8} {key : Bytes} {r : FaultReason}
    (h : deriveSchedule alg bs klen key = .error r) : alg = .rc4 ∧ key = [] ∧ r = .emptyRc4Key := by
  cases alg with
  | des => cases h
  | tripleDes => cases h
  | rijndael => cases h
  | aes => cases h
  | rc4 =>
    simp only [deriveSchedule] at h
    split at h
    · cases h; exact ⟨rfl, List.length_eq_zero_iff.mp ‹_›, rfl⟩
    · cases h

/-- The block transforms of a schedule that fits keep the block size. -/
theorem blockCipher_length {alg : Algorithm} {bs : Nat} {sched : Schedule} {c : BlockCipher} {x : Bytes}
    (hf : sched.fits alg bs = true) (hbs : alg = .des ∨ alg = .tripleDes → bs = 8) (hc : blockCipher sched = some c)
    (hx : x.length = bs) : (c.E x).length = bs ∧ (c.D x).length = bs := by
  cases sched with
  | des ks =>
    cases hc
    simp only [Schedule.fits, Bool.and_eq_true, beq_iff_eq] at hf
    simp [hbs (.inl hf.1)]
  | tripleDes ks1 ks2 ks3 =>
    cases hc
    simp only [Schedule.fits, Bool.and_eq_true, beq_iff_eq] at hf
    simp [hbs (.inr hf.1.1.1)]
  | rijndael nb nk nr w dw =>
    cases hc
    simp only [Schedule.fits, Bool.and_eq_true, beq_iff_eq] at hf
    obtain ⟨⟨⟨⟨_, rfl⟩, _⟩, hw⟩, hdw⟩ := hf
    exact ⟨rijndaelEncryptBlock_length hw hx, rijndaelDecryptBlock_length hdw⟩
  | rc4 s0 => cases hc

end Sys2Proof.Machine
end

