-- ==== Sys2Proof/Laws/Modes.lean ====
section
/-! SUPPORT. What each mode leaves: the widths of the direction record, its valid bit, and the length of the output. -/

namespace Sys2Proof.Machine

/-! ### One element -/

/-- The record keeps the widths of 10_state.md R42 and its valid bit. -/
abbrev DirRecord.Kept (alg : Algorithm) (mode : Mode) (bs : Nat) (v : Bool) (r : DirRecord) : Prop :=
  r.fits alg mode bs = true ∧ r.valid = v

/-- The widths of a record that is not RC4's. -/
theorem DirRecord.fits_block {alg : Algorithm} {mode : Mode} {bs : Nat} {r : DirRecord} (ha : alg ≠ .rc4) :
    r.fits alg mode bs = true ↔ r.reg.length = bs ∧ r.ks.length = bs ∧ r.pos < bs
      ∧ (mode = .tcbc → r.c1.length = 8 ∧ r.c2.length = 8 ∧ r.c3.length = 8) := by
  cases alg <;> first | exact absurd rfl ha | (cases mode <;> simp [DirRecord.fits, and_assoc])

section
variable {alg : Algorithm} {mode : Mode} {bs : Nat} {v : Bool} {r : DirRecord}

theorem ecbStep_kept (F : Bytes → Bytes) (x : Bytes) (h : r.Kept alg mode bs v) : (ecbStep F r x).2.Kept alg mode bs v := h

theorem cbcEncryptStep_kept (E : Bytes → Bytes) (x : Bytes) (ha : alg ≠ .rc4)
    (hE : ∀ y, y.length = bs → (E y).length = bs) (hx : x.length = bs) (h : r.Kept alg mode bs v) :
    (cbcEncryptStep E r x).2.Kept alg mode bs v ∧ (cbcEncryptStep E r x).1.length = bs := by
  have hr := (DirRecord.fits_block ha).mp h.1
  have hc : (E (xorBytes x r.reg)).length = bs := hE _ (by simp [hx, hr.1])
  exact ⟨⟨(DirRecord.fits_block ha).mpr ⟨hc, hr.2⟩, h.2⟩, hc⟩

theorem cbcDecryptStep_kept (D : Bytes → Bytes) (x : Bytes) (ha : alg ≠ .rc4)
    (hD : ∀ y, y.length = bs → (D y).length = bs) (hx : x.length = bs) (h : r.Kept alg mode bs v) :
    (cbcDecryptStep D r x).2.Kept alg mode bs v ∧ (cbcDecryptStep D r x).1.length = bs := by
  have hr := (DirRecord.fits_block ha).mp h.1
  exact ⟨⟨(DirRecord.fits_block ha).mpr ⟨hx, hr.2⟩, h.2⟩, by simp [cbcDecryptStep, hD x hx, hr.1]⟩

theorem cfbEncryptStep_kept (E : Bytes → Bytes) (b : Byte) (ha : alg ≠ .rc4)
    (hE : ∀ y, y.length = bs → (E y).length = bs) (h : r.Kept alg mode bs v) :
    (cfbEncryptStep E bs r b).2.Kept alg mode bs v := by
  obtain ⟨h1, h2, h3, h4⟩ := (DirRecord.fits_block ha).mp h.1
  refine ⟨(DirRecord.fits_block ha).mpr ⟨by simp [cfbEncryptStep, h1], ?_, Nat.mod_lt _ (by omega), h4⟩, h.2⟩
  simp only [cfbEncryptStep]; split
  · exact hE _ h1
  · exact h2

theorem cfbDecryptStep_kept (E : Bytes → Bytes) (b : Byte) (ha : alg ≠ .rc4)
    (hE : ∀ y, y.length = bs → (E y).length = bs) (h : r.Kept alg mode bs v) :
    (cfbDecryptStep E bs r b).2.Kept alg mode bs v := by
  obtain ⟨h1, h2, h3, h4⟩ := (DirRecord.fits_block ha).mp h.1
  refine ⟨(DirRecord.fits_block ha).mpr ⟨by simp [cfbDecryptStep, h1], ?_, Nat.mod_lt _ (by omega), h4⟩, h.2⟩
  simp only [cfbDecryptStep]; split
  · exact hE _ h1
  · exact h2

theorem ofbStep_kept (E : Bytes → Bytes) (b : Byte) (ha : alg ≠ .rc4)
    (hE : ∀ y, y.length = bs → (E y).length = bs) (h : r.Kept alg mode bs v) : (ofbStep E bs r b).2.Kept alg mode bs v := by
  obtain ⟨h1, h2, h3, h4⟩ := (DirRecord.fits_block ha).mp h.1
  refine ⟨(DirRecord.fits_block ha).mpr ⟨?_, ?_, Nat.mod_lt _ (by omega), h4⟩, h.2⟩ <;>
    (simp only [ofbStep]; split <;> first | exact hE _ h1 | assumption)

@[simp] theorem ctrIncWords_length (n : Nat) (ctr : Bytes) (h : 4 * n ≤ ctr.length) :
    (ctrIncWords n ctr).length = ctr.length := by
  induction n generalizing ctr with
  | zero => rfl
  | succ n ih =>
    have hl : ∀ v, (ctr.take (4 * n) ++ beBytes 4 v ++ ctr.drop (4 * n + 4)).length = ctr.length := by
      intro v; simp only [List.length_append, List.length_take, List.length_drop, beBytes_length]; omega
    simp only [ctrIncWords]; split
    · exact hl _
    · rw [ih _ (by rw [hl]; omega), hl]

@[simp] theorem ctrInc_length (ctr : Bytes) : (ctrInc ctr).length = ctr.length :=
  ctrIncWords_length _ _ (Nat.mul_div_le _ _)

theorem ctrStep_kept (E : Bytes → Bytes) (b : Byte) (ha : alg ≠ .rc4)
    (hE : ∀ y, y.length = bs → (E y).length = bs) (h : r.Kept alg mode bs v) : (ctrStep E bs r b).2.Kept alg mode bs v := by
  obtain ⟨h1, h2, h3, h4⟩ := (DirRecord.fits_block ha).mp h.1
  refine ⟨(DirRecord.fits_block ha).mpr ⟨?_, ?_, Nat.mod_lt _ (by omega), h4⟩, h.2⟩ <;>
    (simp only [ctrStep]; split <;> first | exact hE _ h1 | assumption | simpa using h1)

theorem tcbcEncryptStep_kept (ks1 ks2 ks3 : List DesSubkey) (x : Bytes) (ha : alg ≠ .rc4) (_ : x.length = 8)
    (h : r.Kept alg .tcbc bs v) :
    (tcbcEncryptStep ks1 ks2 ks3 r x).2.Kept alg .tcbc bs v ∧ (tcbcEncryptStep ks1 ks2 ks3 r x).1.length = 8 := by
  have hr := (DirRecord.fits_block ha).mp h.1
  exact ⟨⟨(DirRecord.fits_block ha).mpr ⟨hr.1, hr.2.1, hr.2.2.1, by simp [tcbcEncryptStep]⟩, h.2⟩, by simp [tcbcEncryptStep]⟩

theorem tcbcDecryptStep_kept (ks1 ks2 ks3 : List DesSubkey) (x : Bytes) (ha : alg ≠ .rc4) (hx : x.length = 8)
    (h : r.Kept alg .tcbc bs v) :
    (tcbcDecryptStep ks1 ks2 ks3 r x).2.Kept alg .tcbc bs v ∧ (tcbcDecryptStep ks1 ks2 ks3 r x).1.length = 8 := by
  have hr := (DirRecord.fits_block ha).mp h.1
  exact ⟨⟨(DirRecord.fits_block ha).mpr ⟨hr.1, hr.2.1, hr.2.2.1, by simp [tcbcDecryptStep, hx]⟩, h.2⟩,
    by simp [tcbcDecryptStep, (hr.2.2.2 rfl).1]⟩

theorem rc4Step_kept (b : Byte) (h : r.Kept .rc4 mode bs v) : (rc4Step r b).2.Kept .rc4 mode bs v := by
  simpa [DirRecord.Kept, DirRecord.fits, rc4Step] using h

end

/-! ### A whole text -/

/-- What a mode function that answers has done: the record keeps its widths and its valid bit. -/
def ModeResult.Keeps (res : ModeResult) (s : State) (r : DirRecord) : Prop :=
  ∀ out r', res = .ok (out, r') → r.fits s.alg s.mode s.bs = true →
    r'.fits s.alg s.mode s.bs = true ∧ r'.valid = r.valid

theorem cryptStream_keeps {s : State} {r : DirRecord} {f : DirRecord → Byte → Byte × DirRecord} (text : Bytes)
    (hf : ∀ q b, q.Kept s.alg s.mode s.bs r.valid → (f q b).2.Kept s.alg s.mode s.bs r.valid) :
    ModeResult.Keeps (cryptStream f r text) s r := by
  intro out r' h hr
  cases h
  exact runThrough_keeps f (fun q => q.Kept s.alg s.mode s.bs r.valid) (fun _ => True) (fun q b hq _ => hf q b hq) r text
    ⟨hr, rfl⟩ (fun _ _ => trivial)

theorem runBlocks_kept {s : State} {r : DirRecord} {f : DirRecord → Bytes → Bytes × DirRecord} (X : Bytes)
    (hf : ∀ q x, x.length = s.bs → q.Kept s.alg s.mode s.bs r.valid → (f q x).2.Kept s.alg s.mode s.bs r.valid)
    (hr : r.fits s.alg s.mode s.bs = true) : (runBlocks s.bs f r X).2.Kept s.alg s.mode s.bs r.valid :=
  runThrough_keeps f (fun q => q.Kept s.alg s.mode s.bs r.valid) (fun x => x.length = s.bs) (fun q x hq hx => hf q x hx hq) r
    (blocks s.bs X) ⟨hr, rfl⟩ (fun _ hx => blocks_mem_length hx)

/-- A block-aligned encryption answers the blocks of the padded input, or refuses an unaligned one (44_modes.md R268, R269). -/
theorem encryptAligned_eq (padEnabled : Bool) (bs : Nat) (f : DirRecord → Bytes → Bytes × DirRecord) (r : DirRecord) (M : Bytes) :
    encryptAligned padEnabled bs f r M
      = if padEnabled = false ∧ M.length % bs ≠ 0 then .error .unalignedInput
        else .ok (some (runBlocks bs f r (if padEnabled then pad bs M else M)).1,
          (runBlocks bs f r (if padEnabled then pad bs M else M)).2) := by
  cases padEnabled <;> simp [encryptAligned]

/-- A block-aligned decryption answers the blocks of the input, the padding removed, or refuses an unaligned one
(44_modes.md R268, R269). -/
theorem decryptAligned_eq (padEnabled : Bool) (bs : Nat) (f : DirRecord → Bytes → Bytes × DirRecord) (r : DirRecord) (C : Bytes) :
    decryptAligned padEnabled bs f r C
      = if C.length % bs ≠ 0 then .error .unalignedInput
        else .ok (if padEnabled then unpad bs (runBlocks bs f r C).1 else some (runBlocks bs f r C).1,
          (runBlocks bs f r C).2) := by
  simp [decryptAligned]

theorem encryptAligned_keeps {s : State} {r : DirRecord} {f : DirRecord → Bytes → Bytes × DirRecord} (p : Bool) (X : Bytes)
    (hf : ∀ q x, x.length = s.bs → q.Kept s.alg s.mode s.bs r.valid → (f q x).2.Kept s.alg s.mode s.bs r.valid) :
    ModeResult.Keeps (encryptAligned p s.bs f r X) s r := by
  intro out r' h hr
  rw [encryptAligned_eq] at h
  split at h
  · cases h
  · cases h; exact runBlocks_kept _ hf hr

theorem decryptAligned_keeps {s : State} {r : DirRecord} {f : DirRecord → Bytes → Bytes × DirRecord} (p : Bool) (X : Bytes)
    (hf : ∀ q x, x.length = s.bs → q.Kept s.alg s.mode s.bs r.valid → (f q x).2.Kept s.alg s.mode s.bs r.valid) :
    ModeResult.Keeps (decryptAligned p s.bs f r X) s r := by
  intro out r' h hr
  rw [decryptAligned_eq] at h
  split at h
  · cases h
  · cases h; exact runBlocks_kept _ hf hr

/-! ### ENCRYPT and DECRYPT -/

/-- A schedule with block transforms is not RC4's. -/
theorem alg_of_blockCipher {alg : Algorithm} {bs : Nat} {sched : Schedule} {c : BlockCipher}
    (hf : sched.fits alg bs = true) (hc : blockCipher sched = some c) : alg ≠ .rc4 := by
  rintro rfl
  cases sched <;> simp_all [Schedule.fits, blockCipher]

/-- A schedule without block transforms is RC4's. -/
theorem alg_of_no_blockCipher {alg : Algorithm} {bs : Nat} {sched : Schedule}
    (hf : sched.fits alg bs = true) (hc : blockCipher sched = none) : alg = .rc4 := by
  cases sched <;> simp_all [Schedule.fits, blockCipher]

/-- The block size of DES and TripleDES is 8 (10_state.md R36). -/
theorem State.bs_of_des {s : State} (h : s.alg = .des ∨ s.alg = .tripleDes) : s.bs = 8 := by
  rcases h with h | h <;> simp [State.bs, blockSizeOf, h]

theorem encryptText_keeps {s : State} {sched : Schedule} {r : DirRecord} (text : Bytes)
    (hf : sched.fits s.alg s.bs = true) : ModeResult.Keeps (encryptText s sched r text) s r := by
  unfold encryptText
  cases hc : blockCipher sched with
  | none =>
    refine cryptStream_keeps _ fun q b hq => ?_
    rw [alg_of_no_blockCipher hf hc] at hq ⊢
    exact rc4Step_kept b hq
  | some c =>
    have ha := alg_of_blockCipher hf hc
    have hE : ∀ y, y.length = s.bs → (c.E y).length = s.bs := fun y hy => (blockCipher_length hf State.bs_of_des hc hy).1
    cases hm : s.mode with
    | ecb => exact encryptAligned_keeps _ _ fun q x _ hq => hq
    | cbc => exact encryptAligned_keeps _ _ fun q x hx hq => (cbcEncryptStep_kept _ x ha hE hx hq).1
    | cfb => exact cryptStream_keeps _ fun q b hq => cfbEncryptStep_kept _ b ha hE hq
    | ofb => exact cryptStream_keeps _ fun q b hq => ofbStep_kept _ b ha hE hq
    | ctr => exact cryptStream_keeps _ fun q b hq => ctrStep_kept _ b ha hE hq
    | tcbc =>
      cases sched with
      | tripleDes ks1 ks2 ks3 =>
        simp only [Schedule.fits, Bool.and_eq_true, beq_iff_eq] at hf
        have h8 := State.bs_of_des (.inr hf.1.1.1)
        refine encryptAligned_keeps _ _ fun q x hx hq => ?_
        rw [hm] at hq ⊢
        exact (tcbcEncryptStep_kept ks1 ks2 ks3 x ha (hx.trans h8) hq).1
      | des _ | rijndael _ _ _ _ _ | rc4 _ => intro out r' h; cases h

theorem decryptText_keeps {s : State} {sched : Schedule} {r : DirRecord} (text : Bytes)
    (hf : sched.fits s.alg s.bs = true) : ModeResult.Keeps (decryptText s sched r text) s r := by
  unfold decryptText
  cases hc : blockCipher sched with
  | none =>
    refine cryptStream_keeps _ fun q b hq => ?_
    rw [alg_of_no_blockCipher hf hc] at hq ⊢
    exact rc4Step_kept b hq
  | some c =>
    have ha := alg_of_blockCipher hf hc
    have hE : ∀ y, y.length = s.bs → (c.E y).length = s.bs := fun y hy => (blockCipher_length hf State.bs_of_des hc hy).1
    have hD : ∀ y, y.length = s.bs → (c.D y).length = s.bs := fun y hy => (blockCipher_length hf State.bs_of_des hc hy).2
    cases hm : s.mode with
    | ecb => exact decryptAligned_keeps _ _ fun q x _ hq => hq
    | cbc => exact decryptAligned_keeps _ _ fun q x hx hq => (cbcDecryptStep_kept _ x ha hD hx hq).1
    | cfb => exact cryptStream_keeps _ fun q b hq => cfbDecryptStep_kept _ b ha hE hq
    | ofb => exact cryptStream_keeps _ fun q b hq => ofbStep_kept _ b ha hE hq
    | ctr => exact cryptStream_keeps _ fun q b hq => ctrStep_kept _ b ha hE hq
    | tcbc =>
      cases sched with
      | tripleDes ks1 ks2 ks3 =>
        simp only [Schedule.fits, Bool.and_eq_true, beq_iff_eq] at hf
        have h8 := State.bs_of_des (.inr hf.1.1.1)
        refine decryptAligned_keeps _ _ fun q x hx hq => ?_
        rw [hm] at hq ⊢
        exact (tcbcDecryptStep_kept ks1 ks2 ks3 x ha (hx.trans h8) hq).1
      | des _ | rijndael _ _ _ _ _ | rc4 _ => intro out r' h; cases h

end Sys2Proof.Machine
end

