-- ==== Sys2Proof/Laws/State.lean ====
section
/-! SUPPORT. What each update of the state does to each field, and to the direction records. All true by rfl. -/

namespace Sys2Proof.Machine

/-! ### markDirty -/

@[simp] theorem State.markDirty_configured (s : State) : s.markDirty.configured = s.configured := rfl
@[simp] theorem State.markDirty_alg (s : State) : s.markDirty.alg = s.alg := rfl
@[simp] theorem State.markDirty_mode (s : State) : s.markDirty.mode = s.mode := rfl
@[simp] theorem State.markDirty_keyReg (s : State) : s.markDirty.keyReg = s.keyReg := rfl
@[simp] theorem State.markDirty_keyLenParam (s : State) : s.markDirty.keyLenParam = s.keyLenParam := rfl
@[simp] theorem State.markDirty_blockLen (s : State) : s.markDirty.blockLen = s.blockLen := rfl
@[simp] theorem State.markDirty_ivReg (s : State) : s.markDirty.ivReg = s.ivReg := rfl
@[simp] theorem State.markDirty_dirty (s : State) : s.markDirty.dirty = true := rfl
@[simp] theorem State.markDirty_cbEnabled (s : State) : s.markDirty.cbEnabled = s.cbEnabled := rfl
@[simp] theorem State.markDirty_padEnabled (s : State) : s.markDirty.padEnabled = s.padEnabled := rfl
@[simp] theorem State.markDirty_sched (s : State) : s.markDirty.sched = s.sched := rfl
@[simp] theorem State.markDirty_enc (s : State) : s.markDirty.enc = s.enc := rfl
@[simp] theorem State.markDirty_dec (s : State) : s.markDirty.dec = s.dec := rfl
@[simp] theorem State.markDirty_fault (s : State) : s.markDirty.fault = s.fault := rfl
@[simp] theorem State.markDirty_pc (s : State) : s.markDirty.pc = s.pc := rfl
@[simp] theorem State.markDirty_inbox (s : State) : s.markDirty.inbox = s.inbox := rfl
@[simp] theorem State.markDirty_response (s : State) : s.markDirty.response = s.response := rfl

/-! ### discard -/

@[simp] theorem State.discard_configured (s : State) : s.discard.configured = s.configured := rfl
@[simp] theorem State.discard_alg (s : State) : s.discard.alg = s.alg := rfl
@[simp] theorem State.discard_mode (s : State) : s.discard.mode = s.mode := rfl
@[simp] theorem State.discard_keyReg (s : State) : s.discard.keyReg = s.keyReg := rfl
@[simp] theorem State.discard_keyLenParam (s : State) : s.discard.keyLenParam = s.keyLenParam := rfl
@[simp] theorem State.discard_blockLen (s : State) : s.discard.blockLen = s.blockLen := rfl
@[simp] theorem State.discard_ivReg (s : State) : s.discard.ivReg = s.ivReg := rfl
@[simp] theorem State.discard_dirty (s : State) : s.discard.dirty = s.dirty := rfl
@[simp] theorem State.discard_cbEnabled (s : State) : s.discard.cbEnabled = s.cbEnabled := rfl
@[simp] theorem State.discard_padEnabled (s : State) : s.discard.padEnabled = s.padEnabled := rfl
@[simp] theorem State.discard_sched (s : State) : s.discard.sched = s.sched := rfl
@[simp] theorem State.discard_enc (s : State) : s.discard.enc = { s.enc with valid := false } := rfl
@[simp] theorem State.discard_dec (s : State) : s.discard.dec = { s.dec with valid := false } := rfl
@[simp] theorem State.discard_fault (s : State) : s.discard.fault = s.fault := rfl
@[simp] theorem State.discard_pc (s : State) : s.discard.pc = s.pc := rfl
@[simp] theorem State.discard_inbox (s : State) : s.discard.inbox = s.inbox := rfl
@[simp] theorem State.discard_response (s : State) : s.discard.response = s.response := rfl

/-! ### setCb -/

@[simp] theorem State.setCb_configured (s : State) (b : Bool) : (s.setCb b).configured = s.configured := rfl
@[simp] theorem State.setCb_alg (s : State) (b : Bool) : (s.setCb b).alg = s.alg := rfl
@[simp] theorem State.setCb_mode (s : State) (b : Bool) : (s.setCb b).mode = s.mode := rfl
@[simp] theorem State.setCb_keyReg (s : State) (b : Bool) : (s.setCb b).keyReg = s.keyReg := rfl
@[simp] theorem State.setCb_keyLenParam (s : State) (b : Bool) : (s.setCb b).keyLenParam = s.keyLenParam := rfl
@[simp] theorem State.setCb_blockLen (s : State) (b : Bool) : (s.setCb b).blockLen = s.blockLen := rfl
@[simp] theorem State.setCb_ivReg (s : State) (b : Bool) : (s.setCb b).ivReg = s.ivReg := rfl
@[simp] theorem State.setCb_dirty (s : State) (b : Bool) : (s.setCb b).dirty = s.dirty := rfl
@[simp] theorem State.setCb_cbEnabled (s : State) (b : Bool) : (s.setCb b).cbEnabled = b := rfl
@[simp] theorem State.setCb_padEnabled (s : State) (b : Bool) : (s.setCb b).padEnabled = s.padEnabled := rfl
@[simp] theorem State.setCb_sched (s : State) (b : Bool) : (s.setCb b).sched = s.sched := rfl
@[simp] theorem State.setCb_enc (s : State) (b : Bool) : (s.setCb b).enc = s.enc := rfl
@[simp] theorem State.setCb_dec (s : State) (b : Bool) : (s.setCb b).dec = s.dec := rfl
@[simp] theorem State.setCb_fault (s : State) (b : Bool) : (s.setCb b).fault = s.fault := rfl
@[simp] theorem State.setCb_pc (s : State) (b : Bool) : (s.setCb b).pc = s.pc := rfl
@[simp] theorem State.setCb_inbox (s : State) (b : Bool) : (s.setCb b).inbox = s.inbox := rfl
@[simp] theorem State.setCb_response (s : State) (b : Bool) : (s.setCb b).response = s.response := rfl

/-! ### setPad -/

@[simp] theorem State.setPad_configured (s : State) (b : Bool) : (s.setPad b).configured = s.configured := rfl
@[simp] theorem State.setPad_alg (s : State) (b : Bool) : (s.setPad b).alg = s.alg := rfl
@[simp] theorem State.setPad_mode (s : State) (b : Bool) : (s.setPad b).mode = s.mode := rfl
@[simp] theorem State.setPad_keyReg (s : State) (b : Bool) : (s.setPad b).keyReg = s.keyReg := rfl
@[simp] theorem State.setPad_keyLenParam (s : State) (b : Bool) : (s.setPad b).keyLenParam = s.keyLenParam := rfl
@[simp] theorem State.setPad_blockLen (s : State) (b : Bool) : (s.setPad b).blockLen = s.blockLen := rfl
@[simp] theorem State.setPad_ivReg (s : State) (b : Bool) : (s.setPad b).ivReg = s.ivReg := rfl
@[simp] theorem State.setPad_dirty (s : State) (b : Bool) : (s.setPad b).dirty = s.dirty := rfl
@[simp] theorem State.setPad_cbEnabled (s : State) (b : Bool) : (s.setPad b).cbEnabled = s.cbEnabled := rfl
@[simp] theorem State.setPad_padEnabled (s : State) (b : Bool) : (s.setPad b).padEnabled = b := rfl
@[simp] theorem State.setPad_sched (s : State) (b : Bool) : (s.setPad b).sched = s.sched := rfl
@[simp] theorem State.setPad_enc (s : State) (b : Bool) : (s.setPad b).enc = s.enc := rfl
@[simp] theorem State.setPad_dec (s : State) (b : Bool) : (s.setPad b).dec = s.dec := rfl
@[simp] theorem State.setPad_fault (s : State) (b : Bool) : (s.setPad b).fault = s.fault := rfl
@[simp] theorem State.setPad_pc (s : State) (b : Bool) : (s.setPad b).pc = s.pc := rfl
@[simp] theorem State.setPad_inbox (s : State) (b : Bool) : (s.setPad b).inbox = s.inbox := rfl
@[simp] theorem State.setPad_response (s : State) (b : Bool) : (s.setPad b).response = s.response := rfl

/-! ### answer -/

@[simp] theorem State.answer_configured (s : State) (st : Status) : (s.answer st).configured = s.configured := rfl
@[simp] theorem State.answer_alg (s : State) (st : Status) : (s.answer st).alg = s.alg := rfl
@[simp] theorem State.answer_mode (s : State) (st : Status) : (s.answer st).mode = s.mode := rfl
@[simp] theorem State.answer_keyReg (s : State) (st : Status) : (s.answer st).keyReg = s.keyReg := rfl
@[simp] theorem State.answer_keyLenParam (s : State) (st : Status) : (s.answer st).keyLenParam = s.keyLenParam := rfl
@[simp] theorem State.answer_blockLen (s : State) (st : Status) : (s.answer st).blockLen = s.blockLen := rfl
@[simp] theorem State.answer_ivReg (s : State) (st : Status) : (s.answer st).ivReg = s.ivReg := rfl
@[simp] theorem State.answer_dirty (s : State) (st : Status) : (s.answer st).dirty = s.dirty := rfl
@[simp] theorem State.answer_cbEnabled (s : State) (st : Status) : (s.answer st).cbEnabled = s.cbEnabled := rfl
@[simp] theorem State.answer_padEnabled (s : State) (st : Status) : (s.answer st).padEnabled = s.padEnabled := rfl
@[simp] theorem State.answer_sched (s : State) (st : Status) : (s.answer st).sched = s.sched := rfl
@[simp] theorem State.answer_enc (s : State) (st : Status) : (s.answer st).enc = s.enc := rfl
@[simp] theorem State.answer_dec (s : State) (st : Status) : (s.answer st).dec = s.dec := rfl
@[simp] theorem State.answer_fault (s : State) (st : Status) : (s.answer st).fault = s.fault := rfl
@[simp] theorem State.answer_pc (s : State) (st : Status) : (s.answer st).pc = s.pc := rfl
@[simp] theorem State.answer_inbox (s : State) (st : Status) : (s.answer st).inbox = s.inbox := rfl
@[simp] theorem State.answer_response (s : State) (st : Status) : (s.answer st).response = some st := rfl

/-! ### complete -/

@[simp] theorem State.complete_configured (s : State) (st : Status) : (s.complete st).configured = s.configured := rfl
@[simp] theorem State.complete_alg (s : State) (st : Status) : (s.complete st).alg = s.alg := rfl
@[simp] theorem State.complete_mode (s : State) (st : Status) : (s.complete st).mode = s.mode := rfl
@[simp] theorem State.complete_keyReg (s : State) (st : Status) : (s.complete st).keyReg = s.keyReg := rfl
@[simp] theorem State.complete_keyLenParam (s : State) (st : Status) : (s.complete st).keyLenParam = s.keyLenParam := rfl
@[simp] theorem State.complete_blockLen (s : State) (st : Status) : (s.complete st).blockLen = s.blockLen := rfl
@[simp] theorem State.complete_ivReg (s : State) (st : Status) : (s.complete st).ivReg = s.ivReg := rfl
@[simp] theorem State.complete_dirty (s : State) (st : Status) : (s.complete st).dirty = s.dirty := rfl
@[simp] theorem State.complete_cbEnabled (s : State) (st : Status) : (s.complete st).cbEnabled = s.cbEnabled := rfl
@[simp] theorem State.complete_padEnabled (s : State) (st : Status) : (s.complete st).padEnabled = s.padEnabled := rfl
@[simp] theorem State.complete_sched (s : State) (st : Status) : (s.complete st).sched = s.sched := rfl
@[simp] theorem State.complete_enc (s : State) (st : Status) : (s.complete st).enc = s.enc := rfl
@[simp] theorem State.complete_dec (s : State) (st : Status) : (s.complete st).dec = s.dec := rfl
@[simp] theorem State.complete_fault (s : State) (st : Status) : (s.complete st).fault = s.fault := rfl
@[simp] theorem State.complete_pc (s : State) (st : Status) : (s.complete st).pc = s.pc + 1 := rfl
@[simp] theorem State.complete_inbox (s : State) (st : Status) : (s.complete st).inbox = s.inbox := rfl
@[simp] theorem State.complete_response (s : State) (st : Status) : (s.complete st).response = some st := rfl

/-! ### raise -/

@[simp] theorem State.raise_configured (s : State) (r : FaultReason) : (s.raise r).configured = s.configured := rfl
@[simp] theorem State.raise_alg (s : State) (r : FaultReason) : (s.raise r).alg = s.alg := rfl
@[simp] theorem State.raise_mode (s : State) (r : FaultReason) : (s.raise r).mode = s.mode := rfl
@[simp] theorem State.raise_keyReg (s : State) (r : FaultReason) : (s.raise r).keyReg = s.keyReg := rfl
@[simp] theorem State.raise_keyLenParam (s : State) (r : FaultReason) : (s.raise r).keyLenParam = s.keyLenParam := rfl
@[simp] theorem State.raise_blockLen (s : State) (r : FaultReason) : (s.raise r).blockLen = s.blockLen := rfl
@[simp] theorem State.raise_ivReg (s : State) (r : FaultReason) : (s.raise r).ivReg = s.ivReg := rfl
@[simp] theorem State.raise_dirty (s : State) (r : FaultReason) : (s.raise r).dirty = s.dirty := rfl
@[simp] theorem State.raise_cbEnabled (s : State) (r : FaultReason) : (s.raise r).cbEnabled = s.cbEnabled := rfl
@[simp] theorem State.raise_padEnabled (s : State) (r : FaultReason) : (s.raise r).padEnabled = s.padEnabled := rfl
@[simp] theorem State.raise_sched (s : State) (r : FaultReason) : (s.raise r).sched = s.sched := rfl
@[simp] theorem State.raise_enc (s : State) (r : FaultReason) : (s.raise r).enc = s.enc := rfl
@[simp] theorem State.raise_dec (s : State) (r : FaultReason) : (s.raise r).dec = s.dec := rfl
@[simp] theorem State.raise_fault (s : State) (r : FaultReason) : (s.raise r).fault = some r := rfl
@[simp] theorem State.raise_pc (s : State) (r : FaultReason) : (s.raise r).pc = s.pc := rfl
@[simp] theorem State.raise_inbox (s : State) (r : FaultReason) : (s.raise r).inbox = s.inbox := rfl
@[simp] theorem State.raise_response (s : State) (r : FaultReason) : (s.raise r).response = some (.fault r) := rfl

/-! ### loadKey -/

@[simp] theorem State.loadKey_configured (s : State) (key : Bytes) : (s.loadKey key).configured = s.configured := rfl
@[simp] theorem State.loadKey_alg (s : State) (key : Bytes) : (s.loadKey key).alg = s.alg := rfl
@[simp] theorem State.loadKey_mode (s : State) (key : Bytes) : (s.loadKey key).mode = s.mode := rfl
@[simp] theorem State.loadKey_keyReg (s : State) (key : Bytes) : (s.loadKey key).keyReg = some key := rfl
@[simp] theorem State.loadKey_keyLenParam (s : State) (key : Bytes) : (s.loadKey key).keyLenParam = s.keyLenParam := rfl
@[simp] theorem State.loadKey_blockLen (s : State) (key : Bytes) : (s.loadKey key).blockLen = s.blockLen := rfl
@[simp] theorem State.loadKey_ivReg (s : State) (key : Bytes) : (s.loadKey key).ivReg = s.ivReg := rfl
@[simp] theorem State.loadKey_dirty (s : State) (key : Bytes) : (s.loadKey key).dirty = true := rfl
@[simp] theorem State.loadKey_cbEnabled (s : State) (key : Bytes) : (s.loadKey key).cbEnabled = s.cbEnabled := rfl
@[simp] theorem State.loadKey_padEnabled (s : State) (key : Bytes) : (s.loadKey key).padEnabled = s.padEnabled := rfl
@[simp] theorem State.loadKey_sched (s : State) (key : Bytes) : (s.loadKey key).sched = s.sched := rfl
@[simp] theorem State.loadKey_enc (s : State) (key : Bytes) : (s.loadKey key).enc = { s.enc with valid := false } := rfl
@[simp] theorem State.loadKey_dec (s : State) (key : Bytes) : (s.loadKey key).dec = { s.dec with valid := false } := rfl
@[simp] theorem State.loadKey_fault (s : State) (key : Bytes) : (s.loadKey key).fault = s.fault := rfl
@[simp] theorem State.loadKey_pc (s : State) (key : Bytes) : (s.loadKey key).pc = s.pc := rfl
@[simp] theorem State.loadKey_inbox (s : State) (key : Bytes) : (s.loadKey key).inbox = s.inbox := rfl
@[simp] theorem State.loadKey_response (s : State) (key : Bytes) : (s.loadKey key).response = s.response := rfl

/-! ### createContext -/

@[simp] theorem State.createContext_configured (s : State) (a : Algorithm) (m : Mode) (klen blen : BitVec 8) : (s.createContext a m klen blen).configured = true := rfl
@[simp] theorem State.createContext_alg (s : State) (a : Algorithm) (m : Mode) (klen blen : BitVec 8) : (s.createContext a m klen blen).alg = a := rfl
@[simp] theorem State.createContext_mode (s : State) (a : Algorithm) (m : Mode) (klen blen : BitVec 8) : (s.createContext a m klen blen).mode = m := rfl
@[simp] theorem State.createContext_keyReg (s : State) (a : Algorithm) (m : Mode) (klen blen : BitVec 8) : (s.createContext a m klen blen).keyReg = none := rfl
@[simp] theorem State.createContext_keyLenParam (s : State) (a : Algorithm) (m : Mode) (klen blen : BitVec 8) : (s.createContext a m klen blen).keyLenParam = klen := rfl
@[simp] theorem State.createContext_blockLen (s : State) (a : Algorithm) (m : Mode) (klen blen : BitVec 8) : (s.createContext a m klen blen).blockLen = if a = .rijndael then rijndaelBlockLen blen else 16 := rfl
@[simp] theorem State.createContext_ivReg (s : State) (a : Algorithm) (m : Mode) (klen blen : BitVec 8) : (s.createContext a m klen blen).ivReg = none := rfl
@[simp] theorem State.createContext_dirty (s : State) (a : Algorithm) (m : Mode) (klen blen : BitVec 8) : (s.createContext a m klen blen).dirty = true := rfl
@[simp] theorem State.createContext_cbEnabled (s : State) (a : Algorithm) (m : Mode) (klen blen : BitVec 8) : (s.createContext a m klen blen).cbEnabled = false := rfl
@[simp] theorem State.createContext_padEnabled (s : State) (a : Algorithm) (m : Mode) (klen blen : BitVec 8) : (s.createContext a m klen blen).padEnabled = true := rfl
@[simp] theorem State.createContext_sched (s : State) (a : Algorithm) (m : Mode) (klen blen : BitVec 8) : (s.createContext a m klen blen).sched = none := rfl
@[simp] theorem State.createContext_enc (s : State) (a : Algorithm) (m : Mode) (klen blen : BitVec 8) : (s.createContext a m klen blen).enc = { s.enc with valid := false } := rfl
@[simp] theorem State.createContext_dec (s : State) (a : Algorithm) (m : Mode) (klen blen : BitVec 8) : (s.createContext a m klen blen).dec = { s.dec with valid := false } := rfl
@[simp] theorem State.createContext_fault (s : State) (a : Algorithm) (m : Mode) (klen blen : BitVec 8) : (s.createContext a m klen blen).fault = s.fault := rfl
@[simp] theorem State.createContext_pc (s : State) (a : Algorithm) (m : Mode) (klen blen : BitVec 8) : (s.createContext a m klen blen).pc = s.pc := rfl
@[simp] theorem State.createContext_inbox (s : State) (a : Algorithm) (m : Mode) (klen blen : BitVec 8) : (s.createContext a m klen blen).inbox = s.inbox := rfl
@[simp] theorem State.createContext_response (s : State) (a : Algorithm) (m : Mode) (klen blen : BitVec 8) : (s.createContext a m klen blen).response = s.response := rfl

/-! ### issueNext -/

@[simp] theorem State.issueNext_configured (s : State) (c : Command) : (s.issueNext c).configured = s.configured := rfl
@[simp] theorem State.issueNext_alg (s : State) (c : Command) : (s.issueNext c).alg = s.alg := rfl
@[simp] theorem State.issueNext_mode (s : State) (c : Command) : (s.issueNext c).mode = s.mode := rfl
@[simp] theorem State.issueNext_keyReg (s : State) (c : Command) : (s.issueNext c).keyReg = s.keyReg := rfl
@[simp] theorem State.issueNext_keyLenParam (s : State) (c : Command) : (s.issueNext c).keyLenParam = s.keyLenParam := rfl
@[simp] theorem State.issueNext_blockLen (s : State) (c : Command) : (s.issueNext c).blockLen = s.blockLen := rfl
@[simp] theorem State.issueNext_ivReg (s : State) (c : Command) : (s.issueNext c).ivReg = s.ivReg := rfl
@[simp] theorem State.issueNext_dirty (s : State) (c : Command) : (s.issueNext c).dirty = s.dirty := rfl
@[simp] theorem State.issueNext_cbEnabled (s : State) (c : Command) : (s.issueNext c).cbEnabled = s.cbEnabled := rfl
@[simp] theorem State.issueNext_padEnabled (s : State) (c : Command) : (s.issueNext c).padEnabled = s.padEnabled := rfl
@[simp] theorem State.issueNext_sched (s : State) (c : Command) : (s.issueNext c).sched = s.sched := rfl
@[simp] theorem State.issueNext_enc (s : State) (c : Command) : (s.issueNext c).enc = s.enc := rfl
@[simp] theorem State.issueNext_dec (s : State) (c : Command) : (s.issueNext c).dec = s.dec := rfl
@[simp] theorem State.issueNext_fault (s : State) (c : Command) : (s.issueNext c).fault = s.fault := rfl
@[simp] theorem State.issueNext_pc (s : State) (c : Command) : (s.issueNext c).pc = s.pc := rfl
@[simp] theorem State.issueNext_inbox (s : State) (c : Command) : (s.issueNext c).inbox = .command c :: s.inbox := rfl
@[simp] theorem State.issueNext_response (s : State) (c : Command) : (s.issueNext c).response = s.response := rfl

/-! ### powerUp -/

@[simp] theorem State.powerUp_configured (s : State) : s.powerUp.configured = State.reset.configured := rfl
@[simp] theorem State.powerUp_alg (s : State) : s.powerUp.alg = State.reset.alg := rfl
@[simp] theorem State.powerUp_mode (s : State) : s.powerUp.mode = State.reset.mode := rfl
@[simp] theorem State.powerUp_keyReg (s : State) : s.powerUp.keyReg = State.reset.keyReg := rfl
@[simp] theorem State.powerUp_keyLenParam (s : State) : s.powerUp.keyLenParam = State.reset.keyLenParam := rfl
@[simp] theorem State.powerUp_blockLen (s : State) : s.powerUp.blockLen = State.reset.blockLen := rfl
@[simp] theorem State.powerUp_ivReg (s : State) : s.powerUp.ivReg = State.reset.ivReg := rfl
@[simp] theorem State.powerUp_dirty (s : State) : s.powerUp.dirty = State.reset.dirty := rfl
@[simp] theorem State.powerUp_cbEnabled (s : State) : s.powerUp.cbEnabled = State.reset.cbEnabled := rfl
@[simp] theorem State.powerUp_padEnabled (s : State) : s.powerUp.padEnabled = State.reset.padEnabled := rfl
@[simp] theorem State.powerUp_sched (s : State) : s.powerUp.sched = State.reset.sched := rfl
@[simp] theorem State.powerUp_enc (s : State) : s.powerUp.enc = State.reset.enc := rfl
@[simp] theorem State.powerUp_dec (s : State) : s.powerUp.dec = State.reset.dec := rfl
@[simp] theorem State.powerUp_fault (s : State) : s.powerUp.fault = State.reset.fault := rfl
@[simp] theorem State.powerUp_pc (s : State) : s.powerUp.pc = State.reset.pc := rfl
@[simp] theorem State.powerUp_inbox (s : State) : s.powerUp.inbox = s.inbox := rfl
@[simp] theorem State.powerUp_response (s : State) : s.powerUp.response = State.reset.response := rfl

/-! ### setDir -/

@[simp] theorem State.setDir_configured (s : State) (d : Direction) (r : DirRecord) : (s.setDir d r).configured = s.configured := by
  cases d <;> rfl
@[simp] theorem State.setDir_alg (s : State) (d : Direction) (r : DirRecord) : (s.setDir d r).alg = s.alg := by
  cases d <;> rfl
@[simp] theorem State.setDir_mode (s : State) (d : Direction) (r : DirRecord) : (s.setDir d r).mode = s.mode := by
  cases d <;> rfl
@[simp] theorem State.setDir_keyReg (s : State) (d : Direction) (r : DirRecord) : (s.setDir d r).keyReg = s.keyReg := by
  cases d <;> rfl
@[simp] theorem State.setDir_keyLenParam (s : State) (d : Direction) (r : DirRecord) : (s.setDir d r).keyLenParam = s.keyLenParam := by
  cases d <;> rfl
@[simp] theorem State.setDir_blockLen (s : State) (d : Direction) (r : DirRecord) : (s.setDir d r).blockLen = s.blockLen := by
  cases d <;> rfl
@[simp] theorem State.setDir_ivReg (s : State) (d : Direction) (r : DirRecord) : (s.setDir d r).ivReg = s.ivReg := by
  cases d <;> rfl
@[simp] theorem State.setDir_dirty (s : State) (d : Direction) (r : DirRecord) : (s.setDir d r).dirty = s.dirty := by
  cases d <;> rfl
@[simp] theorem State.setDir_cbEnabled (s : State) (d : Direction) (r : DirRecord) : (s.setDir d r).cbEnabled = s.cbEnabled := by
  cases d <;> rfl
@[simp] theorem State.setDir_padEnabled (s : State) (d : Direction) (r : DirRecord) : (s.setDir d r).padEnabled = s.padEnabled := by
  cases d <;> rfl
@[simp] theorem State.setDir_sched (s : State) (d : Direction) (r : DirRecord) : (s.setDir d r).sched = s.sched := by
  cases d <;> rfl
@[simp] theorem State.setDir_fault (s : State) (d : Direction) (r : DirRecord) : (s.setDir d r).fault = s.fault := by
  cases d <;> rfl
@[simp] theorem State.setDir_pc (s : State) (d : Direction) (r : DirRecord) : (s.setDir d r).pc = s.pc := by
  cases d <;> rfl
@[simp] theorem State.setDir_inbox (s : State) (d : Direction) (r : DirRecord) : (s.setDir d r).inbox = s.inbox := by
  cases d <;> rfl
@[simp] theorem State.setDir_response (s : State) (d : Direction) (r : DirRecord) : (s.setDir d r).response = s.response := by
  cases d <;> rfl
@[simp] theorem State.setDir_enc_enc (s : State) (r : DirRecord) : (s.setDir .enc r).enc = r := rfl
@[simp] theorem State.setDir_enc_dec (s : State) (r : DirRecord) : (s.setDir .enc r).dec = s.dec := rfl
@[simp] theorem State.setDir_dec_dec (s : State) (r : DirRecord) : (s.setDir .dec r).dec = r := rfl
@[simp] theorem State.setDir_dec_enc (s : State) (r : DirRecord) : (s.setDir .dec r).enc = s.enc := rfl
@[simp] theorem State.dir_enc (s : State) : s.dir .enc = s.enc := rfl
@[simp] theorem State.dir_dec (s : State) : s.dir .dec = s.dec := rfl
@[simp] theorem State.dir_setDir (s : State) (d : Direction) (r : DirRecord) : (s.setDir d r).dir d = r := by
  cases d <;> rfl
@[simp] theorem State.setDir_setDir (s : State) (d : Direction) (r r' : DirRecord) :
    (s.setDir d r).setDir d r' = s.setDir d r' := by
  cases d <;> rfl

/-! ### The block size -/

theorem State.bs_eq (s : State) : s.bs = blockSizeOf s.alg s.blockLen := rfl

/-- The block size of a legal state is a multiple of 4 for every algorithm but RC4 (10_state.md R36). -/
theorem State.bs_mem {s : State} (h : s.blockLen ∈ [16, 20, 24, 28, 32]) : s.bs ∈ [1, 8, 16, 20, 24, 28, 32] := by
  simp only [State.bs, blockSizeOf]
  cases s.alg <;> simp_all

end Sys2Proof.Machine
end

