-- ==== Sys2Proof/Laws/Crypt.lean ====
section
/-! SUPPORT. What the dispatch and each part of ENCRYPT and DECRYPT can answer, said once: forward from a state that meets the
invariant, and backward from a next state. -/

namespace Sys2Proof.Machine

/-! ### Dispatch (45_control.md R320) -/

theorem State.isReady_iff {s : State} : s.isReady = true ↔ s.fault = none ∧ s.configured = true := by
  simp [State.isReady]

theorem whenConfigured_of_ready {body : State → Result} {s : State} (h : s.isReady = true) :
    whenConfigured body s = body s := by
  have := State.isReady_iff.mp h
  simp [whenConfigured, this.1, this.2]

theorem whenConfigured_of_fault {body : State → Result} {s : State} {r : FaultReason} (h : s.fault = some r) :
    whenConfigured body s = .next (s.answer (.fault r)) := by simp [whenConfigured, h]

theorem whenConfigured_of_not_configured {body : State → Result} {s : State} (h : s.fault = none)
    (hc : s.configured = false) : whenConfigured body s = .next (s.raise .notConfigured) := by
  simp [whenConfigured, h, hc]

/-- A command under the dispatch answers the sticky fault, or NotConfigured, or what its body answers. -/
theorem whenConfigured_next {body : State → Result} {s t : State} (h : whenConfigured body s = .next t) :
    (∃ r, s.fault = some r ∧ t = s.answer (.fault r))
      ∨ (s.fault = none ∧ s.configured = false ∧ t = s.raise .notConfigured)
      ∨ (s.isReady = true ∧ body s = .next t) := by
  unfold whenConfigured at h
  split at h
  · cases h; exact .inl ⟨_, ‹_›, rfl⟩
  · split at h
    · exact .inr (.inr ⟨State.isReady_iff.mpr ⟨‹_›, ‹_›⟩, h⟩)
    · rename_i hf hc
      cases h; exact .inr (.inl ⟨hf, by simpa using hc, rfl⟩)

theorem whenNotFaulted_of_none {body : State → Result} {s : State} (h : s.fault = none) :
    whenNotFaulted body s = body s := by simp [whenNotFaulted, h]

/-- CONFIGURE answers the sticky fault, or what its body answers. -/
theorem whenNotFaulted_next {body : State → Result} {s t : State} (h : whenNotFaulted body s = .next t) :
    (∃ r, s.fault = some r ∧ t = s.answer (.fault r)) ∨ (s.fault = none ∧ body s = .next t) := by
  unfold whenNotFaulted at h
  split at h
  · cases h; exact .inl ⟨_, ‹_›, rfl⟩
  · exact .inr ⟨‹_›, h⟩

/-! ### Schedule (45_control.md R334) -/

/-- What EnsureSchedule leaves: the schedule it derived, or the one that stood. -/
theorem ensureSchedule_ok {s s1 : State} (h : ensureSchedule s = .ok s1) :
    ∃ key, s.keyReg = some key
      ∧ ((s.dirty = false ∧ s1 = s)
        ∨ (s.dirty = true ∧ ∃ sched, deriveSchedule s.alg s.bs s.keyLenParam key = .ok sched
            ∧ s1 = { s with sched := some sched, dirty := false })) := by
  unfold ensureSchedule at h
  split at h
  · cases h
  · rename_i key hk
    refine ⟨key, hk, ?_⟩
    split at h
    · split at h
      · cases h; exact .inr ⟨‹_›, _, ‹_›, rfl⟩
      · cases h
    · rename_i hd
      cases h; exact .inl ⟨by simpa using hd, rfl⟩

/-- EnsureSchedule fails for want of a key, or on an empty RC4 key. -/
theorem ensureSchedule_error {s : State} {r : FaultReason} (h : ensureSchedule s = .error r) :
    (s.keyReg = none ∧ r = .keyNotSet) ∨ (s.alg = .rc4 ∧ s.keyReg = some [] ∧ s.dirty = true ∧ r = .emptyRc4Key) := by
  unfold ensureSchedule at h
  split at h
  · cases h; exact .inl ⟨‹_›, rfl⟩
  · rename_i key hk
    split at h
    · split at h
      · cases h
      · rename_i e he
        cases h
        obtain ⟨ha, rfl, rfl⟩ := deriveSchedule_error he
        exact .inr ⟨ha, hk, ‹_›, rfl⟩
    · cases h

/-- From a state that meets the invariant, EnsureSchedule leaves the schedule of the key in force. -/
theorem ensureSchedule_of_inv {s : State} {key : Bytes} {sched : Schedule} (hs : s.Inv) (hk : s.keyReg = some key)
    (hd : deriveSchedule s.alg s.bs s.keyLenParam key = .ok sched) :
    ensureSchedule s = .ok { s with sched := some sched, dirty := false } := by
  cases h : s.dirty with
  | true => simp [ensureSchedule, hk, h, hd]
  | false =>
    obtain ⟨sched', hd', hs'⟩ := hs.scheduleFresh key hk h
    rw [hd] at hd'
    cases hd'
    have : s = { s with sched := some sched, dirty := false } := by rw [← hs', ← h]
    rw [← this]
    simp [ensureSchedule, hk, h]

/-! ### Prologue and epilogue (44_modes.md R262, R263, R280) -/

/-- The record a call starts from. -/
def State.startRecord (d : Direction) (s : State) : DirRecord :=
  if s.startsFresh d then initialRecord s (s.dir d) else s.dir d

theorem callPrologue_eq (d : Direction) (s : State) :
    callPrologue d s
      = if s.startsFresh d = true ∧ s.alg ≠ .rc4 ∧ usesIv s.mode = true ∧ s.ivReg = none then .error .ivNotSet
        else .ok (s.setDir d (s.startRecord d)) := by
  have hself : s.setDir d (s.dir d) = s := by cases d <;> rfl
  have hf : (s.cbEnabled = false ∨ (s.dir d).valid = false) ↔ s.startsFresh d = true := by simp [State.startsFresh]
  unfold callPrologue dirInit State.startRecord
  by_cases h : s.startsFresh d = true <;> simp [hf, h, hself]

/-- A fresh record is valid. -/
theorem initialRecord_valid (s : State) (r : DirRecord) : (initialRecord s r).valid = true := by
  unfold initialRecord; cases s.alg <;> simp <;> split <;> rfl

/-- A fresh record has its widths. -/
theorem initialRecord_fits {s : State} {sched : Schedule} (r : DirRecord) (hs : s.sched = some sched)
    (hf : sched.fits s.alg s.bs = true) (hpos : 0 < s.bs) (htc : s.mode = .tcbc → s.bs = 8) :
    (initialRecord s r).fits s.alg s.mode s.bs = true := by
  by_cases ha : s.alg = .rc4
  · cases sched with
    | rc4 s0 =>
      simp only [Schedule.fits, Bool.and_eq_true, beq_iff_eq] at hf
      simp [initialRecord, ha, hs, DirRecord.fits, hf.2]
    | des _ | tripleDes _ _ _ | rijndael _ _ _ _ _ => simp [Schedule.fits, ha] at hf
  · have hv : (normalisedIv s.bs s.ivReg).length = s.bs := by cases s.ivReg <;> simp [normalisedIv]
    rw [DirRecord.fits_block ha]
    by_cases hm : s.mode = .tcbc
    · have h8 := htc hm
      cases h : s.alg <;> simp_all [initialRecord]
    · cases h : s.alg <;> simp_all [initialRecord]

/-- A block size is not 0 where the block length is a legal one. -/
theorem State.Inv.bs_cases {s : State} (h : s.Inv) : s.bs = 1 ∨ s.bs = 8 ∨ s.bs ∈ [16, 20, 24, 28, 32] := by
  have hb := h.blockLenLegal
  cases ha : s.alg <;> simp_all [State.bs, blockSizeOf]

theorem State.Inv.bs_pos {s : State} (h : s.Inv) : 0 < s.bs := by
  have := h.bs_cases
  simp only [List.mem_cons, List.not_mem_nil, or_false] at this
  omega

theorem State.Inv.bs_legal {s : State} (h : s.Inv) : s.bs ∈ [16, 20, 24, 28, 32] ∨ (s.alg ≠ .rijndael ∧ s.alg ≠ .aes) := by
  have hb := h.blockLenLegal
  cases ha : s.alg <;> simp_all [State.bs, blockSizeOf]

theorem State.Inv.bs_of_tcbc {s : State} (h : s.Inv) (hm : s.mode = .tcbc) : s.bs = 8 :=
  State.bs_of_des (.inr (h.tcbcAlgorithm hm))

theorem State.Inv.dirInv {s : State} (h : s.Inv) (d : Direction) : (s.dir d).Inv s := by
  cases d
  · exact h.encInv
  · exact h.decInv

/-- A state whose records are not valid and whose schedule is to be derived again meets the invariant as soon as its
configuration is a legal one. -/
theorem State.Inv.of_dirty {s : State} (hb : s.blockLen ∈ [16, 20, 24, 28, 32]) (h16 : s.alg ≠ .rijndael → s.blockLen = 16)
    (htc : s.mode = .tcbc → s.alg = .tripleDes) (hd : s.dirty = true) (he : s.enc.valid = false) (hv : s.dec.valid = false)
    (hf : s.fault ≠ some .internalInvariant) : s.Inv where
  blockLenLegal := hb
  blockLenFixed := h16
  tcbcAlgorithm := htc
  scheduleFresh := by simp [hd]
  encInv := ⟨by simp [he], by simp [he], by simp [he]⟩
  decInv := ⟨by simp [hv], by simp [hv], by simp [hv]⟩
  assertion := hf

/-! ### The course of ENCRYPT and DECRYPT (45_control.md R332, R333) -/

/-- The context a mode function runs in: the schedule in force, and the direction's starting record. -/
def State.prepared (d : Direction) (sched : Schedule) (s : State) : State :=
  { s with sched := some sched, dirty := false }.setDir d ({ s with sched := some sched, dirty := false }.startRecord d)

/-- The starting record has its widths. -/
theorem startRecord_fits {s : State} {key : Bytes} {sched : Schedule} (d : Direction) (hs : s.Inv)
    (hd : deriveSchedule s.alg s.bs s.keyLenParam key = .ok sched) :
    ({ s with sched := some sched, dirty := false }.startRecord d).fits s.alg s.mode s.bs = true := by
  have hf := deriveSchedule_fits hs.bs_legal hd
  unfold State.startRecord
  split
  · exact initialRecord_fits (s := { s with sched := some sched, dirty := false }) _ rfl hf hs.bs_pos
      (fun hm => hs.bs_of_tcbc hm)
  · rename_i h
    have hv : (s.dir d).valid = true := by
      simp only [State.startsFresh, Bool.or_eq_true, Bool.not_eq_true', not_or, Bool.not_eq_false] at h
      exact h.2
    exact (hs.dirInv d).shaped hv

/-- From a state that meets the invariant, with a usable key and the IV its mode needs, the course is the mode function on the
schedule of the key and the starting record. -/
theorem cryptCourse_of_inv {s : State} {key : Bytes} {sched : Schedule} (d : Direction)
    (text : State → Schedule → DirRecord → ModeResult) (hs : s.Inv) (hk : s.keyReg = some key)
    (hd : deriveSchedule s.alg s.bs s.keyLenParam key = .ok sched)
    (hiv : ¬(s.alg ≠ .rc4 ∧ usesIv s.mode = true ∧ s.ivReg = none)) :
    cryptCourse d text s
      = match text (s.prepared d sched) sched ((s.prepared d sched).dir d) with
        | .error e => .error e
        | .ok (out, r') => .ok (cryptStatus out, callEpilogue d ((s.prepared d sched).setDir d r')) := by
  have hf := deriveSchedule_fits hs.bs_legal hd
  have hr := startRecord_fits d hs hd
  have hp : callPrologue d { s with sched := some sched, dirty := false } = .ok (s.prepared d sched) := by
    rw [callPrologue_eq, if_neg (fun h => hiv h.2)]; rfl
  have hready : readyRecord d (s.prepared d sched) = .ok (sched, (s.prepared d sched).dir d) := by
    cases d <;> simp_all [readyRecord, State.prepared, State.setDir, State.dir, State.bs]
  simp only [cryptCourse, ensureSchedule_of_inv hs hk hd, hp, hready] <;> rfl

/-- What a course that answers has done, in any state. -/
theorem cryptCourse_ok {d : Direction} {text : State → Schedule → DirRecord → ModeResult} {s s' : State} {st : Status}
    (h : cryptCourse d text s = .ok (st, s')) :
    ∃ s1 s2 sched out r', ensureSchedule s = .ok s1 ∧ callPrologue d s1 = .ok s2 ∧ s2.sched = some sched
      ∧ sched.fits s2.alg s2.bs = true ∧ (s2.dir d).fits s2.alg s2.mode s2.bs = true
      ∧ text s2 sched (s2.dir d) = .ok (out, r') ∧ st = cryptStatus out ∧ s' = callEpilogue d (s2.setDir d r') := by
  unfold cryptCourse at h
  split at h
  · cases h
  · rename_i s1 h1
    split at h
    · cases h
    · rename_i s2 h2
      split at h
      · cases h
      · rename_i sched r hr
        split at h
        · cases h
        · rename_i out r' ht
          cases h
          unfold readyRecord at hr
          split at hr
          · split at hr
            · rename_i hs hf
              cases hr
              rw [Bool.and_eq_true] at hf
              exact ⟨s1, s2, sched, out, r', h1, h2, hs, hf.1, hf.2, ht, rfl, rfl⟩
            · cases hr
          · cases hr

/-- ENCRYPT and DECRYPT complete with the Status of their course, or raise its fault over the state before them. -/
theorem crypt_next {d : Direction} {text : State → Schedule → DirRecord → ModeResult} {s t : State}
    (h : crypt d text s = .next t) :
    (∃ st s', cryptCourse d text s = .ok (st, s') ∧ t = s'.complete st)
      ∨ ∃ e, cryptCourse d text s = .error e ∧ t = s.raise e := by
  unfold crypt at h
  split at h
  · cases h; exact .inl ⟨_, _, ‹_›, rfl⟩
  · cases h; exact .inr ⟨_, ‹_›, rfl⟩

/-- The faults a direction's mode function can raise where the schedule fits and 3CBC goes with TripleDES: UnalignedInput
alone (44_modes.md R269). -/
theorem encryptText_error {s : State} {sched : Schedule} {r : DirRecord} {text : Bytes} {e : FaultReason}
    (hf : sched.fits s.alg s.bs = true) (htc : s.mode = .tcbc → s.alg = .tripleDes)
    (h : encryptText s sched r text = .error e) : e = .unalignedInput := by
  unfold encryptText at h
  split at h
  · cases h
  · cases hm : s.mode <;> simp only [hm] at h
    case tcbc =>
      have ha := htc hm
      cases sched <;> simp [Schedule.fits, ha] at hf
      simp only [stageSchedules, encryptAligned_eq] at h
      split at h
      · cases h; rfl
      · cases h
    case ecb | cbc =>
      rw [encryptAligned_eq] at h
      split at h
      · cases h; rfl
      · cases h
    all_goals cases h

theorem decryptText_error {s : State} {sched : Schedule} {r : DirRecord} {text : Bytes} {e : FaultReason}
    (hf : sched.fits s.alg s.bs = true) (htc : s.mode = .tcbc → s.alg = .tripleDes)
    (h : decryptText s sched r text = .error e) : e = .unalignedInput := by
  unfold decryptText at h
  split at h
  · cases h
  · cases hm : s.mode <;> simp only [hm] at h
    case tcbc =>
      have ha := htc hm
      cases sched <;> simp [Schedule.fits, ha] at hf
      simp only [stageSchedules, decryptAligned_eq] at h
      split at h
      · cases h; rfl
      · cases h
    case ecb | cbc =>
      rw [decryptAligned_eq] at h
      split at h
      · cases h; rfl
      · cases h
    all_goals cases h

end Sys2Proof.Machine
end

