-- ==== Sys2Proof/Laws/PerInstr.lean ====
section
/-! SUPPORT. For every command: the word of its encoding is a word of its row in the opcode map, and its operands are as many as
the row takes (30_encoding.md R102, R109). -/

namespace Sys2Proof.Laws

/-- The encoding of `i` is read as a word of the row of `i`, with the number of operands R109 gives. -/
def EncodeMatchesRow.Statement (i : Instr) : Prop :=
  decodeOpcode (encode i).word = .ok i.opcode ∧ (encode i).operands.length = (tableOperands (encode i).word).length

/-- The fixed bits of a row, its free fields 0, are a word of the row. -/
theorem decodeOpcode_pattern (op : Opcode) : decodeOpcode (op.pattern ||| 0) = .ok op := by
  cases op <;> decide

/-- A row found decides the number of operands. -/
theorem tableOperands_length_of_row (w : CommandWord) (op : Opcode) (h : decodeOpcode w = .ok op) (hp : op ≠ .setPassword) :
    (tableOperands w).length = if op = .setKey ∨ op = .setIv ∨ op = .encrypt ∨ op = .decrypt then 1 else 0 := by
  cases op <;> first | exact absurd rfl hp | simp [tableOperands, h]

/-- The fields of CONFIGURE leave OPC alone (30_encoding.md R101). -/
theorem configure_opcField (alg mode : BitVec 4) (klen blen : BitVec 8) :
    (encode (.configure alg mode klen blen)).word &&& 0xFF#32 = 0x01#32 := by
  have h8 : ∀ v : BitVec 4, placeField 8 v &&& 0xFF#32 = 0 := by decide +kernel
  have h12 : ∀ v : BitVec 4, placeField 12 v &&& 0xFF#32 = 0 := by decide +kernel
  have h16 : ∀ v : BitVec 8, placeField 16 v &&& 0xFF#32 = 0 := by decide +kernel
  have h24 : ∀ v : BitVec 8, placeField 24 v &&& 0xFF#32 = 0 := by decide +kernel
  have hp : Opcode.configure.pattern &&& 0xFF#32 = 0x01#32 := by decide
  simp only [encode, Instr.fieldBits, Instr.opcode, BitVec.and_or_distrib_right, h8, h12, h16, h24, hp]
  decide

theorem EncodeMatchesRow.configure (alg mode : BitVec 4) (klen blen : BitVec 8) :
    Statement (.configure alg mode klen blen) := by
  have h : decodeOpcode (encode (.configure alg mode klen blen)).word = .ok .configure := by
    simp [decodeOpcode, opcodeTable, OpcodeRow.matches, configure_opcField]
  exact ⟨h, by rw [tableOperands_length_of_row _ _ h (by decide)]; rfl⟩

theorem EncodeMatchesRow.setKey (key : Bytes) : Statement (.setKey key) :=
  ⟨decodeOpcode_pattern .setKey, (tableOperands_length_of_row _ .setKey (decodeOpcode_pattern .setKey) (by decide)).symm⟩

theorem EncodeMatchesRow.setIv (iv : Bytes) : Statement (.setIv iv) :=
  ⟨decodeOpcode_pattern .setIv, (tableOperands_length_of_row _ .setIv (decodeOpcode_pattern .setIv) (by decide)).symm⟩

theorem EncodeMatchesRow.setPassword (password : Bytes) (salt iterations outputLength : Option Bytes) :
    Statement (.setPassword password salt iterations outputLength) := by
  have h : ∀ a b c : Bool,
      let w := Opcode.setPassword.pattern ||| (placeField 8 (BitVec.ofBool a) ||| placeField 9 (BitVec.ofBool b)
        ||| placeField 10 (BitVec.ofBool c))
      decodeOpcode w = .ok .setPassword ∧ (tableOperands w).length = 1 + a.toNat + b.toNat + c.toNat := by decide +kernel
  have hw := h salt.isSome iterations.isSome outputLength.isSome
  refine ⟨hw.1, Eq.trans ?_ hw.2.symm⟩
  cases salt <;> cases iterations <;> cases outputLength <;> rfl

theorem EncodeMatchesRow.setKeyLength (klen : BitVec 8) : Statement (.setKeyLength klen) := by
  have h : ∀ v : BitVec 8, decodeOpcode (encode (.setKeyLength v)).word = .ok .setKeyLength := by decide +kernel
  exact ⟨h klen, by rw [tableOperands_length_of_row _ _ (h klen) (by decide)]; rfl⟩

theorem EncodeMatchesRow.setBlockLength (blen : BitVec 8) : Statement (.setBlockLength blen) := by
  have h : ∀ v : BitVec 8, decodeOpcode (encode (.setBlockLength v)).word = .ok .setBlockLength := by decide +kernel
  exact ⟨h blen, by rw [tableOperands_length_of_row _ _ (h blen) (by decide)]; rfl⟩

theorem EncodeMatchesRow.enableCb : Statement .enableCb := ⟨rfl, rfl⟩

theorem EncodeMatchesRow.disableCb : Statement .disableCb := ⟨rfl, rfl⟩

theorem EncodeMatchesRow.enablePad : Statement .enablePad := ⟨rfl, rfl⟩

theorem EncodeMatchesRow.disablePad : Statement .disablePad := ⟨rfl, rfl⟩

theorem EncodeMatchesRow.encrypt (text : Bytes) : Statement (.encrypt text) :=
  ⟨decodeOpcode_pattern .encrypt, (tableOperands_length_of_row _ .encrypt (decodeOpcode_pattern .encrypt) (by decide)).symm⟩

theorem EncodeMatchesRow.decrypt (text : Bytes) : Statement (.decrypt text) :=
  ⟨decodeOpcode_pattern .decrypt, (tableOperands_length_of_row _ .decrypt (decodeOpcode_pattern .decrypt) (by decide)).symm⟩

end Sys2Proof.Laws
end

