-- ==== Sys2Proof/Tests/Slice0.lean ====
section
/-! SUPPORT. The model's own tests: what WellFormed and the decoder refuse, words written out from the encoding tables, one step
of each command, the cipher cores against the vectors of 95_test_vectors.md, and a witness for the hypotheses of each statement. -/

namespace Sys2Proof.Tests

set_option Elab.async false

open Sys2Proof.Machine

/-! ### Helpers -/

/-- A byte string written in hexadecimal. -/
def hex (s : String) : Bytes := (hexPairs s.toList).getD []

/-- The next state of a result, for tests that ran. -/
def nextOf : Result → State
  | .next t => t
  | .fault _ => State.reset
  | .refused _ => State.reset

/-- A result is a next state. -/
def isNext : Result → Bool
  | .next _ => true
  | .fault _ => false
  | .refused _ => false

theorem eq_nextOf (r : Result) (h : isNext r = true) : r = .next (nextOf r) := by
  cases r <;> first | rfl | cases h

/-- A configured context with a key and an IV, as CONFIGURE, SET_KEY and SET_IV leave it. -/
def ctx (alg : Algorithm) (mode : Mode) (key iv : Bytes) : State :=
  { State.reset with
    configured := true, alg := alg, mode := mode, keyReg := some key, ivReg := some iv, dirty := true, padEnabled := true }

/-- The same with padding off. -/
def ctxNoPad (alg : Algorithm) (mode : Mode) (key iv : Bytes) : State := { ctx alg mode key iv with padEnabled := false }

/-- The same with continuous buffering on and padding off. -/
def ctxCb (alg : Algorithm) (mode : Mode) (key iv : Bytes) : State := { ctxNoPad alg mode key iv with cbEnabled := true }

theorem ctx_inv (alg : Algorithm) (mode : Mode) (key iv : Bytes) (h : mode = .tcbc → alg = .tripleDes) :
    (ctx alg mode key iv).Inv := State.Inv.of_dirty (by simp [ctx, State.reset]) (fun _ => rfl) h rfl rfl rfl (by simp [ctx, State.reset])

theorem ctxNoPad_inv (alg : Algorithm) (mode : Mode) (key iv : Bytes) (h : mode = .tcbc → alg = .tripleDes) :
    (ctxNoPad alg mode key iv).Inv := State.Inv.of_dirty (by simp [ctxNoPad, ctx, State.reset]) (fun _ => rfl) h rfl rfl rfl (by simp [ctxNoPad, ctx, State.reset])

theorem ctxCb_inv (alg : Algorithm) (mode : Mode) (key iv : Bytes) (h : mode = .tcbc → alg = .tripleDes) :
    (ctxCb alg mode key iv).Inv := State.Inv.of_dirty (by simp [ctxCb, ctxNoPad, ctx, State.reset]) (fun _ => rfl) h rfl rfl rfl (by simp [ctxCb, ctxNoPad, ctx, State.reset])

/-- The host's next command. -/
def issuing (c : Command) (s : State) : State := { s with inbox := [.command c] }

/-- The key and the text of 95_test_vectors.md 2.1. -/
def desKey1 : Bytes := hex "133457799BBCDFF1"
def desText1 : Bytes := hex "0123456789ABCDEF"
/-- The ECB padding block of 95_test_vectors.md 6.1 and the one row 8 gives for the key 00. -/
def desPad1 : Bytes := hex "fdf2e174492922f8"
/-- Key, IV and text of 95_test_vectors.md 6. -/
def aesKey1 : Bytes := hex "2b7e151628aed2a6abf7158809cf4f3c"
def aesIv1 : Bytes := hex "000102030405060708090a0b0c0d0e0f"
def aesText1 : Bytes := hex "6bc1bee22e409f96e93d7e117393172aae2d8a571e03ac9c9eb76fac45af8e51"
/-- Key and IV of 95_test_vectors.md 3.2. -/
def tdesKey1 : Bytes := hex "0123456789ABCDEF23456789ABCDEF01456789ABCDEF0123"
def tdesIv1 : Bytes := hex "0011223344556677"

/-! ### WellFormed refuses (30_encoding.md R109) -/

theorem test_wf_iterations_length : (Instr.setPassword [] none (some [0, 0, 1]) none).wf = false := by decide
theorem test_wf_outputLength_length : (Instr.setPassword [] none none (some [0, 0, 0, 0, 16])).wf = false := by decide

/-! ### Decoding: words written out from 30_encoding.md R101, R102 and R107 -/

/-- BLEN = 0x20, KLEN = 0, MODE = 4, ALG = 3, OPC = 0x01. -/
theorem test_decode_configure : decode ⟨0b00100000_00000000_0100_0011_00000001#32, []⟩ = .ok (.configure 3 4 0 32) := by decide
theorem test_decode_setKey : decode ⟨0b00000000_00000000_00000000_00000010#32, [[1]]⟩ = .ok (.setKey [1]) := by decide
theorem test_decode_setIv : decode ⟨0b00000000_00000000_00000000_00000011#32, [[1]]⟩ = .ok (.setIv [1]) := by decide
/-- L = 1, I = 0, S = 1. -/
theorem test_decode_setPassword :
    decode ⟨0b00000000_00000000_00000_1_0_1_00000100#32, [[1], [2], [0, 0, 0, 9]]⟩
      = .ok (.setPassword [1] (some [2]) none (some [0, 0, 0, 9])) := by decide
theorem test_decode_setPassword_iterations :
    decode ⟨0b00000000_00000000_00000_0_1_0_00000100#32, [[1], [0, 0, 0, 9]]⟩
      = .ok (.setPassword [1] none (some [0, 0, 0, 9]) none) := by decide
theorem test_decode_setKeyLength : decode ⟨0b00000000_00100000_00000000_00000101#32, []⟩ = .ok (.setKeyLength 32) := by decide
theorem test_decode_setBlockLength : decode ⟨0b00010100_00000000_00000000_00000110#32, []⟩ = .ok (.setBlockLength 20) := by decide
theorem test_decode_enableCb : decode ⟨0b00000000_00000000_00000000_00001000#32, []⟩ = .ok .enableCb := by decide
theorem test_decode_disableCb : decode ⟨0b00000000_00000000_00000000_00001001#32, []⟩ = .ok .disableCb := by decide
theorem test_decode_enablePad : decode ⟨0b00000000_00000000_00000000_00001010#32, []⟩ = .ok .enablePad := by decide
theorem test_decode_disablePad : decode ⟨0b00000000_00000000_00000000_00001011#32, []⟩ = .ok .disablePad := by decide
theorem test_decode_encrypt : decode ⟨0b00000000_00000000_00000000_00010000#32, [[7]]⟩ = .ok (.encrypt [7]) := by decide
theorem test_decode_decrypt : decode ⟨0b00000000_00000000_00000000_00010001#32, [[7]]⟩ = .ok (.decrypt [7]) := by decide

/-- Unassigned opcodes, among them the gap at 0x07 (30_encoding.md R102, R110). -/
theorem test_decode_unassigned :
    decode ⟨0x00000007#32, []⟩ = .error .unassignedOpcode ∧ decode ⟨0x00000000#32, []⟩ = .error .unassignedOpcode
      ∧ decode ⟨0x0000000C#32, []⟩ = .error .unassignedOpcode ∧ decode ⟨0x00000012#32, []⟩ = .error .unassignedOpcode := by
  decide
/-- Reserved bits: bit 8 of SET_KEY, BLEN of SET_KEY_LENGTH, bit 11 of SET_PASSWORD (30_encoding.md R110). -/
theorem test_decode_reserved :
    decode ⟨0x00000102#32, [[1]]⟩ = .error .reservedBits ∧ decode ⟨0x01200005#32, []⟩ = .error .reservedBits
      ∧ decode ⟨0x00000804#32, [[1]]⟩ = .error .reservedBits := by decide
/-- Operand counts and the length of numeric operands (30_encoding.md R109). -/
theorem test_decode_operands :
    decode ⟨0x00000010#32, []⟩ = .error .operandCount ∧ decode ⟨0x00000008#32, [[1]]⟩ = .error .operandCount
      ∧ decode ⟨0x00000204#32, [[1]]⟩ = .error .operandCount
      ∧ decode ⟨0x00000204#32, [[1], [0, 0, 1]]⟩ = .error .numericOperandLength := by decide
/-- No word matches two rows of the opcode map (30_encoding.md R102). -/
theorem test_rows_disjoint :
    opcodeTable.Pairwise (fun a b => a.pattern &&& (a.mask &&& b.mask) ≠ b.pattern &&& (a.mask &&& b.mask)) := by decide
/-- Words of the programs of 95_test_vectors.md 9.4, 9.5 and 9.6. -/
theorem test_encode_words :
    (encode (.configure 3 4 0 32)).word = 0x20004301#32 ∧ (encode (.configure 1 5 0 0)).word = 0x00005101#32
      ∧ (encode (.setPassword [1] (some [2]) (some [0, 0, 0, 1]) (some [0, 0, 0, 16]))).word = 0x00000704#32
      ∧ (encode (.setKeyLength 32)).word = 0x00200005#32 := by decide
theorem test_decodeTableWord : decodeTableWord 32 0x00000704 = some (.setPassword [] (some []) (some [0, 0, 0, 0]) (some [0, 0, 0, 0])) := by
  decide

/-! ### The assembler (30_encoding.md R112, R113) -/

theorem test_assemble_configure :
    (parseLine "CONFIGURE RIJNDAEL, CTR, blen=32".toList).map (fun l => assemble [l]) = some [⟨0x20004301#32, []⟩] := by
  decide +kernel
theorem test_assemble_password :
    (parseLine "SET_PASSWORD 70, salt=73616c74, iter=1, dklen=16".toList).map (fun l => assemble [l])
      = some [⟨0x00000704#32, [[0x70], [0x73, 0x61, 0x6c, 0x74], [0, 0, 0, 1], [0, 0, 0, 16]]⟩] := by decide +kernel
theorem test_assemble_pseudo :
    (parseLine "RESYNC".toList).map (fun l => assemble [l]) = some [⟨0x00000009#32, []⟩, ⟨0x00000008#32, []⟩]
      ∧ (parseLine "SET_KEY_IV 4b6579, \"\"".toList).map (fun l => assemble [l])
        = some [⟨0x00000002#32, [[0x4b, 0x65, 0x79]]⟩, ⟨0x00000003#32, [[]]⟩] := by decide +kernel

/-! ### One step of each command -/

/-- The BLEN values of 95_test_vectors.md 4.3. -/
theorem test_configure_blockLength :
    [21, 40, 1, 0].map (fun blen => (nextOf (exec (.configure 3 4 0 blen) State.reset)).bs) = [24, 32, 16, 16] := by decide +kernel
/-- 95_test_vectors.md 8, the CONFIGURE row. -/
theorem test_configure_refused :
    [(5, 0), (0, 6), (3, 5), (2, 5)].map (fun c : BitVec 4 × BitVec 4 =>
        let t := nextOf (exec (.configure c.1 c.2 0 0) (ctx .aes .cbc [] []))
        (t.response, t.configured, t.fault, t.pc)) = List.replicate 4 (some .configError, false, none, 1) := by decide +kernel
theorem test_setKey : (nextOf (exec (.setKey [9]) (ctx .aes .cbc [] []))).keyReg = some [9] := by decide +kernel
theorem test_setIv :
    (nextOf (exec (.setIv [9]) { ctx .aes .cbc [] [] with dirty := false })).ivReg = some [9]
      ∧ (nextOf (exec (.setIv [9]) { ctx .aes .cbc [] [] with dirty := false })).dirty = false := by decide +kernel
theorem test_setPassword_no_iterations :
    (nextOf (exec (.setPassword [0x70] none (some [0, 0, 0, 0]) none) (ctx .aes .ecb [] []))).response
      = some (.fault .badKdfParam) := by decide +kernel
theorem test_setKeyLength : (nextOf (exec (.setKeyLength 32) (ctx .aes .ecb [] []))).keyLenParam = 32 := by decide +kernel
theorem test_setBlockLength :
    (nextOf (exec (.setBlockLength 21) (ctx .rijndael .ecb [] []))).blockLen = 24
      ∧ (nextOf (exec (.setBlockLength 21) (ctx .aes .ecb [] []))).blockLen = 16 := by decide +kernel
theorem test_enableCb : (nextOf (exec .enableCb (ctx .aes .cbc [] []))).cbEnabled = true := by decide +kernel
theorem test_disableCb :
    let t := nextOf (exec .disableCb { ctxCb .rc4 .ecb [1] [] with enc := { DirRecord.reset with valid := true } })
    t.cbEnabled = false ∧ t.enc.valid = false := by decide +kernel
theorem test_enablePad : (nextOf (exec .enablePad (ctxNoPad .aes .cbc [] []))).padEnabled = true := by decide +kernel
theorem test_disablePad :
    let t := nextOf (exec .disablePad { ctxCb .rc4 .ecb [1] [] with enc := { DirRecord.reset with valid := true } })
    t.padEnabled = false ∧ t.enc.valid = true := by decide +kernel
/-- 95_test_vectors.md 4.1 [src]. -/
theorem test_encrypt_aes :
    (nextOf (exec (.encrypt (hex "00112233445566778899aabbccddeeff")) (ctxNoPad .aes .ecb aesIv1 []))).response
      = some (.ok (hex "69c4e0d86a7b0430d8cdb78070b4c55a")) := by decide +kernel
theorem test_decrypt_aes :
    (nextOf (exec (.decrypt (hex "69c4e0d86a7b0430d8cdb78070b4c55a")) (ctxNoPad .aes .ecb aesIv1 []))).response
      = some (.ok (hex "00112233445566778899aabbccddeeff")) := by decide +kernel

/-! ### Cipher cores: 95_test_vectors.md -/

/-- 2.1: the first and last subkey and the ciphertext; 2.2: a key of 2 bytes. -/
theorem test_des :
    (desKeySchedule desKey1).head? = some 0x1B02EFFC7072#48 ∧ (desKeySchedule desKey1).getLast? = some 0xCB3D8B0E17F5#48
      ∧ desEncryptBlock (desKeySchedule desKey1) desText1 = hex "85E813540F0AB405"
      ∧ desEncryptBlock (desKeySchedule (desKey (hex "0123"))) (zeros 8) = hex "B1F861C0C67AA20C" := by decide +kernel
/-- 3.1: a key of 16 bytes takes k3 = 0. -/
theorem test_tripleDes :
    (blockCipher (tripleDesSchedule (hex "0123456789ABCDEFFEDCBA9876543210"))).map (fun c => c.E desText1)
      = some (hex "4329B9F7AA39A1D5") := by decide +kernel
/-- 4.2: key expansion, MixColumns and the S-boxes. -/
theorem test_rijndael_parts :
    (rijndaelExpandKey 4 aesKey1)[4]? = some ⟨0xa0, 0xfa, 0xfe, 0x17⟩
      ∧ (rijndaelExpandKey 4 aesKey1)[43]? = some ⟨0xb6, 0x63, 0x0c, 0xa6⟩
      ∧ mixColumn ⟨0xdb, 0x13, 0x53, 0x45⟩ = ⟨0x8e, 0x4d, 0xa1, 0xbc⟩
      ∧ invMixColumn ⟨0x8e, 0x4d, 0xa1, 0xbc⟩ = ⟨0xdb, 0x13, 0x53, 0x45⟩
      ∧ sbox 0x53 = 0xed ∧ invSbox 0x63 = 0x00 := by decide +kernel
/-- 4.3: Nb = 7, Nk = 8. -/
theorem test_rijndael_nb7_nk8 :
    rijndaelEncryptBlock 7 14 (rijndaelExpandKey 7 ((List.range 32).map (BitVec.ofNat 8))) ((List.range 28).map (BitVec.ofNat 8))
      = hex "f60ce17f09292337969e26a2026149609b5c5dc6713e4a7616034e7a" := by decide +kernel
/-- 4.3: a key of 17 bytes is taken as 20. -/
theorem test_rijndael_key17 :
    (nextOf (exec (.encrypt (hex "00112233445566778899aabbccddeeff"))
        (ctxNoPad .aes .ecb (hex "000102030405060708090a0b0c0d0e0f10") []))).response
      = some (.ok (hex "5761b05f7081a5d8a9c52fee1b605f34")) := by decide +kernel
/-- 5.1. -/
theorem test_rc4 :
    (runThrough rc4Step { DirRecord.reset with s := rc4Ksa (hex "4b6579"), i := 0, j := 0 } (hex "506c61696e74657874")).1
      = hex "bbf316e8d940af0ad3" := by decide +kernel

/-! ### Modes: 95_test_vectors.md -/

/-- 6.2: two blocks, and the chaining register after them. -/
theorem test_cbc :
    let t := nextOf (exec (.encrypt aesText1) (ctxCb .aes .cbc aesKey1 aesIv1))
    t.response = some (.ok (hex "7649abac8119b246cee98e9b12e9197d5086cb9b507219ee95db113a917678b2"))
      ∧ t.enc.reg = hex "5086cb9b507219ee95db113a917678b2" := by decide +kernel
/-- 6.3, decryption. -/
theorem test_cfb :
    (nextOf (exec (.decrypt (hex "3b3fd92eb72dad20333449f8e83cfb4ac8a64537a0")) (ctx .aes .cfb aesKey1 aesIv1))).response
      = some (.ok (aesText1.take 21)) := by decide +kernel
/-- 6.4. -/
theorem test_ofb :
    (nextOf (exec (.encrypt (aesText1.take 21)) (ctx .aes .ofb aesKey1 aesIv1))).response
      = some (.ok (hex "3b3fd92eb72dad20333449f8e83cfb4a7789508d16")) := by decide +kernel
/-- 6.5: a DES counter that carries into its left word. -/
theorem test_ctr :
    (nextOf (exec (.encrypt (zeros 16)) (ctx .des .ctr desKey1 (hex "00000000ffffffff")))).response
      = some (.ok (hex "98ebeb2be1de729b7efe1c947b5ba307")) := by decide +kernel
/-- 6.5, the table of CTR_Inc. -/
theorem test_ctrInc :
    ctrInc (hex "ffffffffffffffffffffffffffffffff") = zeros 16
      ∧ ctrInc (hex "0000000000000000000000007fffffff") = hex "00000000000000000000000080000000"
      ∧ ctrInc (hex "00000000ffffffffffffffffffffffff") = hex "00000001000000000000000000000000"
      ∧ ctrInc (hex "7fffffffffffffff") = hex "8000000000000000" := by decide +kernel
/-- 3.2, padding on, and the stage registers after it. -/
theorem test_tcbc :
    let t := nextOf (exec (.encrypt (hex "4E6F77206973207468652074696D6520666F7220616C6C20"))
      { ctx .tripleDes .tcbc tdesKey1 tdesIv1 with cbEnabled := true })
    t.response = some (.ok (hex "5F9A5EDEB6C253418DA897298A3318CB83F27C3835EAD341893A3CD37C236509"))
      ∧ (t.enc.c1, t.enc.c2, t.enc.c3) = (hex "839EE081197C558B", hex "839EE081197C558B", hex "893A3CD37C236509") := by
  decide +kernel
/-- 6.6. -/
theorem test_unpad :
    unpad 8 (hex "41424305050505FF") = none ∧ unpad 8 (hex "4142434445464700") = none
      ∧ unpad 8 (hex "4142430000000003") = some (hex "4142430000") ∧ unpad 8 (hex "0102030405060708") = some []
      ∧ unpad 8 [] = none := by decide +kernel
theorem test_pad :
    pad 8 [] = hex "0808080808080808" ∧ pad 8 [0x41] = hex "4107070707070707"
      ∧ pad 8 (hex "0102030405060708") = hex "01020304050607080808080808080808" := by decide +kernel

/-! ### PBKDF2: 95_test_vectors.md 7, with a SHA-1 of the tests' own -/

/-- One round of SHA-1. -/
def sha1Round (w : List (BitVec 32)) : Nat → Nat → List (BitVec 32) → List (BitVec 32)
  | 0, _, h => h
  | n + 1, t, h =>
    let a := h.getD 0 0; let b := h.getD 1 0; let c := h.getD 2 0; let d := h.getD 3 0; let e := h.getD 4 0
    let (f, k) : BitVec 32 × BitVec 32 :=
      if t < 20 then ((b &&& c) ||| (~~~b &&& d), 0x5A827999) else if t < 40 then (b ^^^ c ^^^ d, 0x6ED9EBA1)
      else if t < 60 then ((b &&& c) ||| (b &&& d) ||| (c &&& d), 0x8F1BBCDC) else (b ^^^ c ^^^ d, 0xCA62C1D6)
    sha1Round w n (t + 1) [a.rotateLeft 5 + f + e + k + w.getD t 0, a, b.rotateLeft 30, c, d]

/-- The message schedule of SHA-1. -/
def sha1Words : Nat → List (BitVec 32) → List (BitVec 32)
  | 0, w => w
  | n + 1, w =>
    let t := w.length
    sha1Words n (w ++ [(w.getD (t - 3) 0 ^^^ w.getD (t - 8) 0 ^^^ w.getD (t - 14) 0 ^^^ w.getD (t - 16) 0).rotateLeft 1])

/-- SHA-1 of a byte string. -/
def sha1 (m : Bytes) : Bytes :=
  let padded := m ++ [0x80] ++ zeros ((119 - m.length % 64) % 64) ++ beBytes 8 (8 * m.length)
  let init : List (BitVec 32) := [0x67452301, 0xEFCDAB89, 0x98BADCFE, 0x10325476, 0xC3D2E1F0]
  let h := (blocks 64 padded).foldl (fun h b =>
    h.zipWith (· + ·) (sha1Round (sha1Words 64 ((blocks 4 b).map fun x => BitVec.ofNat 32 (beNat x))) 80 0 h)) init
  h.flatMap fun x => beBytes 4 x.toNat

/-- HMAC with SHA-1, for keys of at most 64 bytes. -/
def hmacSha1 (key m : Bytes) : Bytes :=
  let k := fit 64 key
  sha1 (xorBytes k (List.replicate 64 0x5c) ++ sha1 (xorBytes k (List.replicate 64 0x36) ++ m))

/-- "password", "salt", two iterations, 20 bytes. -/
theorem test_pbkdf2 :
    pbkdf2 hmacSha1 (hex "70617373776f7264") (hex "73616c74") 2 20 = hex "ea6c014dc72d6f8ccd1ed92ace1d41f0d8de8957" := by
  decide +kernel

/-! ### Witnesses: for each statement with hypotheses, a state and operands that meet them -/

/-- DES with the key of 2.1 and an IV of 8 bytes. -/
def desCtx (mode : Mode) : State := ctx .des mode desKey1 tdesIv1
def desCtxNoPad (mode : Mode) : State := ctxNoPad .des mode desKey1 tdesIv1
def desCtxCb (mode : Mode) : State := ctxCb .des mode desKey1 tdesIv1

/-- The schedule of that key. -/
def desSched1 : Schedule := .des (desKeySchedule (desKey desKey1))
def desCipher1 : BlockCipher := ⟨desEncryptBlock (desKeySchedule (desKey desKey1)), desDecryptBlock (desKeySchedule (desKey desKey1))⟩

/-- Nine bytes: a whole block and one byte more. -/
def text9 : Bytes := hex "0123456789ABCDEF01"

/-- A DES direction record in the middle of a stream. -/
def midStream : DirRecord := { DirRecord.reset with valid := true, pos := 7 }

/-- A command ran and answered OK with that schedule in force. -/
def ranOk (i : Instr) (s : State) : Bool :=
  match exec i s with
  | .next t => t.fault == none && t.sched == some desSched1 && t.response == t.response.map (fun st => .ok (statusOut st))
      && t.response != none
  | .fault _ => false
  | .refused _ => false

theorem of_ranOk {i : Instr} {s : State} (h : ranOk i s = true) :
    ∃ t out, exec i s = .next t ∧ t.fault = none ∧ t.response = some (.ok out) ∧ t.sched = some desSched1 := by
  unfold ranOk at h
  split at h
  · rename_i t ht
    simp only [Bool.and_eq_true, beq_iff_eq, bne_iff_ne] at h
    obtain ⟨⟨⟨hf, hs⟩, hr⟩, hn⟩ := h
    cases hq : t.response with
    | none => exact absurd hq hn
    | some st => rw [hq] at hr; exact ⟨t, _, ht, hf, hq.trans hr, hs⟩
  · cases h
  · cases h

theorem witness_DecodeInvertsEncode :
    (Instr.setPassword [] none (some [0, 0, 0, 0]) (some [255, 255, 255, 255])).wf = true
      ∧ (Instr.configure 15 15 255 255).wf = true := by decide

theorem witness_EncodeInvertsDecode : decode ⟨0xFFFFFF01#32, []⟩ = .ok (.configure 15 15 255 255) := by decide

theorem witness_StepRunsTheDecodedCommand :
    (issuing ⟨0x00000008#32, []⟩ (desCtx .cbc)).inbox = .command ⟨0x00000008#32, []⟩ :: []
      ∧ (issuing ⟨0x00000008#32, []⟩ (desCtx .cbc)).fault = none ∧ decode ⟨0x00000008#32, []⟩ = .ok .enableCb :=
  ⟨rfl, rfl, by decide⟩

/-- An unassigned opcode, a reserved bit, a missing operand and a number of three bytes. -/
theorem witness_StepFaultsOnIllegalCommands :
    (issuing ⟨0x00000007#32, []⟩ (desCtx .cbc)).inbox = .command ⟨0x00000007#32, []⟩ :: []
      ∧ (desCtx .cbc).fault = none ∧ ¬ legalCommand (0x00000007#32).toNat [] ∧ ¬ legalCommand (0x00000102#32).toNat [[1]]
      ∧ ¬ legalCommand (0x00000010#32).toNat [] ∧ ¬ legalCommand (0x00000204#32).toNat [[1], [0, 0, 1]] := by
  refine ⟨rfl, rfl, ?_, ?_, ?_, ?_⟩ <;> (unfold legalCommand; decide)

theorem witness_FaultIsSticky :
    ({ desCtx .cbc with fault := some .keyNotSet, inbox := [.command ⟨0#32, []⟩] } : State).fault = some .keyNotSet
      ∧ ({ desCtx .cbc with fault := some .keyNotSet, inbox := [.command ⟨0#32, []⟩] } : State).inbox = .command ⟨0#32, []⟩ :: [] :=
  ⟨rfl, rfl⟩

theorem witness_PowerUpResetsTheContext :
    ({ desCtx .cbc with fault := some .keyNotSet, inbox := [.powerUp] } : State).inbox = .powerUp :: [] := rfl

theorem witness_OverlapIsRefusedAndIdleHoldsState :
    ({ desCtx .cbc with inbox := [.overlapping ⟨0#32, []⟩] } : State).inbox = .overlapping ⟨0#32, []⟩ :: []
      ∧ (desCtx .cbc).inbox = [] := ⟨rfl, rfl⟩

theorem witness_EveryCommandIsAnswered :
    ∀ c rest, (issuing ⟨0x00000008#32, []⟩ (desCtx .cbc)).inbox ≠ .overlapping c :: rest := by simp [issuing]

/-- One that faults, one that completes with OK, with ConfigurationError and with PaddingError. -/
theorem witness_PcCountsCompletedCommands :
    (∃ t, step (issuing ⟨0x00000007#32, []⟩ (desCtx .cbc)) = .next t ∧ t.response = some (.fault .illegalCommand))
      ∧ (∃ t, step (issuing ⟨0x00000008#32, []⟩ (desCtx .cbc)) = .next t ∧ t.response = some (.ok []))
      ∧ (∃ t, step (issuing ⟨0x00000501#32, []⟩ (desCtx .cbc)) = .next t ∧ t.response = some .configError)
      ∧ ∃ t, step (issuing ⟨0x00000011#32, [[]]⟩ (desCtx .cbc)) = .next t ∧ t.response = some .paddingError :=
  ⟨⟨_, eq_nextOf _ (by decide +kernel), by decide +kernel⟩, ⟨_, eq_nextOf _ (by decide +kernel), by decide +kernel⟩,
    ⟨_, eq_nextOf _ (by decide +kernel), by decide +kernel⟩, ⟨_, eq_nextOf _ (by decide +kernel), by decide +kernel⟩⟩

theorem witness_OtherCommandsNeedConfigure :
    (Instr.encrypt []).opcode ≠ .configure ∧ State.reset.fault = none ∧ State.reset.configured = false := by decide

/-- The largest codes, 3CBC with TripleDES, and AES with CTR. -/
theorem witness_ConfigureCreatesTheContext :
    State.reset.fault = none
      ∧ ((1 : BitVec 4), Algorithm.tripleDes) ∈ [(0, Algorithm.des), (1, .tripleDes), (2, .rc4), (3, .rijndael), (4, .aes)]
      ∧ ((5 : BitVec 4), Mode.tcbc) ∈ [(0, Mode.ecb), (1, .cbc), (2, .cfb), (3, .ofb), (4, .ctr), (5, .tcbc)]
      ∧ (Mode.tcbc = .tcbc → Algorithm.tripleDes = .tripleDes)
      ∧ ((4 : BitVec 4), Algorithm.aes) ∈ [(0, Algorithm.des), (1, .tripleDes), (2, .rc4), (3, .rijndael), (4, .aes)]
      ∧ ((4 : BitVec 4), Mode.ctr) ∈ [(0, Mode.ecb), (1, .cbc), (2, .cfb), (3, .ofb), (4, .ctr), (5, .tcbc)]
      ∧ (Mode.ctr = .tcbc → Algorithm.aes = .tripleDes) := by decide

/-- Each of the three grounds, at its boundary. -/
theorem witness_ConfigureRefusesOtherCodes :
    State.reset.fault = none ∧ 4 < (5 : BitVec 4).toNat ∧ 5 < (6 : BitVec 4).toNat
      ∧ ((5 : BitVec 4).toNat = 5 ∧ (0 : BitVec 4).toNat ≠ 1) ∧ (2 : BitVec 4).toNat ≠ 1 := by decide

theorem witness_ready : (desCtx .cbc).isReady = true ∧ (ctx .rijndael .cbc [] []).isReady = true := by decide

/-- SET_KEY and SET_IV with the empty string, the toggles. -/
theorem witness_SetKeyLoadsTheKey : (desCtx .cbc).isReady = true := witness_ready.1
theorem witness_SetIvLoadsTheIv : (desCtx .cbc).isReady = true := witness_ready.1
theorem witness_TogglesWriteTheirFlag : (desCtx .cbc).isReady = true := witness_ready.1

/-- One iteration, and none. -/
theorem witness_SetPasswordDerivesTheKey :
    (desCtx .cbc).isReady = true ∧ ((some [0, 0, 0, 1]).map beNat).getD Config.kdfDefaultIterations ≠ 0
      ∧ ((some [0, 0, 0, 0]).map beNat).getD Config.kdfDefaultIterations = 0 :=
  ⟨witness_ready.1, by simp [beNat], by simp [beNat]⟩

theorem witness_LengthCommandsStoreTheLengths :
    (ctx .rijndael .cbc [] []).isReady = true ∧ (ctx .rijndael .cbc [] []).alg = .rijndael
      ∧ (desCtx .cbc).isReady = true ∧ (desCtx .cbc).alg ≠ .rijndael := by decide

theorem witness_RegistersHaveTheirWriters :
    ∃ t, exec (.setKey [1]) (desCtx .cbc) = .next t ∧ t.fault = none ∧ (Instr.setKey [1]).opcode ≠ .configure :=
  ⟨_, eq_nextOf _ (by decide +kernel), by decide +kernel, by decide⟩

/-- A padded block mode, a block mode without padding on a whole block and on nothing, a stream mode, and RC4. -/
theorem witness_EncryptCompletes :
    (desCtx .cbc).Inv ∧ (desCtx .cbc).isReady = true ∧ (desCtx .cbc).keyReg = some desKey1
      ∧ cryptFault .enc (desCtx .cbc) text9 = none
      ∧ (desCtxNoPad .cbc).Inv ∧ cryptFault .enc (desCtxNoPad .cbc) desText1 = none ∧ cryptFault .enc (desCtxNoPad .cbc) [] = none
      ∧ (desCtx .cfb).Inv ∧ cryptFault .enc (desCtx .cfb) text9 = none
      ∧ (ctx .rc4 .ecb [1] []).Inv ∧ cryptFault .enc (ctx .rc4 .ecb [1] []) text9 = none :=
  ⟨ctx_inv _ _ _ _ (by simp), by decide, rfl, by decide +kernel, ctxNoPad_inv _ _ _ _ (by simp), by decide +kernel,
    by decide +kernel, ctx_inv _ _ _ _ (by simp), by decide +kernel, ctx_inv _ _ _ _ (by simp), by decide +kernel⟩

/-- A padded block mode on a whole block and on nothing, a stream mode, and RC4. -/
theorem witness_DecryptCompletes :
    (desCtx .cbc).Inv ∧ (desCtx .cbc).isReady = true ∧ (desCtx .cbc).keyReg = some desKey1
      ∧ cryptFault .dec (desCtx .cbc) desText1 = none ∧ cryptFault .dec (desCtx .cbc) [] = none
      ∧ (desCtx .cfb).Inv ∧ cryptFault .dec (desCtx .cfb) text9 = none
      ∧ (ctx .rc4 .ecb [1] []).Inv ∧ cryptFault .dec (ctx .rc4 .ecb [1] []) text9 = none :=
  ⟨ctx_inv _ _ _ _ (by simp), by decide, rfl, by decide +kernel, by decide +kernel, ctx_inv _ _ _ _ (by simp),
    by decide +kernel, ctx_inv _ _ _ _ (by simp), by decide +kernel⟩

/-- Each fault of R367 in turn, the lengths one below and one above a block. -/
theorem witness_CryptFaultsInOrder :
    (desCtx .cbc).Inv ∧ (desCtx .cbc).isReady = true ∧ cryptFault .dec (desCtx .cbc) text9 = some .unalignedInput
      ∧ cryptFault .dec (desCtx .cbc) (text9.take 7) = some .unalignedInput
      ∧ (desCtxNoPad .cbc).Inv ∧ cryptFault .enc (desCtxNoPad .cbc) text9 = some .unalignedInput
      ∧ (ctx .rc4 .cbc [] []).Inv ∧ cryptFault .enc (ctx .rc4 .cbc [] []) [] = some .emptyRc4Key
      ∧ ({ desCtx .cbc with keyReg := none } : State).Inv
      ∧ cryptFault .enc { desCtx .cbc with keyReg := none } [] = some .keyNotSet
      ∧ ({ desCtx .cbc with ivReg := none } : State).Inv
      ∧ cryptFault .enc { desCtx .cbc with ivReg := none } [] = some .ivNotSet :=
  ⟨ctx_inv _ _ _ _ (by simp), by decide, by decide +kernel, by decide +kernel, ctxNoPad_inv _ _ _ _ (by simp), by decide +kernel,
    ctx_inv _ _ _ _ (by simp), by decide +kernel,
    State.Inv.of_dirty (by decide) (fun _ => rfl) (by decide) rfl rfl rfl (by decide), by decide +kernel,
    State.Inv.of_dirty (by decide) (fun _ => rfl) (by decide) rfl rfl rfl (by decide), by decide +kernel⟩

theorem witness_UnalignedInputChangesNothing :
    (desCtx .cbc).Inv ∧ (desCtx .cbc).isReady = true ∧ cryptFault .dec (desCtx .cbc) text9 = some .unalignedInput :=
  ⟨ctx_inv _ _ _ _ (by simp), by decide, by decide +kernel⟩

theorem witness_DirectionsAreIndependent :
    (∃ t, t.fault = none ∧ exec (.encrypt text9) (desCtx .cfb) = .next t)
      ∧ ∃ t, t.fault = none ∧ exec (.decrypt text9) (desCtx .cfb) = .next t := by
  obtain ⟨t, _, h, hf, _⟩ := of_ranOk (i := .encrypt text9) (s := desCtx .cfb) (by decide +kernel)
  obtain ⟨u, _, k, kf, _⟩ := of_ranOk (i := .decrypt text9) (s := desCtx .cfb) (by decide +kernel)
  exact ⟨⟨t, hf, h⟩, u, kf, k⟩

/-- A state whose schedule is already derived. -/
theorem witness_ScheduleIsNeverStale :
    ∃ t, ({ desCtx .cfb with dirty := false, sched := some desSched1 } : State).Inv
      ∧ exec (cryptInstr .enc text9) { desCtx .cfb with dirty := false, sched := some desSched1 } = .next t
      ∧ t.fault = none := by
  obtain ⟨t, _, h, hf, _⟩ := of_ranOk (i := cryptInstr .enc text9)
    (s := { desCtx .cfb with dirty := false, sched := some desSched1 }) (by decide +kernel)
  have hi := ctx_inv .des .cfb desKey1 tdesIv1 (by simp)
  refine ⟨t, ⟨hi.blockLenLegal, hi.blockLenFixed, hi.tcbcAlgorithm, ?_, ⟨by decide, by decide, by decide⟩,
    ⟨by decide, by decide, by decide⟩, hi.assertion⟩, h, hf⟩
  rintro key hk -
  cases hk
  exact ⟨desSched1, rfl, rfl⟩

theorem witness_EcbTransformsEachBlock :
    (∃ t, (desCtx .ecb).Inv ∧ (desCtx .ecb).mode = .ecb ∧ t.fault = none ∧ t.sched = some desSched1
        ∧ blockCipher desSched1 = some desCipher1 ∧ exec (.encrypt text9) (desCtx .ecb) = .next t)
      ∧ ∃ t, t.fault = none ∧ t.sched = some desSched1 ∧ exec (.decrypt (desPad1)) (desCtx .ecb) = .next t := by
  obtain ⟨t, _, h, hf, _, hs⟩ := of_ranOk (i := .encrypt text9) (s := desCtx .ecb) (by decide +kernel)
  obtain ⟨u, _, k, kf, _, ks⟩ := of_ranOk (i := .decrypt desPad1) (s := desCtx .ecb) (by decide +kernel)
  exact ⟨⟨t, ctx_inv _ _ _ _ (by simp), rfl, hf, hs, rfl, h⟩, u, kf, ks, k⟩

/-- A text of one block, and the empty text without padding, with continuous buffering. -/
theorem witness_CbcEncryptsInAChain :
    (∃ t out, (desCtxCb .cbc).Inv ∧ (desCtxCb .cbc).mode = .cbc ∧ exec (.encrypt desText1) (desCtxCb .cbc) = .next t
        ∧ t.response = some (.ok out) ∧ t.sched = some desSched1 ∧ blockCipher desSched1 = some desCipher1
        ∧ (desCtxCb .cbc).cbEnabled = true)
      ∧ ∃ t out, exec (.encrypt []) (desCtxCb .cbc) = .next t ∧ t.response = some (.ok out) ∧ t.sched = some desSched1 := by
  obtain ⟨t, o, h, _, hr, hs⟩ := of_ranOk (i := .encrypt desText1) (s := desCtxCb .cbc) (by decide +kernel)
  obtain ⟨u, p, k, _, kr, ks⟩ := of_ranOk (i := .encrypt []) (s := desCtxCb .cbc) (by decide +kernel)
  exact ⟨⟨t, o, ctxCb_inv _ _ _ _ (by simp), rfl, h, hr, hs, rfl, rfl⟩, u, p, k, kr, ks⟩

theorem witness_CbcDecryptsInAChain :
    (∃ t, (desCtxCb .cbc).Inv ∧ (desCtxCb .cbc).mode = .cbc ∧ exec (.decrypt desText1) (desCtxCb .cbc) = .next t
        ∧ t.fault = none ∧ t.sched = some desSched1 ∧ blockCipher desSched1 = some desCipher1
        ∧ (desCtxCb .cbc).cbEnabled = true)
      ∧ ∃ t, exec (.decrypt []) (desCtxCb .cbc) = .next t ∧ t.fault = none ∧ t.sched = some desSched1 := by
  obtain ⟨t, _, h, hf, _, hs⟩ := of_ranOk (i := .decrypt desText1) (s := desCtxCb .cbc) (by decide +kernel)
  obtain ⟨u, _, k, kf, _, ks⟩ := of_ranOk (i := .decrypt []) (s := desCtxCb .cbc) (by decide +kernel)
  exact ⟨⟨t, ctxCb_inv _ _ _ _ (by simp), rfl, h, hf, hs, rfl, rfl⟩, u, k, kf, ks⟩

/-- A stream mode in either direction, on nine bytes. -/
theorem stream_witness (d : Direction) (mode : Mode) (hm : mode = .cfb ∨ mode = .ofb ∨ mode = .ctr) :
    ∃ t out, (desCtx mode).Inv ∧ (desCtx mode).startsFresh d = true ∧ exec (cryptInstr d text9) (desCtx mode) = .next t
      ∧ t.response = some (.ok out) ∧ t.sched = some desSched1 ∧ blockCipher desSched1 = some desCipher1 ∧ 8 < text9.length := by
  have hr : ∀ (d : Direction) (mode : Mode), mode ∈ [Mode.cfb, .ofb, .ctr] → ranOk (cryptInstr d text9) (desCtx mode) = true := by
    intro d mode hm
    fin_cases hm <;> cases d <;> decide +kernel
  obtain ⟨t, o, h, _, hr, hs⟩ := of_ranOk (hr d mode (by simpa using hm))
  have h3 : mode ≠ .tcbc := by rcases hm with rfl | rfl | rfl <;> decide
  exact ⟨t, o, ctx_inv _ _ _ _ (fun h => absurd h h3), rfl, h, hr, hs, rfl, by decide +kernel⟩

theorem witness_CfbFeedsBackTheCiphertext (d : Direction) :
    ∃ t out, (desCtx .cfb).Inv ∧ (desCtx .cfb).startsFresh d = true ∧ exec (cryptInstr d text9) (desCtx .cfb) = .next t
      ∧ t.response = some (.ok out) ∧ t.sched = some desSched1 ∧ blockCipher desSched1 = some desCipher1 ∧ 8 < text9.length :=
  stream_witness d .cfb (by simp)

theorem witness_OfbKeystreamIsIterated (d : Direction) :
    ∃ t out, (desCtx .ofb).Inv ∧ (desCtx .ofb).startsFresh d = true ∧ exec (cryptInstr d text9) (desCtx .ofb) = .next t
      ∧ t.response = some (.ok out) ∧ t.sched = some desSched1 ∧ blockCipher desSched1 = some desCipher1 ∧ 8 < text9.length :=
  stream_witness d .ofb (by simp)

theorem witness_CtrKeystreamCounts (d : Direction) :
    ∃ t out, (desCtx .ctr).Inv ∧ (desCtx .ctr).startsFresh d = true ∧ exec (cryptInstr d text9) (desCtx .ctr) = .next t
      ∧ t.response = some (.ok out) ∧ t.sched = some desSched1 ∧ blockCipher desSched1 = some desCipher1 ∧ 8 < text9.length :=
  stream_witness d .ctr (by simp)

theorem witness_CtrIncIsBigEndianIncrement : (List.replicate 16 (0xFF : Byte)).length % 4 = 0 ∧ ([] : Bytes).length % 4 = 0 := by
  decide

/-- 3CBC under continuous buffering, both records valid, the three stage registers different. -/
def tcbcStream : State :=
  { ctxCb .tripleDes .tcbc tdesKey1 tdesIv1 with
    enc := { midStream with c1 := zeros 8, c2 := desText1, c3 := desKey1 }
    dec := { midStream with c1 := desKey1, c2 := zeros 8, c3 := desText1 } }

theorem tcbcStream_inv : tcbcStream.Inv where
  blockLenLegal := by decide
  blockLenFixed := fun _ => rfl
  tcbcAlgorithm := fun _ => rfl
  scheduleFresh := fun _ _ h => absurd h (by decide)
  encInv := ⟨fun _ => rfl, fun _ => by decide +kernel, fun _ _ _ => by decide⟩
  decInv := ⟨fun _ => rfl, fun _ => by decide +kernel, fun _ _ _ => by decide⟩
  assertion := by decide

/-- A call that continues a valid record in either direction, one of them on the empty text; and one from a fresh record. -/
theorem witness_TripleCbcIsThreePasses :
    ∃ t u ks1 ks2 ks3, tcbcStream.Inv ∧ tcbcStream.mode = .tcbc ∧ tcbcStream.cbEnabled = true
      ∧ t.fault = none ∧ t.sched = some (.tripleDes ks1 ks2 ks3)
      ∧ tcbcStream.startStages .enc = (zeros 8, desText1, desKey1) ∧ exec (.encrypt []) tcbcStream = .next t
      ∧ u.fault = none ∧ u.sched = some (.tripleDes ks1 ks2 ks3)
      ∧ tcbcStream.startStages .dec = (desKey1, zeros 8, desText1) ∧ exec (.decrypt []) tcbcStream = .next u
      ∧ (ctx .tripleDes .tcbc tdesKey1 tdesIv1).Inv ∧ (ctx .tripleDes .tcbc tdesKey1 tdesIv1).startsFresh .enc = true := by
  refine ⟨_, _, desKeySchedule (tdesKey1.take 8), desKeySchedule ((tdesKey1.drop 8).take 8), desKeySchedule (tdesKey1.drop 16),
    tcbcStream_inv, rfl, rfl, ?_, ?_, rfl, eq_nextOf _ ?_, ?_, ?_, rfl, eq_nextOf _ ?_, ctx_inv _ _ _ _ (by simp), rfl⟩ <;>
    decide +kernel

theorem witness_UnpadInvertsPad : (0 < 1 ∧ 1 < 256) ∧ 0 < 255 ∧ 255 < 256 := by decide

theorem witness_PaddingErrorStillAdvances :
    ∃ t, exec (.decrypt desText1) (desCtx .ecb) = .next t ∧ t.response = some .paddingError :=
  ⟨_, eq_nextOf _ (by decide +kernel), by decide +kernel⟩

/-- A stream cut inside its second block. -/
theorem witness_ChunkingIsInvisible :
    ∃ t out, (desCtxCb .cfb).Inv ∧ (desCtxCb .cfb).cbEnabled = true
      ∧ ((desCtxCb .cfb).alg = .rc4 ∨ blockAligned (desCtxCb .cfb).mode = false)
      ∧ exec (cryptInstr .dec (text9 ++ [1])) (desCtxCb .cfb) = .next t ∧ t.response = some (.ok out) := by
  obtain ⟨t, o, h, _, hr, _⟩ := of_ranOk (i := cryptInstr .dec (text9 ++ [1])) (s := desCtxCb .cfb) (by decide +kernel)
  exact ⟨t, o, ctxCb_inv _ _ _ _ (by simp), rfl, .inr rfl, h, hr⟩

theorem witness_NonContinuousCallsRepeat :
    ∃ t, (desCtx .cfb).Inv ∧ (desCtx .cfb).cbEnabled = false ∧ exec (cryptInstr .enc text9) (desCtx .cfb) = .next t :=
  ⟨_, ctx_inv _ _ _ _ (by simp), rfl, eq_nextOf _ (by decide +kernel)⟩

theorem witness_DecryptInvertsEncrypt :
    ∃ t C, (desCtx .cbc).Inv ∧ (desCtx .cbc).cbEnabled = false ∧ exec (.encrypt text9) (desCtx .cbc) = .next t
      ∧ t.response = some (.ok C) := by
  obtain ⟨t, o, h, _, hr, _⟩ := of_ranOk (i := .encrypt text9) (s := desCtx .cbc) (by decide +kernel)
  exact ⟨t, o, ctx_inv _ _ _ _ (by simp), rfl, h, hr⟩

/-- Two keys that differ in the parity bit of their last byte (95_test_vectors.md 2.2). -/
theorem witness_DesIgnoresParityBits :
    desKey1.length = 8 ∧ (hex "133457799BBCDFF0").length = 8 ∧ desKey1 ≠ hex "133457799BBCDFF0"
      ∧ desKey1.map (fun b : Byte => b >>> 1) = (hex "133457799BBCDFF0").map (fun b : Byte => b >>> 1) := by decide +kernel

theorem witness_DesAndTripleDesDecryptInvertEncrypt : desText1.length = 8 := by decide +kernel

/-- A key of exactly 8 bytes, and the empty key. -/
theorem witness_ShortKeyTripleDesIsDes :
    (ctx .tripleDes .cbc desKey1 []).alg = .tripleDes ∧ (ctx .tripleDes .cbc desKey1 []).mode ≠ .tcbc
      ∧ (ctx .tripleDes .cbc desKey1 []).keyReg = some desKey1 ∧ desKey1.length ≤ 8 ∧ ([] : Bytes).length ≤ 8
      ∧ (ctx .tripleDes .cbc desKey1 []).dirty = true := by decide +kernel

theorem witness_ShortKeyTripleCbcIsDesCbc :
    (ctx .tripleDes .tcbc desKey1 []).alg = .tripleDes ∧ (ctx .tripleDes .tcbc desKey1 []).mode = .tcbc
      ∧ (ctx .tripleDes .tcbc desKey1 []).keyReg = some desKey1 ∧ desKey1.length ≤ 8
      ∧ (ctx .tripleDes .tcbc desKey1 []).dirty = true ∧ (ctx .tripleDes .tcbc desKey1 []).startsFresh .enc = true := by
  decide +kernel

theorem witness_InverseLayersUndoTheirLayers :
    (4 ∈ [4, 5, 6, 7, 8] ∧ (List.replicate 4 zeroColumn).length = 4)
      ∧ 8 ∈ [4, 5, 6, 7, 8] ∧ (List.replicate 8 zeroColumn).length = 8 := by decide

/-- The inverse of a byte that is not 0. -/
theorem witness_SboxIsAffineOfInverse : (0x53 : Byte) ≠ 0 ∧ gfMul 0x53 0xCA = 1 := by decide

/-- The last byte of a normalised key of 16 bytes. -/
theorem witness_RijndaelKeyIsNormalised : 15 < (rijndaelKey 0 [1]).length := by decide

theorem witness_KeyExpansionRecurrence :
    4 ∈ [4, 5, 6, 7, 8] ∧ 8 ∈ [4, 5, 6, 7, 8] ∧ (zeros 32).length = 4 * 8 ∧ 0 < 8 ∧ 8 ≤ 8 ∧ 8 < 4 * (max 4 8 + 6 + 1) := by
  decide

theorem witness_RijndaelDecryptInvertsEncrypt :
    8 ∈ [4, 5, 6, 7, 8] ∧ 4 ∈ [4, 5, 6, 7, 8] ∧ (zeros 16).length = 4 * 4 ∧ (zeros 32).length = 4 * 8 := by decide

theorem witness_EquivalentInverseCipherAgrees :
    4 ∈ [4, 5, 6, 7, 8] ∧ 0 < 1 ∧ (List.replicate 8 zeroColumn).length = 4 * (1 + 1) ∧ (zeros 16).length = 4 * 4 := by decide

/-- RC4 with a valid encrypt record in the middle of a stream. -/
def rc4Mid : State :=
  { ctxCb .rc4 .cbc [1] [] with enc := { DirRecord.reset with valid := true, s := permIdentity, i := 255, j := 7 } }

/-- A call from a fresh record, and one that continues a stream whose i is about to wrap. -/
theorem witness_Rc4RunsTheGenerator :
    (ctx .rc4 .cbc [1] []).Inv ∧ (ctx .rc4 .cbc [1] []).isReady = true ∧ (ctx .rc4 .cbc [1] []).alg = .rc4
      ∧ (ctx .rc4 .cbc [1] []).keyReg = some [1] ∧ ([1] : Bytes) ≠ [] ∧ (ctx .rc4 .cbc [1] []).startsFresh .enc = true
      ∧ rc4Mid.Inv ∧ rc4Mid.isReady = true ∧ rc4Mid.alg = .rc4 ∧ rc4Mid.keyReg = some [1]
      ∧ rc4Mid.startsFresh .enc = false ∧ rc4Mid.cbEnabled = true := by
  have hi := ctxCb_inv .rc4 .cbc [1] [] (by simp)
  exact ⟨ctx_inv _ _ _ _ (by simp), by decide, rfl, rfl, by decide, rfl,
    ⟨hi.blockLenLegal, hi.blockLenFixed, hi.tcbcAlgorithm, hi.scheduleFresh,
      ⟨fun _ => rfl, fun _ => by decide +kernel, fun _ h => absurd rfl h⟩, ⟨by decide, by decide, by decide⟩, hi.assertion⟩,
    by decide, rfl, rfl, rfl, rfl⟩

/-- A key of one byte, and one longer than the table. -/
theorem witness_Rc4KeyScheduleSwaps : ([1] : Bytes) ≠ [] ∧ zeros 257 ≠ [] := by decide +kernel

/-- Keys of 8 and of 9 bytes, on the two sides of the bound. -/
theorem witness_DesKeysAreNormalised : (zeros 8).length ≤ 8 ∧ 8 < (zeros 9).length ∧ 7 < 8 := by decide

theorem witness_Rc4ReadsTheFirst256KeyBytes : 256 < (zeros 257).length := by decide +kernel

/-- An RC4 stream under way: its tables are the identity, and a byte is encrypted. -/
def rc4Stream : State :=
  { ctxCb .rc4 .ecb [1] [] with
    dirty := false, sched := some (.rc4 permIdentity)
    enc := { DirRecord.reset with valid := true, s := permIdentity }
    inbox := [.command ⟨0x00000010#32, [[7]]⟩] }

theorem witness_Rc4TablesStayPermutations :
    rc4Stream.Rc4Permutations ∧ ∃ t, step rc4Stream = .next t ∧ t.fault = none :=
  ⟨⟨by rintro s0 h; cases h; exact .refl _, fun _ _ => .refl _, fun _ h => absurd h (by decide)⟩, _, eq_nextOf _ (by decide +kernel),
    by decide +kernel⟩

theorem witness_Pbkdf2IsTheXorOfIterates : 0 < 1 ∧ 0 < 1 := by decide

theorem witness_StepKeepsTheInvariant :
    ∃ t, (issuing ⟨0x00000010#32, [text9]⟩ (desCtxCb .cfb)).Inv
      ∧ step (issuing ⟨0x00000010#32, [text9]⟩ (desCtxCb .cfb)) = .next t ∧ t.fault = none :=
  ⟨_, State.Inv.of_dirty (by decide) (fun _ => rfl) (by decide) rfl rfl rfl (by decide), eq_nextOf _ (by decide +kernel),
    by decide +kernel⟩

/-- A stream in the middle of a block, and one at its end. -/
theorem witness_ViewsHaveTheirLengths :
    ({ desCtxCb .cfb with enc := midStream } : State).Inv ∧ (desCtxCb .cfb).alg ≠ .rc4
      ∧ (State.dir .enc { desCtxCb .cfb with enc := midStream }).valid = true
      ∧ ({ desCtxCb .cfb with enc := { midStream with pos := 0 } } : State).Inv := by
  have hi := ctxCb_inv .des .cfb desKey1 tdesIv1 (by simp)
  refine ⟨⟨hi.blockLenLegal, hi.blockLenFixed, hi.tcbcAlgorithm, hi.scheduleFresh, ?_, ⟨by decide, by decide, by decide⟩,
    hi.assertion⟩, by decide, rfl, ⟨hi.blockLenLegal, hi.blockLenFixed, hi.tcbcAlgorithm, hi.scheduleFresh, ?_,
    ⟨by decide, by decide, by decide⟩, hi.assertion⟩⟩ <;> exact ⟨by decide, by decide, by simp [desCtxCb, ctxCb, ctxNoPad, ctx]⟩

/-- TripleDES in 3CBC with an empty key, IV and text. -/
def bootSequence : List HostEvent :=
  [Instr.configure (algorithmCode .tripleDes) (modeCode .tcbc) 0 0, .setKey [], .setIv [], .encrypt []].map
    (fun i => HostEvent.command (encode i))

theorem witness_BootSequenceEncrypts :
    ({ State.reset with inbox := bootSequence } : State).fault = none ∧ (Mode.tcbc = .tcbc → Algorithm.tripleDes = .tripleDes)
      ∧ (Algorithm.tripleDes = .rc4 → ([] : Bytes) ≠ [])
      ∧ ({ State.reset with inbox := bootSequence } : State).inbox
        = [.configure (algorithmCode .tripleDes) (modeCode .tcbc) 0 0, .setKey [], .setIv [], .encrypt []].map
          (fun i => HostEvent.command (encode i)) := ⟨rfl, fun _ => rfl, fun h => (nomatch h), rfl⟩

theorem witness_ResyncDiscardsBothDirections :
    ({ desCtxCb .cfb with enc := midStream, inbox := (assemble [.resync]).map .command } : State).isReady = true
      ∧ ({ desCtxCb .cfb with enc := midStream, inbox := (assemble [.resync]).map .command } : State).inbox
        = (assemble [.resync]).map .command := ⟨rfl, rfl⟩

end Sys2Proof.Tests
end

section
/-! The key side of DES and TripleDES: the parity bits the schedule does not read (40_des.md R131), and how a key of any length
is fitted and split (40_des.md R130, 41_tripledes.md R170). -/

namespace Sys2Proof.Machine

/-! ### Parity bits -/

/-- Bit i of `BE(b)`, numbered from the most significant, is bit i mod 8 of byte i div 8. -/
theorem beNat_testBit (b : Bytes) {i : Nat} (hi : i < 8 * b.length) :
    (beNat b).testBit (8 * b.length - 1 - i) = (b.getD (i / 8) 0).getMsbD (i % 8) := by
  induction b generalizing i with
  | nil => simp at hi
  | cons x b ih =>
    have hpow : 256 ^ b.length = 2 ^ (8 * b.length) := by rw [pow_mul]; norm_num
    have hval : beNat (x :: b) = 2 ^ (8 * b.length) * x.toNat + beNat b := by
      rw [← hpow, Nat.mul_comm]; simpa [beNat] using beNat_append [x] b
    rw [List.length_cons] at hi ⊢
    rw [hval, Nat.testBit_two_pow_mul_add _ (hpow ▸ beNat_lt b)]
    by_cases h8 : i < 8
    · have hpos : 8 * (b.length + 1) - 1 - i - 8 * b.length = 8 - 1 - i := by omega
      rw [if_neg (by omega), hpos, Nat.div_eq_of_lt h8, Nat.mod_eq_of_lt h8, List.getD_cons_zero,
        BitVec.getMsbD_eq_getLsbD, decide_eq_true h8, Bool.true_and, BitVec.testBit_toNat]
    · obtain ⟨j, rfl⟩ : ∃ j, i = j + 8 := ⟨i - 8, by omega⟩
      have hpos : 8 * (b.length + 1) - 1 - (j + 8) = 8 * b.length - 1 - j := by omega
      rw [hpos, if_pos (by omega), ih (by omega), Nat.add_div_right j (by decide), Nat.add_mod_right, List.getD_cons_succ]

/-- The bits of an 8-byte key as the key schedule numbers them (40_des.md R133). -/
theorem beNat_getMsbD {b : Bytes} (hb : b.length = 8) {i : Nat} (hi : i < 64) :
    (BitVec.ofNat 64 (beNat b)).getMsbD i = (b.getD (i / 8) 0).getMsbD (i % 8) := by
  have h := beNat_testBit b (i := i) (by omega)
  rw [hb] at h
  rw [BitVec.getMsbD_eq_getLsbD, BitVec.getLsbD_ofNat, ← h]
  simp [hi, show 64 - 1 - i < 64 by omega]

/-- Bytes that agree but for the least significant bit agree in their seven most significant bits. -/
theorem getMsbD_eq_of_shift_eq {x y : Byte} (h : x >>> 1 = y >>> 1) {j : Nat} (hj : j < 7) : x.getMsbD j = y.getMsbD j := by
  have hbit := congrArg (·.getMsbD (j + 1)) h
  simpa [BitVec.getMsbD_ushiftRight, show j + 1 < 8 by omega] using hbit

/-- `permute` reads no bit but those its table names. -/
theorem permute_congr {n m : Nat} {table : List Nat} {v v' : BitVec n}
    (h : ∀ k ∈ table, v.getMsbD (k - 1) = v'.getMsbD (k - 1)) : permute m table v = permute m table v' := by
  rw [permute, permute, List.foldl_ext _ _ _ fun acc k hk => by rw [h k hk]]

/-- Permuted choice 1 names bits of the key, and no byte's last. -/
theorem pc1_skips_parity : ∀ k ∈ pc1, k - 1 < 64 ∧ (k - 1) % 8 < 7 := by decide

/-- `CD0` is the same for keys that agree but for the parity bits. -/
theorem desCd0_eq_of_shift_eq {k k' : Bytes} (hk : k.length = 8) (hk' : k'.length = 8)
    (h : k.map (fun b : Byte => b >>> 1) = k'.map (fun b : Byte => b >>> 1)) : desCd0 k = desCd0 k' := by
  have hbyte (n : Nat) : k.getD n 0 >>> 1 = k'.getD n 0 >>> 1 := by
    rw [← List.getD_map (f := fun b : Byte => b >>> 1), h, List.getD_map]
  refine permute_congr fun n hn => ?_
  obtain ⟨hlt, hparity⟩ := pc1_skips_parity n hn
  rw [beNat_getMsbD hk hlt, beNat_getMsbD hk' hlt, getMsbD_eq_of_shift_eq (hbyte _) hparity]

/-- Settles O40: the key enters the schedule through `CD0` alone, and permuted choice 1 selects no parity bit. -/
theorem desIgnoresParityBits : Obligations.DesIgnoresParityBits := by
  intro k k' hk hk' h
  rw [desKeySchedule, desKeySchedule, desCd0_eq_of_shift_eq hk hk' h]

/-! ### Normalisation and the key split -/

/-- The first bytes of a fitted string are the string fitted to fewer bytes. -/
theorem slice_zero_fit {m n : Nat} (h : m ≤ n) (b : Bytes) : slice 0 m (fit n b) = fit m b := by
  have hzeros : min (m - min n b.length) (n - b.length) = m - b.length := by omega
  simp only [slice, fit, zeros, List.drop_zero, List.take_append, List.take_take, List.length_take, List.take_replicate,
    Nat.min_eq_left h, hzeros]

/-- A byte of a slice of a fitted string, inside it, is the string's own, or zero beyond its end. -/
theorem slice_fit_getD {a m n i : Nat} (b : Bytes) (ham : a + m ≤ n) (hi : i < m) :
    (slice a m (fit n b)).getD i 0 = b.getD (a + i) 0 := by
  rw [slice_getD _ hi, fit_getD _ (by omega)]

theorem tripleDesKeys_of_short {key : Bytes} (h : key.length ≤ 8) :
    tripleDesKeys key = (desKey key, desKey key, desKey key) := if_pos h

theorem tripleDesKeys_of_long {key : Bytes} (h : 8 < key.length) :
    tripleDesKeys key = (desKey key, slice 8 8 (fit 24 key), slice 16 8 (fit 24 key)) := by
  rw [desKey, ← slice_zero_fit (by decide : 8 ≤ 24)]
  exact if_neg (by omega)

/-- The first key of TripleDES is the key DES takes. -/
theorem tripleDesKeys_fst (key : Bytes) : (tripleDesKeys key).1 = desKey key := by
  rcases Nat.lt_or_ge 8 key.length with h | h
  · rw [tripleDesKeys_of_long h]
  · rw [tripleDesKeys_of_short h]

/-- Settles O60: the three keys are those of `tripleDesKeys`, the first of them that of DES. -/
theorem desKeysAreNormalised : Obligations.DesKeysAreNormalised := by
  intro bs klen key
  obtain ⟨h1, h2, h3⟩ := tripleDesKeys_length key
  refine ⟨_, _, _, h1, h2, h3, ?_, rfl, fun n hn => ?_, fun h => ?_, fun h n hn => ?_⟩
  · rw [tripleDesKeys_fst]; rfl
  · rw [tripleDesKeys_fst]; exact fit_getD key hn
  · rw [tripleDesKeys_of_short h]; exact ⟨rfl, rfl⟩
  · rw [tripleDesKeys_of_long h]
    exact ⟨slice_fit_getD key (by decide) hn, slice_fit_getD key (by decide) hn⟩

end Sys2Proof.Machine
end

section
/-! TripleDES with a key of at most 8 bytes (41_tripledes.md R173). The inner DES decryption undoes the first encryption, so the
TripleDES and the DES schedule have one block cipher; and of the algorithm, ENCRYPT and DECRYPT outside 3CBC read that block
cipher, the block size and the shapes alone. -/

namespace Sys2Proof.Machine

/-! ### DES decryption undoes encryption (40_des.md R154) -/

/-- Two selections cancel where the second table sends each place to the one the first took it from. -/
theorem permute_permute_cancel {m : Nat} {t u : List Nat} (ht : t.length = m) (hu : u.length = m)
    (h : ∀ k < m, u.getD k 0 - 1 < m ∧ t.getD (u.getD k 0 - 1) 0 - 1 = k) (v : BitVec m) :
    permute m u (permute m t v) = v := by
  refine BitVec.eq_of_getMsbD_eq fun k hk => ?_
  obtain ⟨hlt, hback⟩ := h k hk
  rw [permute_getMsbD m u _ hu k hk, permute_getMsbD m t _ ht _ hlt, hback]

theorem fp_undoes_ip (v : BitVec 64) : permute 64 fpTable (permute 64 ipTable v) = v :=
  permute_permute_cancel (by decide) (by decide) (by decide) v

theorem ip_undoes_fp (v : BitVec 64) : permute 64 ipTable (permute 64 fpTable v) = v :=
  permute_permute_cancel (by decide) (by decide) (by decide) v

/-- A round on the exchanged halves undoes the round with the same subkey, and leaves the halves exchanged. -/
theorem desRound_swap_desRound (LR : BitVec 32 × BitVec 32) (k : DesSubkey) :
    desRound (desRound LR k).swap k = LR.swap := by
  simp [desRound, Prod.swap]

/-- The rounds in reverse order, from the exchanged halves, undo the rounds. -/
theorem desRounds_reverse (ks : List DesSubkey) (LR : BitVec 32 × BitVec 32) :
    ks.reverse.foldl desRound (ks.foldl desRound LR).swap = LR.swap := by
  induction ks generalizing LR with
  | nil => rfl
  | cons k ks ih =>
    rw [List.foldl_cons, List.reverse_cons, List.foldl_append, ih, List.foldl_cons, List.foldl_nil, desRound_swap_desRound]

theorem desCrypt64_reverse (ks : List DesSubkey) (v : BitVec 64) : desCrypt64 ks.reverse (desCrypt64 ks v) = v := by
  have hrounds := desRounds_reverse ks
    ((permute 64 ipTable v).extractLsb' 32 32, (permute 64 ipTable v).extractLsb' 0 32)
  have hjoin (w : BitVec 64) : w.extractLsb' 32 32 ++ w.extractLsb' 0 32 = w :=
    BitVec.extractLsb'_append_extractLsb'_eq_extractLsb' (by decide) |>.trans BitVec.extractLsb'_eq_self
  simp only [Prod.swap] at hrounds
  simp only [desCrypt64, ip_undoes_fp, BitVec.extractLsb'_append_eq_left, BitVec.extractLsb'_append_eq_right, hrounds, hjoin,
    fp_undoes_ip]

/-- The value of an output block is the transform of the value of its input, whatever the input's length. -/
theorem blockValue_desEncryptBlock (ks : List DesSubkey) (x : Bytes) :
    BitVec.ofNat 64 (beNat (desEncryptBlock ks x)) = desCrypt64 ks (BitVec.ofNat 64 (beNat x)) := by
  rw [desEncryptBlock, beNat_beBytes, Nat.mod_eq_of_lt (by simpa using BitVec.isLt _), BitVec.ofNat_toNat, BitVec.setWidth_eq]

/-- The two transforms after the first cancel: all three work on 64-bit values, so inputs of any length are covered. -/
theorem desEncryptBlock_reverse_desEncryptBlock (ks : List DesSubkey) (x : Bytes) :
    desEncryptBlock ks (desEncryptBlock ks.reverse (desEncryptBlock ks x)) = desEncryptBlock ks x := by
  rw [desEncryptBlock, blockValue_desEncryptBlock, blockValue_desEncryptBlock, desCrypt64_reverse, ← desEncryptBlock]

/-- With one schedule in all three places TripleDES is DES (41_tripledes.md R173). -/
theorem blockCipher_tripleDes_same (ks : List DesSubkey) : blockCipher (.tripleDes ks ks ks) = blockCipher (.des ks) := by
  have hE : tripleDesEncryptBlock ks ks ks = desEncryptBlock ks :=
    funext fun x => desEncryptBlock_reverse_desEncryptBlock ks x
  have hD : tripleDesDecryptBlock ks ks ks = desDecryptBlock ks := funext fun x => by
    have h := desEncryptBlock_reverse_desEncryptBlock ks.reverse x
    rwa [List.reverse_reverse] at h
  rw [blockCipher, blockCipher, hE, hD]

theorem tripleDesSchedule_of_short {key : Bytes} (h : key.length ≤ 8) :
    tripleDesSchedule key
      = .tripleDes (desKeySchedule (desKey key)) (desKeySchedule (desKey key)) (desKeySchedule (desKey key)) := by
  rw [tripleDesSchedule, tripleDesKeys_of_short h]

/-! ### What ENCRYPT and DECRYPT answer, the schedule still to be derived -/

/-- The mode function of a direction. -/
def cryptText : Direction → Bytes → State → Schedule → DirRecord → ModeResult
  | .enc, text => fun s sched r => encryptText s sched r text
  | .dec, text => fun s sched r => decryptText s sched r text

theorem exec_cryptInstr (d : Direction) (text : Bytes) (s : State) :
    exec (cryptInstr d text) s = whenConfigured (crypt d (cryptText d text)) s := by
  cases d <;> rfl

/-- The dispatch keeps two states on equal answers where it treats them alike (45_control.md R320). -/
theorem whenConfigured_response_congr {body : State → Result} {s u : State} (hf : s.fault = u.fault)
    (hc : s.configured = u.configured)
    (h : ∃ t t', body s = .next t ∧ body u = .next t' ∧ t.response = t'.response) :
    ∃ t t', whenConfigured body s = .next t ∧ whenConfigured body u = .next t' ∧ t.response = t'.response := by
  cases hr : s.fault with
  | some r => exact ⟨_, _, whenConfigured_of_fault hr, whenConfigured_of_fault (hf ▸ hr), rfl⟩
  | none =>
    cases hcs : s.configured with
    | false =>
      exact ⟨_, _, whenConfigured_of_not_configured hr hcs, whenConfigured_of_not_configured (hf ▸ hr) (hc ▸ hcs), rfl⟩
    | true =>
      rw [whenConfigured_of_ready (State.isReady_iff.mpr ⟨hr, hcs⟩),
        whenConfigured_of_ready (State.isReady_iff.mpr ⟨hf ▸ hr, hc ▸ hcs⟩)]
      exact h

/-- The Status a mode function leads to. -/
def ModeResult.status : ModeResult → Status
  | .ok (out, _) => cryptStatus out
  | .error e => .fault e

/-- The Status of a course. -/
def courseStatus : Except FaultReason (Status × State) → Status
  | .ok (st, _) => st
  | .error e => .fault e

theorem crypt_response (d : Direction) (text : State → Schedule → DirRecord → ModeResult) (s : State) :
    ∃ t, crypt d text s = .next t ∧ t.response = some (courseStatus (cryptCourse d text s)) := by
  unfold crypt
  cases cryptCourse d text s <;> exact ⟨_, rfl, rfl⟩

/-- The prologue after a derivation, in any state: IVNotSet, or the prepared context. -/
theorem callPrologue_of_derived (d : Direction) (sched : Schedule) (s : State) :
    callPrologue d { s with sched := some sched, dirty := false }
      = if s.startsFresh d = true ∧ s.alg ≠ .rc4 ∧ usesIv s.mode = true ∧ s.ivReg = none then .error .ivNotSet
        else .ok (s.prepared d sched) := by
  rw [callPrologue_eq]; cases d <;> rfl

/-- The assertion on the prepared context, in any state. -/
theorem readyRecord_prepared (d : Direction) (sched : Schedule) (s : State) :
    readyRecord d (s.prepared d sched)
      = if sched.fits s.alg s.bs = true ∧ ((s.prepared d sched).dir d).fits s.alg s.mode s.bs = true then
          .ok (sched, (s.prepared d sched).dir d)
        else .error .internalInvariant := by
  cases d <;> simp [readyRecord, State.prepared, State.bs]

/-- The Status of a course that derives its schedule, in any state: IVNotSet, or the assertion on the starting record, or what
the mode function leads to (60_exceptions.md R367). -/
theorem courseStatus_of_dirty {s : State} {key : Bytes} {sched : Schedule} (d : Direction)
    (text : State → Schedule → DirRecord → ModeResult) (hk : s.keyReg = some key) (hdirty : s.dirty = true)
    (hd : deriveSchedule s.alg s.bs s.keyLenParam key = .ok sched) :
    courseStatus (cryptCourse d text s)
      = if s.startsFresh d = true ∧ s.alg ≠ .rc4 ∧ usesIv s.mode = true ∧ s.ivReg = none then .fault .ivNotSet
        else if sched.fits s.alg s.bs = true ∧ ((s.prepared d sched).dir d).fits s.alg s.mode s.bs = true then
          (text (s.prepared d sched) sched ((s.prepared d sched).dir d)).status
        else .fault .internalInvariant := by
  have hsched : ensureSchedule s = .ok { s with sched := some sched, dirty := false } := by
    simp [ensureSchedule, hk, hdirty, hd]
  have hprologue := callPrologue_of_derived d sched s
  have hready := readyRecord_prepared d sched s
  split at hprologue
  · rename_i hiv
    simp only [cryptCourse, hsched, hprologue, courseStatus, if_pos hiv]
  · rename_i hiv
    split at hready
    · rename_i hfit
      simp only [cryptCourse, hsched, hprologue, hready, if_neg hiv, if_pos hfit]
      cases text (s.prepared d sched) sched ((s.prepared d sched).dir d) <;> rfl
    · rename_i hfit
      simp only [cryptCourse, hsched, hprologue, hready, courseStatus, if_neg hiv, if_neg hfit]

/-! ### What the mode functions read of the algorithm -/

/-- Outside 3CBC the mode function reads the block cipher of its schedule, and the mode, padding and block size of the state. -/
theorem cryptText_congr {s u : State} {sched sched' : Schedule} (d : Direction) (text : Bytes) (r : DirRecord)
    (hcipher : blockCipher sched = blockCipher sched') (htc : s.mode ≠ .tcbc) (hm : s.mode = u.mode)
    (hp : s.padEnabled = u.padEnabled) (hb : s.bs = u.bs) :
    cryptText d text s sched r = cryptText d text u sched' r := by
  have hmu : u.mode ≠ .tcbc := hm ▸ htc
  cases d with
  | enc | dec =>
    simp only [cryptText, encryptText, decryptText, hcipher, hm, hp, hb]
    cases blockCipher sched' with
    | none => rfl
    | some c =>
      cases hmode : u.mode with
      | tcbc => exact absurd hmode hmu
      | ecb | cbc | cfb | ofb | ctr => rfl

@[simp] theorem State.prepared_mode (d : Direction) (sched : Schedule) (s : State) : (s.prepared d sched).mode = s.mode :=
  State.setDir_mode ..

@[simp] theorem State.prepared_padEnabled (d : Direction) (sched : Schedule) (s : State) :
    (s.prepared d sched).padEnabled = s.padEnabled := State.setDir_padEnabled ..

@[simp] theorem State.prepared_bs (d : Direction) (sched : Schedule) (s : State) : (s.prepared d sched).bs = s.bs := by
  cases d <;> rfl

/-! ### The DES context beside the TripleDES one -/

/-- The DES context with the same fields. -/
def State.asDes (s : State) : State := { s with alg := .des }

@[simp] theorem State.asDes_alg (s : State) : s.asDes.alg = .des := rfl
@[simp] theorem State.asDes_mode (s : State) : s.asDes.mode = s.mode := rfl
@[simp] theorem State.asDes_ivReg (s : State) : s.asDes.ivReg = s.ivReg := rfl
@[simp] theorem State.asDes_padEnabled (s : State) : s.asDes.padEnabled = s.padEnabled := rfl
@[simp] theorem State.asDes_startsFresh (d : Direction) (s : State) : s.asDes.startsFresh d = s.startsFresh d := by
  cases d <;> rfl

/-- DES and TripleDES have one block size (10_state.md R36). -/
theorem State.asDes_bs {s : State} (ha : s.alg = .tripleDes) : s.asDes.bs = s.bs := by
  rw [State.bs_of_des (.inl s.asDes_alg), State.bs_of_des (.inr ha)]

/-- The record a TripleDES call starts from is the one the DES call starts from. -/
theorem State.asDes_prepared_dir {s : State} (d : Direction) (sched sched' : Schedule) (ha : s.alg = .tripleDes) :
    (s.asDes.prepared d sched').dir d = (s.prepared d sched).dir d := by
  have hfresh (r : DirRecord) : initialRecord { s.asDes with sched := some sched', dirty := false } r
      = initialRecord { s with sched := some sched, dirty := false } r := by
    by_cases hm : s.mode = .tcbc <;> simp [initialRecord, State.asDes, State.bs, blockSizeOf, ha, hm]
  simp only [State.prepared, State.dir_setDir, State.startRecord, hfresh]
  cases d <;> rfl

/-- TripleDES with a short key and DES with the same key give a text one Status in every mode but 3CBC: the two schedules have
one block cipher, and the two calls start from one record. -/
theorem courseStatus_asDes_of_short_key {s : State} {key : Bytes} (d : Direction) (text : Bytes) (ha : s.alg = .tripleDes)
    (hm : s.mode ≠ .tcbc) (hk : s.keyReg = some key) (hlen : key.length ≤ 8) (hdirty : s.dirty = true) :
    courseStatus (cryptCourse d (cryptText d text) s.asDes) = courseStatus (cryptCourse d (cryptText d text) s) := by
  have hd : deriveSchedule s.alg s.bs s.keyLenParam key = .ok (tripleDesSchedule key) := by rw [ha, deriveSchedule]
  have hcipher : blockCipher (.des (desKeySchedule (desKey key))) = blockCipher (tripleDesSchedule key) := by
    rw [tripleDesSchedule_of_short hlen, blockCipher_tripleDes_same]
  have hfits : (Schedule.des (desKeySchedule (desKey key))).fits .des s.bs
      = (tripleDesSchedule key).fits .tripleDes s.bs := by
    simp [tripleDesSchedule_of_short hlen, Schedule.fits]
  have hrecord (r : DirRecord) : r.fits .des s.mode s.bs = r.fits .tripleDes s.mode s.bs := rfl
  have htext (r : DirRecord) :
      cryptText d text (s.asDes.prepared d (.des (desKeySchedule (desKey key)))) (.des (desKeySchedule (desKey key))) r
        = cryptText d text (s.prepared d (tripleDesSchedule key)) (tripleDesSchedule key) r :=
    cryptText_congr d text r hcipher (by simpa using hm) (by simp) (by simp) (by simp [State.asDes_bs ha])
  rw [courseStatus_of_dirty (s := s.asDes) d _ hk hdirty rfl, courseStatus_of_dirty d _ hk hdirty hd, htext,
    State.asDes_prepared_dir d (tripleDesSchedule key) _ ha]
  simp [State.asDes_bs ha, ha, hfits, hrecord]

/-- Settles O42: the dispatch treats the two contexts alike, and a short key gives one Status in both. -/
theorem shortKeyTripleDesIsDes : Obligations.ShortKeyTripleDesIsDes := by
  intro d s text key ha hm hk hlen hdirty
  rw [exec_cryptInstr, exec_cryptInstr]
  refine whenConfigured_response_congr (u := s.asDes) rfl rfl ?_
  obtain ⟨t, ht, hrt⟩ := crypt_response d (cryptText d text) s
  obtain ⟨u, hu, hru⟩ := crypt_response d (cryptText d text) s.asDes
  exact ⟨t, u, ht, hu, by rw [hrt, hru, courseStatus_asDes_of_short_key d text ha hm hk hlen hdirty]⟩

end Sys2Proof.Machine
end

section
/-! The S-box (42_rijndael.md R195, R196): the affine map of R195 and its inverse, and the two tables against them. -/

namespace Sys2Proof.Machine

/-- The affine map of R195, from the inverse of a byte to its S-box entry. -/
def sboxAffine (x : Byte) : Byte :=
  x ^^^ x.rotateLeft 1 ^^^ x.rotateLeft 2 ^^^ x.rotateLeft 3 ^^^ x.rotateLeft 4 ^^^ 0x63

/-- The affine map that undoes `sboxAffine`: `rotl8(s,1) XOR rotl8(s,3) XOR rotl8(s,6) XOR 05`. -/
def sboxAffineInverse (s : Byte) : Byte :=
  s.rotateLeft 1 ^^^ s.rotateLeft 3 ^^^ s.rotateLeft 6 ^^^ 0x05

theorem sboxAffine_sboxAffineInverse : ∀ s : Byte, sboxAffine (sboxAffineInverse s) = s := by decide +kernel

/-- What the table's entry is the affine map of is the inverse in GF(2^8). -/
theorem gfMul_sboxAffineInverse_sbox : ∀ a : Byte, a ≠ 0 → gfMul a (sboxAffineInverse (sbox a)) = 1 := by decide +kernel

theorem sboxAffineInverse_sbox_zero : sboxAffineInverse (sbox 0) = 0 := by decide

theorem invSbox_sbox : ∀ a : Byte, invSbox (sbox a) = a := by decide +kernel

/-- A left inverse on the finitely many bytes is a right inverse as well. -/
theorem sbox_invSbox (a : Byte) : sbox (invSbox a) = a := by
  have hinj : Function.Injective sbox := Function.LeftInverse.injective invSbox_sbox
  exact Function.LeftInverse.rightInverse_of_surjective invSbox_sbox (Finite.surjective_of_injective hinj) a

/-- Settles O44: the inverse of a byte is read back from its entry through the inverse of the affine map. -/
theorem sboxIsAffineOfInverse : Obligations.SboxIsAffineOfInverse := by
  intro a
  refine ⟨⟨sboxAffineInverse (sbox a), gfMul_sboxAffineInverse_sbox a, ?_, ?_⟩, invSbox_sbox a, sbox_invSbox a⟩
  · rintro rfl; exact sboxAffineInverse_sbox_zero
  · exact (sboxAffine_sboxAffineInverse (sbox a)).symm

end Sys2Proof.Machine
end

section
/-! The key of Rijndael: its normalisation (42_rijndael.md R191) and its expansion (R200). -/

namespace Sys2Proof.Machine

/-- Settles O46: the normalised key is the key fitted to its normalised length. -/
theorem rijndaelKeyIsNormalised : Obligations.RijndaelKeyIsNormalised := by
  intro klen key
  have hlen := rijndaelKey_length klen key
  exact ⟨hlen, fun i hi => fit_getD key (hlen ▸ hi)⟩

/-- Word `i` of a byte string (20_memory.md R74). -/
theorem loadColumns_getD (b : Bytes) {i : Nat} (hi : i < b.length / 4) :
    (loadColumns b).getD i zeroColumn
      = ⟨b.getD (4 * i) 0, b.getD (4 * i + 1) 0, b.getD (4 * i + 2) 0, b.getD (4 * i + 3) 0⟩ := by
  fun_induction loadColumns b generalizing i with
  | case1 b0 b1 b2 b3 rest ih =>
    cases i with
    | zero => rfl
    | succ i =>
      simp only [List.length_cons] at hi
      rw [List.getD_cons_succ, ih (by omega)]
      simp [Nat.mul_succ]
  | case2 b hb =>
    match b, hb with
    | [], _ | [_], _ | [_, _], _ | [_, _, _], _ => simp at hi
    | _ :: _ :: _ :: _ :: _, hb => exact absurd rfl (hb _ _ _ _ _)

/-- A word already there stays at its place. -/
theorem expandKeyFrom_getD_of_lt (nk fuel : Nat) {w : List Column} {i : Nat} (hi : i < w.length) :
    (expandKeyFrom nk fuel w).getD i zeroColumn = w.getD i zeroColumn := by
  obtain ⟨later, h⟩ := expandKeyFrom_prefix nk fuel w
  rw [← h, List.getD_append _ _ _ _ hi]

/-- Each word the loop adds is the XOR of the word `nk` places before it and the transformed word before it: it is so in the
pass that adds it, and later passes change neither it nor those two (42_rijndael.md R200). -/
theorem expandKeyFrom_getD_recurrence {nk : Nat} (hnk : 0 < nk) (fuel : Nat) {w : List Column} {i : Nat} (hw : 0 < w.length)
    (hlo : w.length ≤ i) (hhi : i < w.length + fuel) :
    (expandKeyFrom nk fuel w).getD i zeroColumn
      = xorColumn ((expandKeyFrom nk fuel w).getD (i - nk) zeroColumn)
          (expansionWord nk i ((expandKeyFrom nk fuel w).getD (i - 1) zeroColumn)) := by
  induction fuel generalizing w with
  | zero => omega
  | succ fuel ih =>
    rw [expandKeyFrom]
    rcases Nat.eq_or_lt_of_le hlo with rfl | hlt
    · have hold {k : Nat} (hk : 0 < k) (c : Column) :
          (expandKeyFrom nk fuel (w ++ [c])).getD (w.length - k) zeroColumn = w.getD (w.length - k) zeroColumn := by
        rw [expandKeyFrom_getD_of_lt nk fuel (by rw [List.length_append]; omega), List.getD_append _ _ _ _ (by omega)]
      rw [hold hnk, hold Nat.one_pos, expandKeyFrom_getD_of_lt nk fuel (by simp)]
      simp
    · exact ih (by simp) (by simpa using hlt) (by simp; omega)

/-- Settles O47: the loop starts from the key's own words and adds the others by the recurrence. -/
theorem keyExpansionRecurrence : Obligations.KeyExpansionRecurrence := by
  intro nb nk key hnb hnk hkey
  simp only [List.mem_cons, List.not_mem_nil, or_false] at hnb hnk
  have hdiv : key.length / 4 = nk := by omega
  have hlen : (rijndaelExpandKey nb key).length = nb * (max nb nk + 6 + 1) := by
    rw [rijndaelExpandKey_length (by omega), hdiv, rijndaelRounds]
  have hwords : (loadColumns key).length = nk := by rw [loadColumns_length, hdiv]
  have htotal : nk ≤ nb * (max nb nk + 6 + 1) :=
    calc nk ≤ 1 * (max nb nk + 6 + 1) := by omega
      _ ≤ nb * (max nb nk + 6 + 1) := Nat.mul_le_mul_right _ (by omega)
  have hexpand : rijndaelExpandKey nb key
      = expandKeyFrom nk (nb * (max nb nk + 6 + 1) - nk) (loadColumns key) := by
    rw [rijndaelExpandKey, hdiv, rijndaelRounds, List.take_of_length_le (by omega)]
  refine ⟨hlen, fun i hi => ?_, fun i hlo hhi => ?_⟩
  · rw [hexpand, expandKeyFrom_getD_of_lt _ _ (by omega), loadColumns_getD key (by omega)]
  · rw [hexpand]
    exact expandKeyFrom_getD_recurrence (by omega) _ (by omega) (by omega) (by omega)

end Sys2Proof.Machine
end

section
/-! The equivalent inverse cipher (42_rijndael.md R212): InvSubBytes and InvShiftRows commute, InvMixColumns is linear over XOR,
and so each round with `dw` is a round of the straightforward inverse cipher with `w`. -/

namespace Sys2Proof.Machine

/-! ### InvMixColumns is linear over XOR -/

theorem gfMulBits_xor (n : Nat) (a b c : Byte) : gfMulBits n a (b ^^^ c) = gfMulBits n a b ^^^ gfMulBits n a c := by
  induction n generalizing a b c with
  | zero => simp [gfMulBits]
  | succ n ih =>
    have hbit : (if (b ^^^ c).getLsbD 0 then a else 0)
        = (if b.getLsbD 0 then a else 0) ^^^ (if c.getLsbD 0 then a else 0) := by
      rw [BitVec.getLsbD_xor]
      cases b.getLsbD 0 <;> cases c.getLsbD 0 <;> simp
    simp only [gfMulBits, BitVec.ushiftRight_xor_distrib, ih, hbit]
    ac_rfl

/-- The product distributes over XOR (00_scope.md R14). -/
theorem gfMul_xor (a b c : Byte) : gfMul a (b ^^^ c) = gfMul a b ^^^ gfMul a c := gfMulBits_xor 8 a b c

theorem invMixColumn_xorColumn (a b : Column) :
    invMixColumn (xorColumn a b) = xorColumn (invMixColumn a) (invMixColumn b) := by
  simp only [invMixColumn, xorColumn, gfMul_xor, Column.mk.injEq]
  refine ⟨?_, ?_, ?_, ?_⟩ <;> ac_rfl

/-! ### InvSubBytes and InvShiftRows commute -/

/-- In a state of `nb` columns a map over all of them acts on column `c`. -/
theorem columnAt_map {nb : Nat} {s : List Column} (f : Column → Column) (hnb : 0 < nb) (hs : s.length = nb) (c : Nat) :
    columnAt nb (s.map f) c = f (columnAt nb s c) := by
  have hc : c % nb < s.length := by rw [hs]; exact Nat.mod_lt c hnb
  simp [columnAt, hc]

theorem invSubBytes_invShiftRows {nb : Nat} {s : List Column} (hnb : 0 < nb) (hs : s.length = nb) :
    invSubBytes (invShiftRows nb s) = invShiftRows nb (invSubBytes s) := by
  simp only [invSubBytes, invShiftRows, columnAt_map _ hnb hs, List.map_map]
  rfl

/-! ### Round keys -/

/-- The `nb` words of round `r` (42_rijndael.md R199). -/
def roundKey (nb : Nat) (w : List Column) (r : Nat) : List Column := (w.drop (r * nb)).take nb

theorem addRoundKey_eq (nb : Nat) (w : List Column) (r : Nat) (s : List Column) :
    addRoundKey nb w r s = s.zipWith xorColumn (roundKey nb w r) := rfl

theorem addRoundKey_congr {nb r : Nat} {w w' : List Column} (h : roundKey nb w r = roundKey nb w' r) (s : List Column) :
    addRoundKey nb w r s = addRoundKey nb w' r s := by
  rw [addRoundKey_eq, addRoundKey_eq, h]

/-- A linear map on every column goes past AddRoundKey into the round key. -/
theorem map_invMixColumn_addRoundKey {nb r : Nat} {w dw : List Column}
    (h : roundKey nb dw r = (roundKey nb w r).map invMixColumn) (s : List Column) :
    (addRoundKey nb w r s).map invMixColumn = addRoundKey nb dw r (s.map invMixColumn) := by
  simp only [addRoundKey_eq, h, List.map_zipWith, List.zipWith_map, invMixColumn_xorColumn]

/-- Word `c` of a round key. -/
theorem roundKey_getElem? {nb c : Nat} (w : List Column) (r : Nat) (hc : c < nb) : (roundKey nb w r)[c]? = w[r * nb + c]? := by
  rw [roundKey, List.getElem?_take_of_lt hc, List.getElem?_drop]

/-- A word of `dw`, from the word of `w` at its place (42_rijndael.md R210). -/
theorem decryptionSchedule_getElem? {nb nr i : Nat} {w : List Column} (hw : w.length = nb * (nr + 1))
    (hi : i < nb * (nr + 1)) :
    (rijndaelDecryptionSchedule nb nr w)[i]?
      = if i / nb = 0 ∨ i / nb = nr then w[i]? else w[i]?.map invMixColumn := by
  have hiw : i < w.length := hw ▸ hi
  rw [List.getElem?_eq_getElem hiw, rijndaelDecryptionSchedule, List.getElem?_map, List.getElem?_range hi, Option.map_some,
    List.getD_eq_getElem _ _ hiw, Option.map_some, apply_ite some]

/-- The round keys of `dw`: those of `w` in the first and the last round, InvMixColumn of them between (42_rijndael.md R210). -/
theorem roundKey_decryptionSchedule {nb nr r : Nat} {w : List Column} (hw : w.length = nb * (nr + 1)) (hr : r ≤ nr) :
    roundKey nb (rijndaelDecryptionSchedule nb nr w) r
      = if r = 0 ∨ r = nr then roundKey nb w r else (roundKey nb w r).map invMixColumn := by
  have hend : r * nb + nb ≤ nb * (nr + 1) := by
    rw [← Nat.succ_mul, Nat.mul_comm]; exact Nat.mul_le_mul_left _ (by omega)
  refine List.ext_getElem? fun c => ?_
  rw [apply_ite (fun u : List Column => u[c]?), List.getElem?_map]
  by_cases hc : c < nb
  · have hrow : (r * nb + c) / nb = r := by
      rw [Nat.mul_comm, Nat.mul_add_div (by omega), Nat.div_eq_of_lt hc, Nat.add_zero]
    rw [roundKey_getElem? _ _ hc, roundKey_getElem? _ _ hc, decryptionSchedule_getElem? hw (by omega), hrow]
  · have hbeyond (u : List Column) : (roundKey nb u r)[c]? = none :=
      List.getElem?_eq_none (by rw [roundKey, List.length_take]; omega)
    simp [hbeyond]

/-! ### Rounds -/

/-- One interior round: mixing after the round key of `w` is mixing before that of `dw`. -/
theorem decryptRound_decryptionSchedule {nb nr n : Nat} {w s : List Column} (hnb : 0 < nb) (hw : w.length = nb * (nr + 1))
    (hn : 0 < n) (hnr : n < nr) (hs : s.length = nb) :
    decryptRound nb (rijndaelDecryptionSchedule nb nr w) s n
      = (addRoundKey nb w n (invSubBytes (invShiftRows nb s))).map invMixColumn := by
  have hkey := roundKey_decryptionSchedule hw (Nat.le_of_lt hnr)
  rw [if_neg (by omega)] at hkey
  rw [map_invMixColumn_addRoundKey hkey, invSubBytes_invShiftRows hnb hs, decryptRound]

/-- The last `n + 1` rounds of the straightforward inverse cipher are those of the equivalent one. -/
theorem straightInverseRounds_succ {nb nr n : Nat} {w s : List Column} (hnb : 0 < nb) (hw : w.length = nb * (nr + 1))
    (hn : n < nr) (hs : s.length = nb) :
    straightInverseRounds nb w s (n + 1)
      = addRoundKey nb (rijndaelDecryptionSchedule nb nr w) 0 (invShiftRows nb (invSubBytes
          ((List.range' 1 n).reverse.foldl (decryptRound nb (rijndaelDecryptionSchedule nb nr w)) s))) := by
  induction n generalizing s with
  | zero =>
    have hkey := roundKey_decryptionSchedule hw (Nat.zero_le nr)
    rw [if_pos (.inl rfl)] at hkey
    rw [straightInverseRounds, addRoundKey_congr hkey, invSubBytes_invShiftRows hnb hs]
    rfl
  | succ n ih =>
    have hround := decryptRound_decryptionSchedule hnb hw n.succ_pos hn hs
    have hlen : (decryptRound nb (rijndaelDecryptionSchedule nb nr w) s (n + 1)).length = nb :=
      addRoundKey_length (nr := nr) (by simp) (Nat.le_of_lt hn) (by simp)
    rw [straightInverseRounds, ← hround, ih (Nat.lt_of_succ_lt hn) hlen, List.range'_1_concat, List.reverse_append,
      Nat.add_comm 1 n]
    rfl

/-- Settles O49: both ciphers start with the round key of round Nr, which `dw` shares with `w`. -/
theorem equivalentInverseCipherAgrees : Obligations.EquivalentInverseCipherAgrees := by
  intro nb nr w x hnb hnr hw hx
  obtain ⟨n, rfl⟩ : ∃ n, nr = n + 1 := ⟨nr - 1, by omega⟩
  have hpos : 0 < nb := by
    simp only [List.mem_cons, List.not_mem_nil, or_false] at hnb; omega
  have hload : (loadColumns x).length = nb := by rw [loadColumns_length]; omega
  have hkey := roundKey_decryptionSchedule hw (Nat.le_refl (n + 1))
  rw [if_pos (.inr rfl)] at hkey
  rw [straightInverseBlock, straightInverseRounds_succ hpos hw n.lt_succ_self (addRoundKey_length hw (Nat.le_refl _) hload),
    ← addRoundKey_congr hkey]
  rfl

end Sys2Proof.Machine
end

section
/-! `CTR_Inc` (44_modes.md R278): the word-wise increment with its carry is the big-endian increment of the whole counter. -/

namespace Sys2Proof.Machine

/-- A big-endian representation cut in two: the high part holds the quotient. -/
theorem beBytes_add (m k v : Nat) : beBytes (m + k) v = beBytes m (v / 256 ^ k) ++ beBytes k v := by
  induction k generalizing v with
  | zero => simp [beBytes]
  | succ k ih => rw [← Nat.add_assoc, beBytes, ih, Nat.div_div_eq_div_mul, ← pow_succ', List.append_assoc]; rfl

/-- `be_n(v)` reads `v` modulo `2^(8n)` (00_scope.md R11). -/
theorem beBytes_mod (n v : Nat) : beBytes n (v % 256 ^ n) = beBytes n v := by
  have h := beBytes_beNat (beBytes n v)
  rwa [beBytes_length, beNat_beBytes] at h

/-- One step of `CTR_Inc` on a counter whose last word is `w`: the word counts, and the carry goes on where it wrapped to 0. -/
theorem ctrIncWords_succ {n : Nat} {p w : Bytes} (rest : Bytes) (hp : p.length = 4 * n) (hw : w.length = 4) :
    ctrIncWords (n + 1) (p ++ (w ++ rest))
      = if beNat w + 1 = 2 ^ 32 then ctrIncWords n (p ++ (beBytes 4 0 ++ rest)) else p ++ (beBytes 4 (beNat w + 1) ++ rest) := by
  have hlt : beNat w < 2 ^ 32 := by simpa [hw] using beNat_lt w
  have hslice : slice (4 * n) 4 (p ++ (w ++ rest)) = w := by rw [slice, List.drop_left' hp, List.take_left' hw]
  have htake : (p ++ (w ++ rest)).take (4 * n) = p := List.take_left' hp
  have hdrop : (p ++ (w ++ rest)).drop (4 * n + 4) = rest := by
    rw [← List.append_assoc]; exact List.drop_left' (by simp [hp, hw])
  simp only [ctrIncWords, hslice, htake, hdrop, List.append_assoc]
  by_cases h : beNat w + 1 = 2 ^ 32
  · simp [h]
  · have hmod : (beNat w + 1) % 2 ^ 32 = beNat w + 1 := Nat.mod_eq_of_lt (by omega)
    rw [hmod, if_pos (Nat.succ_ne_zero _), if_neg h]

/-- On the words of `p`, `CTR_Inc` is the increment of the number `p` stands for, and what follows them stays. -/
theorem ctrIncWords_eq (n : Nat) (p rest : Bytes) (hp : p.length = 4 * n) :
    ctrIncWords n (p ++ rest) = beBytes (4 * n) (beNat p + 1) ++ rest := by
  induction n generalizing p rest with
  | zero => rw [List.length_eq_zero_iff.mp hp]; rfl
  | succ n ih =>
    obtain ⟨q, w, rfl, hq, hw⟩ : ∃ q w, p = q ++ w ∧ q.length = 4 * n ∧ w.length = 4 :=
      ⟨p.take (4 * n), p.drop (4 * n), (List.take_append_drop ..).symm, by simp [hp], by simp [hp]; omega⟩
    have hvalue : beNat (q ++ w) + 1 = beNat q * 256 ^ 4 + (beNat w + 1) := by rw [beNat_append, hw, Nat.add_assoc]
    rw [List.append_assoc, ctrIncWords_succ rest hq hw, Nat.mul_succ, beBytes_add, hvalue]
    have hlow : beBytes 4 (beNat q * 256 ^ 4 + (beNat w + 1)) = beBytes 4 (beNat w + 1) := by
      rw [← beBytes_mod, Nat.mul_add_mod', beBytes_mod]
    have hlt : beNat w < 256 ^ 4 := hw ▸ beNat_lt w
    split
    · rename_i hwrap
      have hhigh : (beNat q * 256 ^ 4 + (beNat w + 1)) / 256 ^ 4 = beNat q + 1 := by omega
      rw [ih q _ hq, hlow, hhigh, hwrap, List.append_assoc]
      rfl
    · rename_i hwrap
      have hhigh : (beNat q * 256 ^ 4 + (beNat w + 1)) / 256 ^ 4 = beNat q := by omega
      rw [hlow, hhigh, ← hq, beBytes_beNat, List.append_assoc]

/-- Settles O33: a counter of whole words is all the words of the increment, with nothing after them. -/
theorem ctrIncIsBigEndianIncrement : Obligations.CtrIncIsBigEndianIncrement := by
  intro ctr h
  have hlen : ctr.length = 4 * (ctr.length / 4) := by omega
  have key := ctrIncWords_eq (ctr.length / 4) ctr [] hlen
  rwa [List.append_nil, List.append_nil, ← hlen] at key

end Sys2Proof.Machine
end

section
/-! ENCRYPT and DECRYPT by the fields of the state: when a call runs its mode function, and the state it leaves. -/

namespace Sys2Proof.Machine

/-- A key is set, and `sched` is its schedule: the one that stands, or the one to be derived (45_control.md R334). -/
def State.HasSchedule (sched : Schedule) (s : State) : Prop :=
  ∃ key, s.keyReg = some key
    ∧ if s.dirty then deriveSchedule s.alg s.bs s.keyLenParam key = .ok sched else s.sched = some sched

/-- A call of direction `d` runs its mode function with the schedule `sched`: it is the schedule of the key, no IV is missing, and
the shapes fit (45_control.md R332, R333; 44_modes.md R264; 60_exceptions.md R366). -/
structure State.Runs (d : Direction) (sched : Schedule) (s : State) : Prop where
  schedule : s.HasSchedule sched
  iv : ¬(s.startsFresh d = true ∧ s.alg ≠ .rc4 ∧ usesIv s.mode = true ∧ s.ivReg = none)
  schedFits : sched.fits s.alg s.bs = true
  recordFits : ((s.prepared d sched).dir d).fits s.alg s.mode s.bs = true

/-- The state a call leaves whose mode function answered `(out, r)` (45_control.md R332, R333; 44_modes.md R280). -/
def State.afterCall (d : Direction) (sched : Schedule) (out : Option Bytes) (r : DirRecord) (s : State) : State :=
  { s with sched := some sched, dirty := false, pc := s.pc + 1, response := some (cryptStatus out) }.setDir d
    (if s.cbEnabled then r else { r with valid := false })

theorem State.complete_callEpilogue_prepared (d : Direction) (sched : Schedule) (out : Option Bytes) (r : DirRecord) (s : State) :
    (callEpilogue d ((s.prepared d sched).setDir d r)).complete (cryptStatus out) = s.afterCall d sched out r := by
  cases hcb : s.cbEnabled <;> cases d <;>
    simp [callEpilogue, State.afterCall, State.prepared, State.setDir, State.complete, hcb]

/-- A schedule that stands and is not to be derived again is the one in force. -/
theorem State.eq_of_schedule_stands {s : State} {sched : Schedule} (hd : s.dirty = false) (hs : s.sched = some sched) :
    { s with sched := some sched, dirty := false } = s := by
  rw [← hd, ← hs]

/-- The mode function reads the mode, the padding and the block size of the state, and nothing else of it. -/
theorem cryptText_reads {s u : State} (d : Direction) (text : Bytes) (sched : Schedule) (r : DirRecord) (hm : u.mode = s.mode)
    (hp : u.padEnabled = s.padEnabled) (hb : u.bs = s.bs) : cryptText d text u sched r = cryptText d text s sched r := by
  cases d <;> simp only [cryptText, encryptText, decryptText, hm, hp, hb]

/-- The course of a call that runs its mode function to an answer. -/
theorem cryptCourse_of_runs {d : Direction} {text : State → Schedule → DirRecord → ModeResult} {s : State} {sched : Schedule}
    {out : Option Bytes} {r : DirRecord} (h : s.Runs d sched)
    (ht : text (s.prepared d sched) sched ((s.prepared d sched).dir d) = .ok (out, r)) :
    cryptCourse d text s = .ok (cryptStatus out, callEpilogue d ((s.prepared d sched).setDir d r)) := by
  obtain ⟨key, hk, hsched⟩ := h.schedule
  have hensure : ensureSchedule s = .ok { s with sched := some sched, dirty := false } := by
    cases hd : s.dirty with
    | true => simp_all [ensureSchedule]
    | false =>
      simp only [hd, Bool.false_eq_true, if_false] at hsched
      rw [State.eq_of_schedule_stands hd hsched]
      simp [ensureSchedule, hk, hd]
  have hprologue := callPrologue_of_derived d sched s
  rw [if_neg h.iv] at hprologue
  have hready := readyRecord_prepared d sched s
  rw [if_pos ⟨h.schedFits, h.recordFits⟩] at hready
  simp only [cryptCourse, hensure, hprologue, hready, ht]

@[simp] theorem State.prepared_alg (d : Direction) (sched : Schedule) (s : State) : (s.prepared d sched).alg = s.alg :=
  State.setDir_alg ..

/-- A course that answers has run its mode function. -/
theorem runs_of_cryptCourse {d : Direction} {text : State → Schedule → DirRecord → ModeResult} {s s' : State} {st : Status}
    (h : cryptCourse d text s = .ok (st, s')) :
    ∃ sched out r, s.Runs d sched ∧ text (s.prepared d sched) sched ((s.prepared d sched).dir d) = .ok (out, r)
      ∧ st = cryptStatus out ∧ s' = callEpilogue d ((s.prepared d sched).setDir d r) := by
  obtain ⟨s1, s2, sched, out, r, h1, h2, hs, hf, hr, ht, rfl, rfl⟩ := cryptCourse_ok h
  obtain ⟨key, hk, hcase⟩ := ensureSchedule_ok h1
  have hs1 : s1.sched = some sched := by
    rw [callPrologue_eq] at h2
    split at h2
    · cases h2
    · cases h2; simpa using hs
  have hschedule : s1 = { s with sched := some sched, dirty := false }
      ∧ if s.dirty then deriveSchedule s.alg s.bs s.keyLenParam key = .ok sched else s.sched = some sched := by
    rcases hcase with ⟨hd, rfl⟩ | ⟨hd, sched', hder, rfl⟩
    · exact ⟨(State.eq_of_schedule_stands hd hs1).symm, by simp [hd, hs1]⟩
    · cases hs1; simp [hd, hder]
  obtain ⟨rfl, hsched⟩ := hschedule
  rw [callPrologue_of_derived] at h2
  split at h2
  · cases h2
  · rename_i hiv
    cases h2
    exact ⟨sched, out, r, ⟨⟨key, hk, hsched⟩, hiv, by simpa using hf, by simpa using hr⟩, ht, rfl, rfl⟩

/-- A call on a ready engine that runs its mode function to an answer completes with it. -/
theorem exec_cryptInstr_of_runs {d : Direction} {s : State} {sched : Schedule} {text : Bytes} {out : Option Bytes} {r : DirRecord}
    (hready : s.isReady = true) (h : s.Runs d sched)
    (ht : cryptText d text s sched ((s.prepared d sched).dir d) = .ok (out, r)) :
    exec (cryptInstr d text) s = .next (s.afterCall d sched out r) := by
  rw [← cryptText_reads (u := s.prepared d sched) d text sched _ (by simp) (by simp) (by simp)] at ht
  rw [exec_cryptInstr, whenConfigured_of_ready hready, crypt, cryptCourse_of_runs h ht,
    ← State.complete_callEpilogue_prepared]

/-- What a call can do: it answers FAULT and a fault stands, or it has run its mode function to an answer. -/
theorem exec_cryptInstr_next {d : Direction} {s t : State} {text : Bytes} (h : exec (cryptInstr d text) s = .next t) :
    (∃ e, t.fault = some e ∧ t.response = some (.fault e))
      ∨ ∃ sched out r, s.isReady = true ∧ s.Runs d sched
          ∧ cryptText d text s sched ((s.prepared d sched).dir d) = .ok (out, r) ∧ t = s.afterCall d sched out r := by
  rw [exec_cryptInstr] at h
  rcases whenConfigured_next h with ⟨e, he, rfl⟩ | ⟨_, _, rfl⟩ | ⟨hready, hbody⟩
  · exact .inl ⟨e, he, rfl⟩
  · exact .inl ⟨_, rfl, rfl⟩
  · rcases crypt_next hbody with ⟨st, s', hcourse, rfl⟩ | ⟨e, _, rfl⟩
    · obtain ⟨sched, out, r, hruns, ht, rfl, rfl⟩ := runs_of_cryptCourse hcourse
      rw [cryptText_reads d text sched _ (State.prepared_mode ..) (State.prepared_padEnabled ..) (State.prepared_bs ..)] at ht
      exact .inr ⟨sched, out, r, hready, hruns, ht, State.complete_callEpilogue_prepared ..⟩
    · exact .inl ⟨e, rfl, rfl⟩

/-- A Status that is no FAULT comes from a mode function that answered. -/
theorem exec_cryptInstr_completed {d : Direction} {s t : State} {text : Bytes} {st : Status}
    (h : exec (cryptInstr d text) s = .next t) (hst : t.response = some st) (hnf : ∀ e, st ≠ .fault e) :
    ∃ sched out r, s.isReady = true ∧ s.Runs d sched
      ∧ cryptText d text s sched ((s.prepared d sched).dir d) = .ok (out, r) ∧ t = s.afterCall d sched out r := by
  rcases exec_cryptInstr_next h with ⟨e, -, hr⟩ | hrun
  · rw [hst] at hr; exact absurd (Option.some.inj hr) (hnf e)
  · exact hrun

/-! ### The other direction (44_modes.md R284) -/

/-- The direction a call of `d` has nothing to do with. -/
def Direction.other : Direction → Direction
  | .enc => .dec
  | .dec => .enc

/-- A call that ends without a fault leaves the other direction's record, and runs the same beside any other such record. -/
theorem exec_cryptInstr_other {d : Direction} {s t : State} {text : Bytes} (r : DirRecord) (hf : t.fault = none)
    (h : exec (cryptInstr d text) s = .next t) :
    t.dir d.other = s.dir d.other ∧ exec (cryptInstr d text) (s.setDir d.other r) = .next (t.setDir d.other r) := by
  rcases exec_cryptInstr_next h with ⟨e, he, -⟩ | ⟨sched, out, q, hready, hruns, ht, rfl⟩
  · rw [hf] at he; cases he
  · cases d <;>
      exact ⟨rfl, exec_cryptInstr_of_runs hready ⟨hruns.schedule, hruns.iv, hruns.schedFits, hruns.recordFits⟩ ht⟩

/-- Settles O25: `dir[dec]` is the other record of an ENCRYPT, and `dir[enc]` of a DECRYPT. -/
theorem directionsAreIndependent : Obligations.DirectionsAreIndependent :=
  fun _ _ _ r hf => ⟨exec_cryptInstr_other (d := .enc) r hf, exec_cryptInstr_other (d := .dec) r hf⟩

/-! ### PaddingError (44_modes.md R283) -/

/-- A decryption that answers, with padding or without, leaves the record it leaves without padding, where it answers OK. -/
theorem decryptAligned_unpadded {p : Bool} {bs : Nat} {f : DirRecord → Bytes → Bytes × DirRecord} {r r' : DirRecord}
    {C : Bytes} {out : Option Bytes} (h : decryptAligned p bs f r C = .ok (out, r')) :
    ∃ X, decryptAligned false bs f r C = .ok (some X, r') := by
  rw [decryptAligned_eq] at h
  split at h
  · cases h
  · rename_i halign
    cases h; exact ⟨_, by rw [decryptAligned_eq, if_neg halign]; rfl⟩

theorem decryptText_unpadded {s : State} {sched : Schedule} {r r' : DirRecord} {text : Bytes} {out : Option Bytes}
    (h : decryptText s sched r text = .ok (out, r')) :
    ∃ X, decryptText { s with padEnabled := false } sched r text = .ok (some X, r') := by
  unfold decryptText at h ⊢
  cases hc : blockCipher sched with
  | none => rw [hc] at h; cases h; exact ⟨_, rfl⟩
  | some c =>
    simp only [hc] at h
    cases hm : s.mode <;> simp only [hm] at h ⊢
    case ecb | cbc => exact decryptAligned_unpadded h
    case cfb | ofb | ctr => cases h; exact ⟨_, rfl⟩
    case tcbc =>
      cases hk : stageSchedules sched with
      | none => rw [hk] at h; cases h
      | some ks => rw [hk] at h; exact decryptAligned_unpadded h

/-- Settles O36: padding removal comes after the blocks, so it has no part in the record. -/
theorem paddingErrorStillAdvances : Obligations.PaddingErrorStillAdvances := by
  intro s t text h hst
  obtain ⟨sched, out, r, hready, hruns, ht, rfl⟩ := exec_cryptInstr_completed (d := .dec) h hst (fun _ => nofun)
  obtain ⟨X, hX⟩ := decryptText_unpadded ht
  exact ⟨X, _, exec_cryptInstr_of_runs (d := .dec) hready ⟨hruns.schedule, hruns.iv, hruns.schedFits, hruns.recordFits⟩ hX,
    rfl, rfl, rfl, rfl⟩

end Sys2Proof.Machine
end

section
/-! Calls one after another: the parts of a stream under continuous buffering (44_modes.md R281), and the same call twice without
it (R282). -/

namespace Sys2Proof.Machine

/-- The mode function keeps the record's widths and its valid bit. -/
theorem cryptText_keeps {d : Direction} {s : State} {sched : Schedule} {r : DirRecord} (text : Bytes)
    (hf : sched.fits s.alg s.bs = true) : ModeResult.Keeps (cryptText d text s sched r) s r := by
  cases d
  · exact encryptText_keeps text hf
  · exact decryptText_keeps text hf

/-- The record a mode function runs on is valid. -/
theorem State.prepared_valid (d : Direction) (sched : Schedule) (s : State) : ((s.prepared d sched).dir d).valid = true := by
  rw [State.prepared, State.dir_setDir, State.startRecord]
  split
  · exact initialRecord_valid ..
  · rename_i h
    simp only [State.startsFresh, Bool.or_eq_true, Bool.not_eq_true', not_or, Bool.not_eq_false] at h
    exact h.2

/-! ### What a completed call leaves -/

section
variable (d : Direction) (sched : Schedule) (out : Option Bytes) (r : DirRecord) (s : State)

@[simp] theorem State.afterCall_alg : (s.afterCall d sched out r).alg = s.alg := State.setDir_alg ..
@[simp] theorem State.afterCall_mode : (s.afterCall d sched out r).mode = s.mode := State.setDir_mode ..
@[simp] theorem State.afterCall_bs : (s.afterCall d sched out r).bs = s.bs := by cases d <;> rfl
@[simp] theorem State.afterCall_ivReg : (s.afterCall d sched out r).ivReg = s.ivReg := State.setDir_ivReg ..
@[simp] theorem State.afterCall_keyReg : (s.afterCall d sched out r).keyReg = s.keyReg := State.setDir_keyReg ..
@[simp] theorem State.afterCall_padEnabled : (s.afterCall d sched out r).padEnabled = s.padEnabled := State.setDir_padEnabled ..
@[simp] theorem State.afterCall_cbEnabled : (s.afterCall d sched out r).cbEnabled = s.cbEnabled := State.setDir_cbEnabled ..
@[simp] theorem State.afterCall_dirty : (s.afterCall d sched out r).dirty = false := State.setDir_dirty ..
@[simp] theorem State.afterCall_sched : (s.afterCall d sched out r).sched = some sched := State.setDir_sched ..
@[simp] theorem State.afterCall_response : (s.afterCall d sched out r).response = some (cryptStatus out) :=
  State.setDir_response ..
@[simp] theorem State.afterCall_dir :
    (s.afterCall d sched out r).dir d = if s.cbEnabled then r else { r with valid := false } := State.dir_setDir ..
@[simp] theorem State.afterCall_isReady : (s.afterCall d sched out r).isReady = s.isReady := by cases d <;> rfl

end

/-- After a completed call the next one of the direction has a key and its schedule. -/
theorem State.Runs.hasSchedule_afterCall {d : Direction} {s : State} {sched : Schedule} (h : s.Runs d sched) (out : Option Bytes)
    (r : DirRecord) : (s.afterCall d sched out r).HasSchedule sched := by
  obtain ⟨key, hk, -⟩ := h.schedule
  exact ⟨key, by simp [hk], by simp⟩

/-! ### A stream cut in two (44_modes.md R281) -/

/-- Outside the block-aligned modes, and in RC4, the mode function runs one function on every byte. -/
theorem cryptText_stream {d : Direction} {s : State} {sched : Schedule} (hf : sched.fits s.alg s.bs = true)
    (hstream : s.alg = .rc4 ∨ blockAligned s.mode = false) :
    ∃ f, ∀ text r, cryptText d text s sched r = cryptStream f r text := by
  cases hc : blockCipher sched with
  | none => exact ⟨rc4Step, by cases d <;> simp [cryptText, encryptText, decryptText, hc]⟩
  | some c =>
    have hmode := hstream.resolve_left (alg_of_blockCipher hf hc)
    cases hm : s.mode with
    | ecb | cbc | tcbc => rw [hm] at hmode; cases hmode
    | cfb | ofb | ctr =>
      cases d <;> exact ⟨_, fun _ _ => by simp only [cryptText, encryptText, decryptText, hc, hm]; rfl⟩

/-- A call on `A ++ B` in a stream mode is a call on `A` and then one on `B`, on the record the first leaves. -/
theorem cryptText_append {d : Direction} {s : State} {sched : Schedule} {r r' : DirRecord} {A B : Bytes} {out : Option Bytes}
    (hf : sched.fits s.alg s.bs = true) (hstream : s.alg = .rc4 ∨ blockAligned s.mode = false)
    (h : cryptText d (A ++ B) s sched r = .ok (out, r')) :
    ∃ outA outB rA, cryptText d A s sched r = .ok (some outA, rA) ∧ cryptText d B s sched rA = .ok (some outB, r')
      ∧ out = some (outA ++ outB) := by
  obtain ⟨f, hrun⟩ := cryptText_stream (d := d) hf hstream
  rw [hrun, cryptStream, runThrough_append] at h
  cases h
  exact ⟨_, _, _, hrun A r, hrun B _, rfl⟩

/-- Under continuous buffering the next call of a direction starts from the record the last one left. -/
theorem State.prepared_afterCall_dir {d : Direction} {s : State} {sched : Schedule} {r : DirRecord} (out : Option Bytes)
    (hcb : s.cbEnabled = true) (hv : r.valid = true) : ((s.afterCall d sched out r).prepared d sched).dir d = r := by
  cases d <;> simp [State.prepared, State.startRecord, State.startsFresh, State.afterCall, State.dir, State.setDir, hcb, hv]

/-- Under continuous buffering a call that ran is followed by one that runs on the record it left. -/
theorem State.Runs.afterCall_of_cb {d : Direction} {s : State} {sched : Schedule} {r : DirRecord} (out : Option Bytes)
    (h : s.Runs d sched) (hcb : s.cbEnabled = true) (hv : r.valid = true) (hr : r.fits s.alg s.mode s.bs = true) :
    (s.afterCall d sched out r).Runs d sched where
  schedule := h.hasSchedule_afterCall out r
  iv := by simp [State.startsFresh, hcb, hv]
  schedFits := by simpa using h.schedFits
  recordFits := by simpa [State.prepared_afterCall_dir out hcb hv] using hr

/-- Settles O37: the run over `A ++ B` is two runs, the second from the record the first leaves, which is where a second call under
continuous buffering starts. -/
theorem chunkingIsInvisible : Obligations.ChunkingIsInvisible := by
  intro d s t A B out _ hcb hstream h hout
  obtain ⟨sched, o, r, hready, hruns, ht, rfl⟩ := exec_cryptInstr_completed h hout (fun _ => nofun)
  obtain ⟨outA, outB, rA, hA, hB, rfl⟩ := cryptText_append hruns.schedFits hstream ht
  obtain ⟨hfit, hvalid⟩ := cryptText_keeps A hruns.schedFits _ _ hA hruns.recordFits
  rw [State.prepared_valid] at hvalid
  have hB' : cryptText d B (s.afterCall d sched (some outA) rA) sched
      (((s.afterCall d sched (some outA) rA).prepared d sched).dir d) = .ok (some outB, r) := by
    rw [State.prepared_afterCall_dir _ hcb hvalid, cryptText_reads (s := s) d B sched rA (by simp) (by simp) (by simp), hB]
  have hsecond := exec_cryptInstr_of_runs (by simpa using hready) (hruns.afterCall_of_cb _ hcb hvalid hfit) hB'
  have hstate : (s.afterCall d sched (some outA) rA).afterCall d sched (some outB) r
      = { s.afterCall d sched (some (outA ++ outB)) r with pc := s.pc + 2, response := some (.ok outB) } := by
    cases d <;> simp [State.afterCall, State.setDir, cryptStatus, hcb]
  simp only [State.afterCall_response, cryptStatus, Option.some.injEq, Status.ok.injEq] at hout
  exact ⟨_, outA, outB, exec_cryptInstr_of_runs hready hruns hA, State.afterCall_response .., hstate ▸ hsecond, hout.symm⟩

/-! ### The same call twice (44_modes.md R282) -/

section
variable {s : State} {r : DirRecord}

/-- DirInit of a block algorithm writes the chaining register, the keystream and the cursor. -/
theorem initialRecord_chain (ha : s.alg ≠ .rc4) (q : DirRecord) (v : Bool) (reg ks : Bytes) (pos : Nat) :
    initialRecord s { q with valid := v, reg := reg, ks := ks, pos := pos } = initialRecord s q := by
  cases h : s.alg with
  | rc4 => exact absurd h ha
  | des | tripleDes | rijndael | aes => simp only [initialRecord, h]

/-- In 3CBC DirInit writes the stage registers as well. -/
theorem initialRecord_stages (ha : s.alg ≠ .rc4) (hm : s.mode = .tcbc) (q : DirRecord) (c1 c2 c3 : Bytes) :
    initialRecord s { q with c1 := c1, c2 := c2, c3 := c3 } = initialRecord s q := by
  cases h : s.alg with
  | rc4 => exact absurd h ha
  | des | tripleDes | rijndael | aes => simp only [initialRecord, h, hm, if_true]

/-- DirInit of RC4 writes the permutation and its indices. -/
theorem initialRecord_rc4 (ha : s.alg = .rc4) (q : DirRecord) (S : Bytes) (i j : Byte) :
    initialRecord s { q with s := S, i := i, j := j } = initialRecord s q := by
  simp only [initialRecord, ha]

theorem initialRecord_invalid (s : State) (q : DirRecord) : initialRecord s { q with valid := false } = initialRecord s q := by
  cases h : s.alg <;> simp only [initialRecord, h]

theorem initialRecord_idem (s : State) (q : DirRecord) : initialRecord s (initialRecord s q) = initialRecord s q := by
  cases h : s.alg <;> by_cases hm : s.mode = .tcbc <;> simp only [initialRecord, h, hm, if_true, if_false]

/-- Of the record a mode function leaves DirInit makes the same record as of the one it started from. -/
def ModeResult.KeepsInitial (res : ModeResult) (s : State) (r : DirRecord) : Prop :=
  ∀ out r', res = .ok (out, r') → initialRecord s r' = initialRecord s r

theorem runThrough_keepsInitial {α β : Type} {f : DirRecord → α → β × DirRecord} (l : List α)
    (hf : ∀ q a, initialRecord s (f q a).2 = initialRecord s q) : initialRecord s (runThrough f r l).2 = initialRecord s r :=
  runThrough_keeps f (fun q => initialRecord s q = initialRecord s r) (fun _ => True) (fun q a hq _ => (hf q a).trans hq) r l rfl
    (fun _ _ => trivial)

theorem cryptStream_keepsInitial {f : DirRecord → Byte → Byte × DirRecord} (text : Bytes)
    (hf : ∀ q b, initialRecord s (f q b).2 = initialRecord s q) : ModeResult.KeepsInitial (cryptStream f r text) s r := by
  intro out r' h
  cases h; exact runThrough_keepsInitial text hf

theorem encryptAligned_keepsInitial {p : Bool} {bs : Nat} {f : DirRecord → Bytes → Bytes × DirRecord} (text : Bytes)
    (hf : ∀ q x, initialRecord s (f q x).2 = initialRecord s q) :
    ModeResult.KeepsInitial (encryptAligned p bs f r text) s r := by
  intro out r' h
  rw [encryptAligned_eq] at h
  split at h
  · cases h
  · cases h; exact runThrough_keepsInitial _ hf

theorem decryptAligned_keepsInitial {p : Bool} {bs : Nat} {f : DirRecord → Bytes → Bytes × DirRecord} (text : Bytes)
    (hf : ∀ q x, initialRecord s (f q x).2 = initialRecord s q) :
    ModeResult.KeepsInitial (decryptAligned p bs f r text) s r := by
  intro out r' h
  rw [decryptAligned_eq] at h
  split at h
  · cases h
  · cases h; exact runThrough_keepsInitial _ hf

/-- Every mode writes those fields only that DirInit writes. -/
theorem cryptText_keepsInitial {d : Direction} {sched : Schedule} (text : Bytes) (hf : sched.fits s.alg s.bs = true) :
    ModeResult.KeepsInitial (cryptText d text s sched r) s r := by
  cases hc : blockCipher sched with
  | none =>
    have ha := alg_of_no_blockCipher hf hc
    cases d <;> simp only [cryptText, encryptText, decryptText, hc] <;>
      exact cryptStream_keepsInitial text fun q _ => initialRecord_rc4 ha q _ _ _
  | some c =>
    have ha := alg_of_blockCipher hf hc
    have hchain := fun q => initialRecord_chain ha q q.valid
    cases hm : s.mode with
    | ecb =>
      cases d <;> simp only [cryptText, encryptText, decryptText, hc, hm]
      · exact encryptAligned_keepsInitial text fun _ _ => rfl
      · exact decryptAligned_keepsInitial text fun _ _ => rfl
    | cbc =>
      cases d <;> simp only [cryptText, encryptText, decryptText, hc, hm]
      · exact encryptAligned_keepsInitial text fun q _ => hchain q _ q.ks q.pos
      · exact decryptAligned_keepsInitial text fun q _ => hchain q _ q.ks q.pos
    | cfb | ofb | ctr =>
      cases d <;> simp only [cryptText, encryptText, decryptText, hc, hm] <;>
        exact cryptStream_keepsInitial text fun q _ => hchain q _ _ _
    | tcbc =>
      have hstages := fun q => initialRecord_stages ha hm q
      cases hk : stageSchedules sched with
      | none => intro out r' h; cases d <;> simp [cryptText, encryptText, decryptText, hc, hm, hk] at h
      | some ks =>
        cases d <;> simp only [cryptText, encryptText, decryptText, hc, hm, hk]
        · exact encryptAligned_keepsInitial text fun q _ => hstages q _ _ _
        · exact decryptAligned_keepsInitial text fun q _ => hstages q _ _ _

end

/-- The context after EnsureSchedule (45_control.md R334). -/
def State.withSched (sched : Schedule) (s : State) : State := { s with sched := some sched, dirty := false }

/-- Without continuous buffering a call starts from the record DirInit leaves. -/
theorem State.prepared_dir_of_not_cb {d : Direction} {s : State} (sched : Schedule) (hcb : s.cbEnabled = false) :
    (s.prepared d sched).dir d = initialRecord (s.withSched sched) (s.dir d) := by
  cases d <;> simp [State.prepared, State.startRecord, State.startsFresh, State.withSched, hcb]

/-- Without continuous buffering the next call of a direction starts from the record the last one started from. -/
theorem State.prepared_afterCall_dir_of_not_cb {d : Direction} {s : State} {sched : Schedule} {text : Bytes} {out : Option Bytes}
    {r : DirRecord} (hcb : s.cbEnabled = false) (hf : sched.fits s.alg s.bs = true)
    (ht : cryptText d text s sched ((s.prepared d sched).dir d) = .ok (out, r)) :
    ((s.afterCall d sched out r).prepared d sched).dir d = (s.prepared d sched).dir d := by
  have hrun : cryptText d text (s.withSched sched) sched ((s.prepared d sched).dir d) = .ok (out, r) := by
    rw [← ht]; exact cryptText_reads d text sched _ rfl rfl rfl
  have hkeep := cryptText_keepsInitial (s := s.withSched sched) text hf out r hrun
  have hstate (q : DirRecord) :
      initialRecord ((s.afterCall d sched out r).withSched sched) q = initialRecord (s.withSched sched) q := by
    cases d <;> rfl
  rw [State.prepared_dir_of_not_cb sched (by simp [hcb]), hstate, State.afterCall_dir, hcb, if_neg Bool.false_ne_true,
    initialRecord_invalid, hkeep, State.prepared_dir_of_not_cb sched hcb, initialRecord_idem]

/-- Without continuous buffering a call that ran can run again. -/
theorem State.Runs.afterCall_of_not_cb {d : Direction} {s : State} {sched : Schedule} {out : Option Bytes} {r : DirRecord}
    (h : s.Runs d sched) (hcb : s.cbEnabled = false)
    (hdir : ((s.afterCall d sched out r).prepared d sched).dir d = (s.prepared d sched).dir d) :
    (s.afterCall d sched out r).Runs d sched where
  schedule := h.hasSchedule_afterCall out r
  iv := by simpa [State.startsFresh, hcb] using h.iv
  schedFits := by simpa using h.schedFits
  recordFits := by simpa [hdir] using h.recordFits

/-- A standing fault answers every call (60_exceptions.md R362). -/
theorem exec_cryptInstr_of_fault (d : Direction) (text : Bytes) {s : State} {e : FaultReason} (h : s.fault = some e) :
    exec (cryptInstr d text) s = .next (s.answer (.fault e)) := by
  rw [exec_cryptInstr, whenConfigured_of_fault h]

/-- Settles O38: a fault stands for the second call, and after a call that completed the second starts from the same record. -/
theorem nonContinuousCallsRepeat : Obligations.NonContinuousCallsRepeat := by
  intro d s t text _ hcb h
  rcases exec_cryptInstr_next h with ⟨e, he, hst⟩ | ⟨sched, out, r, hready, hruns, ht, rfl⟩
  · exact ⟨_, exec_cryptInstr_of_fault d text he, hst.symm⟩
  · have hdir := State.prepared_afterCall_dir_of_not_cb hcb hruns.schedFits ht
    have ht' : cryptText d text (s.afterCall d sched out r) sched
        (((s.afterCall d sched out r).prepared d sched).dir d) = .ok (out, r) := by
      rw [hdir, cryptText_reads (s := s) d text sched _ (by simp) (by simp) (by simp), ht]
    exact ⟨_, exec_cryptInstr_of_runs (by simpa using hready) (hruns.afterCall_of_not_cb hcb hdir) ht', by simp⟩

end Sys2Proof.Machine
end

section
/-! The configuration commands in a configured context without a fault (45_control.md R322 to R324, R326 to R331): the dispatch
runs the command's own meaning, a composition of the writes of 10_state.md R31 to R42 and `complete`. -/

namespace Sys2Proof.Machine

/-! ### The operands of SET_PASSWORD (30_encoding.md R107) -/

theorem kdfIterations_eq (iterations : Option Bytes) :
    kdfIterations iterations = (iterations.map beNat).getD Config.kdfDefaultIterations := by cases iterations <;> rfl

theorem kdfOutputLength_eq (outputLength : Option Bytes) :
    kdfOutputLength outputLength = (outputLength.map beNat).getD Config.kdfDefaultDkLen := by cases outputLength <;> rfl

/-! ### What each command answers when the context is ready -/

section
variable {s : State} (h : s.isReady = true)
include h

theorem exec_setKey_of_ready (key : Bytes) : exec (.setKey key) s = .next ((s.loadKey key).complete (.ok [])) := by
  rw [exec, execSetKey, whenConfigured_of_ready h]

theorem exec_setIv_of_ready (iv : Bytes) :
    exec (.setIv iv) s = .next (({ s with ivReg := some iv }.discard).complete (.ok [])) := by
  rw [exec, execSetIv, whenConfigured_of_ready h]

theorem exec_setPassword_of_ready (password : Bytes) (salt iterations outputLength : Option Bytes) :
    exec (.setPassword password salt iterations outputLength) s
      = if kdfIterations iterations = 0 then .next (s.raise .badKdfParam)
        else .next ((s.loadKey (pbkdf2 engineHmac password (kdfSalt salt) (kdfIterations iterations)
          (kdfOutputLength outputLength))).complete (.ok [])) := by
  rw [exec, execSetPassword, whenConfigured_of_ready h]

theorem exec_setKeyLength_of_ready (klen : BitVec 8) :
    exec (.setKeyLength klen) s = .next (({ s with keyLenParam := klen }.markDirty.discard).complete (.ok [])) := by
  rw [exec, execSetKeyLength, whenConfigured_of_ready h]

theorem exec_setBlockLength_of_ready (blen : BitVec 8) :
    exec (.setBlockLength blen) s
      = if s.alg = .rijndael then .next (({ s with blockLen := rijndaelBlockLen blen }.markDirty.discard).complete (.ok []))
        else .next (s.complete (.ok [])) := by
  rw [exec, execSetBlockLength, whenConfigured_of_ready h]

theorem exec_enableCb_of_ready : exec .enableCb s = .next ((s.setCb true).complete (.ok [])) := by
  rw [exec, execEnableCb, whenConfigured_of_ready h]

theorem exec_disableCb_of_ready : exec .disableCb s = .next (((s.setCb false).discard).complete (.ok [])) := by
  rw [exec, execDisableCb, whenConfigured_of_ready h]

theorem exec_enablePad_of_ready : exec .enablePad s = .next ((s.setPad true).complete (.ok [])) := by
  rw [exec, execEnablePad, whenConfigured_of_ready h]

theorem exec_disablePad_of_ready : exec .disablePad s = .next ((s.setPad false).complete (.ok [])) := by
  rw [exec, execDisablePad, whenConfigured_of_ready h]

end

/-! ### The obligations -/

/-- Settles O15: `loadKey` writes the key, marks the schedule dirty and discards. -/
theorem setKeyLoadsTheKey : Obligations.SetKeyLoadsTheKey := by
  intro s key h
  exact exec_setKey_of_ready h key

/-- Settles O16: the IV is written and the records are discarded, without `markDirty`. -/
theorem setIvLoadsTheIv : Obligations.SetIvLoadsTheIv := by
  intro s iv h
  exact exec_setIv_of_ready h iv

/-- Settles O17: the iteration count decides between `loadKey` of the derived key and the fault. -/
theorem setPasswordDerivesTheKey : Obligations.SetPasswordDerivesTheKey := by
  intro s password salt iterations outputLength h
  have hexec := exec_setPassword_of_ready h password salt iterations outputLength
  rw [kdfIterations_eq, kdfOutputLength_eq] at hexec
  constructor
  · intro hcount
    exact hexec.trans (if_neg hcount)
  · intro hcount
    exact ⟨s.raise .badKdfParam, hexec.trans (if_pos hcount), rfl, rfl, rfl⟩

/-- Settles O18: SET_KEY_LENGTH has one case, SET_BLOCK_LENGTH one for Rijndael and one for the other algorithms. -/
theorem lengthCommandsStoreTheLengths : Obligations.LengthCommandsStoreTheLengths := by
  intro s len h
  have hblock := exec_setBlockLength_of_ready h len
  exact ⟨exec_setKeyLength_of_ready h len, fun hrijndael => hblock.trans (if_pos hrijndael),
    fun hother => hblock.trans (if_neg hother)⟩

/-- Settles O19: each toggle writes its flag, and DISABLE_CB alone discards. -/
theorem togglesWriteTheirFlag : Obligations.TogglesWriteTheirFlag := by
  intro s h
  exact ⟨exec_enableCb_of_ready h, exec_disableCb_of_ready h, exec_enablePad_of_ready h, exec_disablePad_of_ready h⟩

end Sys2Proof.Machine
end

section
/-! The decoder against its encoder and against R111 (30_encoding.md R101 to R111): a row of the opcode map is its mask and
pattern, the free fields are read back from where they were placed, and the operands decide the rest. -/

namespace Sys2Proof

open Machine

/-! ### Rows of the opcode map (30_encoding.md R102) -/

/-- The bits the row of an operation fixes (30_encoding.md R102). -/
def Opcode.mask (op : Opcode) : CommandWord :=
  match opcodeTable.find? (fun row => row.opcode == op) with
  | some row => row.mask
  | none => 0

/-- Each operation has its row in the map. -/
theorem row_mem_opcodeTable (op : Opcode) : ⟨op, op.mask, op.pattern⟩ ∈ opcodeTable := by cases op <;> decide

/-- Every row fixes OPC, and nothing else to a bit that is not 0. -/
theorem opcodeTable_fixes_opc : ∀ row ∈ opcodeTable, row.mask &&& 0xFF#32 = 0xFF#32 ∧ row.pattern &&& 0xFF#32 = row.pattern := by
  decide

/-- A row's pattern tells it from the others. -/
theorem opcodeTable_patterns_differ :
    ∀ row ∈ opcodeTable, ∀ row' ∈ opcodeTable, row.pattern = row'.pattern → row.opcode = row'.opcode := by decide

/-- A word of a row has the row's pattern in OPC. -/
theorem opc_of_matches {row : OpcodeRow} {w : CommandWord} (hrow : row ∈ opcodeTable) (h : row.matches w = true) :
    w &&& 0xFF#32 = row.pattern := by
  obtain ⟨hmask, hpattern⟩ := opcodeTable_fixes_opc row hrow
  rw [← hmask, ← BitVec.and_assoc, beq_iff_eq.mp h, hpattern]

/-- A word names an operation where the bits its row fixes have their values (30_encoding.md R102, R110). -/
theorem decodeOpcode_ok_iff (w : CommandWord) (op : Opcode) : decodeOpcode w = .ok op ↔ w &&& op.mask = op.pattern := by
  have hrow := row_mem_opcodeTable op
  unfold decodeOpcode
  cases hfind : opcodeTable.find? (fun row => row.matches w) with
  | none =>
    have hno := List.find?_eq_none.mp hfind _ hrow
    simp only [OpcodeRow.matches, beq_iff_eq] at hno
    simp only [hno, iff_false]
    split <;> exact nofun
  | some row =>
    have hmem := List.mem_of_find?_eq_some hfind
    have hmatch := List.find?_some hfind
    simp only [Except.ok.injEq]
    constructor
    · rintro rfl
      have : ∀ row ∈ opcodeTable, row.opcode.mask = row.mask ∧ row.opcode.pattern = row.pattern := by decide
      rw [(this row hmem).1, (this row hmem).2]
      exact beq_iff_eq.mp hmatch
    · intro h
      refine opcodeTable_patterns_differ row hmem _ hrow ?_
      rw [← opc_of_matches hmem hmatch, ← opc_of_matches hrow (beq_iff_eq.mpr h)]

/-! ### Fields (30_encoding.md R101) -/

theorem placeField_getLsbD {n : Nat} (lo : Nat) (v : BitVec n) (i : Nat) :
    (placeField lo v).getLsbD i = (decide (i < 32) && decide (lo ≤ i) && v.getLsbD (i - lo)) := by
  by_cases h : i < 32 <;> by_cases hlo : lo ≤ i <;> simp [placeField, h, hlo]

/-- A field is read back from where it was placed. -/
theorem extractLsb'_placeField_same {n lo : Nat} (v : BitVec n) (h : lo + n ≤ 32) : (placeField lo v).extractLsb' lo n = v := by
  refine BitVec.eq_of_getLsbD_eq fun i hi => ?_
  rw [BitVec.getLsbD_extractLsb', placeField_getLsbD]
  simp [hi, show lo + i < 32 by omega]

/-- A field placed beside another leaves it 0. -/
theorem extractLsb'_placeField_disjoint {n lo : Nat} (lo' n' : Nat) (v : BitVec n) (h : lo' + n' ≤ lo ∨ lo + n ≤ lo') :
    (placeField lo v).extractLsb' lo' n' = 0 := by
  refine BitVec.eq_of_getLsbD_eq fun i hi => ?_
  rw [BitVec.getLsbD_extractLsb', placeField_getLsbD]
  rcases h with h | h
  · simp [show ¬lo ≤ lo' + i by omega]
  · simp [show n ≤ lo' + i - lo by omega]

theorem extractLsb'_or (lo n : Nat) (v w : CommandWord) :
    (v ||| w).extractLsb' lo n = v.extractLsb' lo n ||| w.extractLsb' lo n := by
  refine BitVec.eq_of_getLsbD_eq fun i hi => ?_
  simp [hi]

/-- A field placed where it was read from is the word's own bits there. -/
theorem placeField_extractLsb' (w : CommandWord) (lo n : Nat) :
    placeField lo (w.extractLsb' lo n) = w &&& placeField lo (BitVec.allOnes n) := by
  refine BitVec.eq_of_getLsbD_eq fun i hi => ?_
  rw [BitVec.getLsbD_and, placeField_getLsbD, placeField_getLsbD, BitVec.getLsbD_extractLsb']
  by_cases hlo : lo ≤ i
  · simp [hi, hlo, Bool.and_comm]
  · simp [hlo]

/-- One bit of the word is a field of one bit (30_encoding.md R107). -/
theorem ofBool_getLsbD (w : CommandWord) (i : Nat) : BitVec.ofBool (w.getLsbD i) = w.extractLsb' i 1 := by
  refine BitVec.eq_of_getLsbD_eq fun k hk => ?_
  obtain rfl : k = 0 := by omega
  simp

/-! ### Operands (30_encoding.md R107, R109) -/

theorem takeNone_ok_iff {i j : Instr} {ops : List Bytes} : takeNone i ops = .ok j ↔ ops = [] ∧ j = i := by
  cases ops <;> simp [takeNone, eq_comm]

theorem takeOne_ok_iff {f : Bytes → Instr} {j : Instr} {ops : List Bytes} : takeOne f ops = .ok j ↔ ∃ b, ops = [b] ∧ j = f b := by
  match ops with
  | [] | [_] | _ :: _ :: _ => simp [takeOne, eq_comm]

/-- SET_PASSWORD's operands are taken apart as its encoding puts them together. -/
theorem takePassword_operands (p : Bytes) (salt iterations outputLength : Option Bytes) :
    takePassword salt.isSome iterations.isSome outputLength.isSome (Instr.setPassword p salt iterations outputLength).operands
      = .ok (.setPassword p salt iterations outputLength) := by
  cases salt <;> cases iterations <;> cases outputLength <;> rfl

/-- Operands that are taken are those of a SET_PASSWORD with the flags' operands present. -/
theorem takePassword_ok {a b c : Bool} {ops : List Bytes} {j : Instr} (h : takePassword a b c ops = .ok j) :
    ∃ p salt iterations outputLength, j = .setPassword p salt iterations outputLength ∧ salt.isSome = a
      ∧ iterations.isSome = b ∧ outputLength.isSome = c ∧ j.operands = ops := by
  unfold takePassword at h
  split at h <;> cases h <;> exact ⟨_, _, _, _, rfl, rfl, rfl, rfl, rfl⟩

theorem checkNumericOperands_ok_iff {r : Except DecodeError Instr} {j : Instr} :
    checkNumericOperands r = .ok j ↔ r = .ok j ∧ j.wf = true := by
  cases r with
  | error e => simp [checkNumericOperands]
  | ok i =>
    simp only [checkNumericOperands]
    split <;> rename_i hwf
    · exact ⟨fun h => by cases h; exact ⟨rfl, hwf⟩, And.left⟩
    · exact ⟨nofun, fun ⟨h, hj⟩ => by cases h; exact absurd hj hwf⟩

/-- The decoder accepts a command through the operation its word names. -/
theorem decode_ok_iff {c : Command} {i : Instr} :
    decode c = .ok i ↔ ∃ op, c.word &&& op.mask = op.pattern ∧ decodeAs op c.word c.operands = .ok i := by
  simp only [← decodeOpcode_ok_iff]
  unfold decode
  cases h : decodeOpcode c.word <;> simp

/-! ### Decoding after encoding -/

/-- The word of a command is a word of the command's row. -/
theorem decodeOpcode_encode (i : Instr) : decodeOpcode (encode i).word = .ok i.opcode := by
  cases i with
  | configure alg mode klen blen => exact (Laws.EncodeMatchesRow.configure alg mode klen blen).1
  | setPassword p salt its len => exact (Laws.EncodeMatchesRow.setPassword p salt its len).1
  | setKeyLength klen => exact (Laws.EncodeMatchesRow.setKeyLength klen).1
  | setBlockLength blen => exact (Laws.EncodeMatchesRow.setBlockLength blen).1
  | setKey _ | setIv _ | enableCb | disableCb | enablePad | disablePad | encrypt _ | decrypt _ =>
    exact Laws.decodeOpcode_pattern _

/-- The flags of SET_PASSWORD's word say which operands are present (30_encoding.md R107). -/
theorem flags_encode_setPassword (p : Bytes) (salt iterations outputLength : Option Bytes) :
    let w := (encode (.setPassword p salt iterations outputLength)).word
    saltFlag w = salt.isSome ∧ iterationsFlag w = iterations.isSome ∧ outputLengthFlag w = outputLength.isSome := by
  have h : ∀ a b c : Bool,
      let w := Opcode.setPassword.pattern ||| (placeField 8 (BitVec.ofBool a) ||| placeField 9 (BitVec.ofBool b)
        ||| placeField 10 (BitVec.ofBool c))
      saltFlag w = a ∧ iterationsFlag w = b ∧ outputLengthFlag w = c := by decide
  exact h salt.isSome iterations.isSome outputLength.isSome

/-- The fields of CONFIGURE are read back (30_encoding.md R103). -/
theorem fields_encode_configure (alg mode : BitVec 4) (klen blen : BitVec 8) :
    let w := (encode (.configure alg mode klen blen)).word
    algField w = alg ∧ modeField w = mode ∧ klenField w = klen ∧ blenField w = blen := by
  have hpattern : Opcode.configure.pattern = placeField 0 (1 : BitVec 8) := by decide
  simp only [encode, Instr.opcode, Instr.fieldBits, algField, modeField, klenField, blenField, extractLsb'_or, hpattern]
  refine ⟨?_, ?_, ?_, ?_⟩ <;> simp [extractLsb'_placeField_same, extractLsb'_placeField_disjoint]

theorem klenField_encode_setKeyLength (klen : BitVec 8) : klenField (encode (.setKeyLength klen)).word = klen := by
  have hpattern : Opcode.setKeyLength.pattern = placeField 0 (5 : BitVec 8) := by decide
  simp only [encode, Instr.opcode, Instr.fieldBits, klenField, extractLsb'_or, hpattern]
  simp [extractLsb'_placeField_same, extractLsb'_placeField_disjoint]

theorem blenField_encode_setBlockLength (blen : BitVec 8) : blenField (encode (.setBlockLength blen)).word = blen := by
  have hpattern : Opcode.setBlockLength.pattern = placeField 0 (6 : BitVec 8) := by decide
  simp only [encode, Instr.opcode, Instr.fieldBits, blenField, extractLsb'_or, hpattern]
  simp [extractLsb'_placeField_same, extractLsb'_placeField_disjoint]

/-- The row of a command reads its fields and operands back. -/
theorem decodeAs_encode {i : Instr} (hwf : i.wf = true) : decodeAs i.opcode (encode i).word i.operands = .ok i := by
  cases i with
  | configure alg mode klen blen =>
    obtain ⟨halg, hmode, hklen, hblen⟩ := fields_encode_configure alg mode klen blen
    simp only [Instr.opcode, decodeAs, halg, hmode, hklen, hblen]
    rfl
  | setPassword p salt iterations outputLength =>
    obtain ⟨hsalt, hiterations, hlength⟩ := flags_encode_setPassword p salt iterations outputLength
    simp only [Instr.opcode, decodeAs, hsalt, hiterations, hlength, takePassword_operands]
    exact checkNumericOperands_ok_iff.mpr ⟨rfl, hwf⟩
  | setKeyLength klen => simp only [Instr.opcode, decodeAs, klenField_encode_setKeyLength]; rfl
  | setBlockLength blen => simp only [Instr.opcode, decodeAs, blenField_encode_setBlockLength]; rfl
  | setKey _ | setIv _ | enableCb | disableCb | enablePad | disablePad | encrypt _ | decrypt _ => rfl

/-- Settles O1: the word names the command's row, which reads the fields and operands back. -/
theorem decodeInvertsEncode : Obligations.DecodeInvertsEncode := by
  intro i hwf
  rw [decode, decodeOpcode_encode]
  exact decodeAs_encode hwf

/-- Settles O4: each word evaluates in the decoder. -/
theorem sampleWordsDecode : Obligations.SampleWordsDecode := by
  refine ⟨?_, ?_, ?_, ?_, ?_, ?_, ?_⟩ <;> decide

/-! ### Encoding after decoding -/

/-- A word of a row is the row's pattern and the bits it leaves free. -/
theorem pattern_or_free {w m p : CommandWord} (h : w &&& m = p) : p ||| (w &&& ~~~m) = w := by
  rw [← h, ← BitVec.and_or_distrib_left, BitVec.or_not_self, BitVec.and_allOnes]

/-- The free fields of CONFIGURE cover the bits its row leaves free. -/
theorem fieldBits_configure (w : CommandWord) :
    (Instr.configure (algField w) (modeField w) (klenField w) (blenField w)).fieldBits = w &&& ~~~Opcode.configure.mask := by
  have hcover : placeField 8 (BitVec.allOnes 4) ||| placeField 12 (BitVec.allOnes 4) ||| placeField 16 (BitVec.allOnes 8)
      ||| placeField 24 (BitVec.allOnes 8) = ~~~Opcode.configure.mask := by decide
  simp only [Instr.fieldBits, algField, modeField, klenField, blenField, placeField_extractLsb', ← BitVec.and_or_distrib_left,
    hcover]

theorem fieldBits_setPassword {w : CommandWord} (p : Bytes) {salt iterations outputLength : Option Bytes}
    (hsalt : salt.isSome = saltFlag w) (hiterations : iterations.isSome = iterationsFlag w)
    (hlength : outputLength.isSome = outputLengthFlag w) :
    (Instr.setPassword p salt iterations outputLength).fieldBits = w &&& ~~~Opcode.setPassword.mask := by
  have hcover : placeField 8 (BitVec.allOnes 1) ||| placeField 9 (BitVec.allOnes 1) ||| placeField 10 (BitVec.allOnes 1)
      = ~~~Opcode.setPassword.mask := by decide
  simp only [Instr.fieldBits, hsalt, hiterations, hlength, saltFlag, iterationsFlag, outputLengthFlag, ofBool_getLsbD,
    placeField_extractLsb', ← BitVec.and_or_distrib_left, hcover]

theorem fieldBits_setKeyLength (w : CommandWord) :
    (Instr.setKeyLength (klenField w)).fieldBits = w &&& ~~~Opcode.setKeyLength.mask := by
  rw [Instr.fieldBits, klenField, placeField_extractLsb']; congr 1

theorem fieldBits_setBlockLength (w : CommandWord) :
    (Instr.setBlockLength (blenField w)).fieldBits = w &&& ~~~Opcode.setBlockLength.mask := by
  rw [Instr.fieldBits, blenField, placeField_extractLsb']; congr 1

/-- What a row reads: a well-formed command of its operation, with the word's free bits and the operands. -/
theorem decodeAs_ok {op : Opcode} {w : CommandWord} {ops : List Bytes} {i : Instr} (h : decodeAs op w ops = .ok i) :
    i.wf = true ∧ i.opcode = op ∧ i.fieldBits = w &&& ~~~op.mask ∧ i.operands = ops := by
  have hfixed {op : Opcode} (hmask : op.mask = BitVec.allOnes 32) : (0 : CommandWord) = w &&& ~~~op.mask := by simp [hmask]
  cases op with
  | configure => obtain ⟨rfl, rfl⟩ := takeNone_ok_iff.mp h; exact ⟨rfl, rfl, fieldBits_configure w, rfl⟩
  | setPassword =>
    obtain ⟨htake, hwf⟩ := checkNumericOperands_ok_iff.mp h
    obtain ⟨p, salt, iterations, outputLength, rfl, hsalt, hiterations, hlength, hops⟩ := takePassword_ok htake
    exact ⟨hwf, rfl, fieldBits_setPassword p hsalt hiterations hlength, hops⟩
  | setKeyLength => obtain ⟨rfl, rfl⟩ := takeNone_ok_iff.mp h; exact ⟨rfl, rfl, fieldBits_setKeyLength w, rfl⟩
  | setBlockLength => obtain ⟨rfl, rfl⟩ := takeNone_ok_iff.mp h; exact ⟨rfl, rfl, fieldBits_setBlockLength w, rfl⟩
  | enableCb | disableCb | enablePad | disablePad =>
    obtain ⟨rfl, rfl⟩ := takeNone_ok_iff.mp h; exact ⟨rfl, rfl, hfixed (by decide), rfl⟩
  | setKey | setIv | encrypt | decrypt =>
    obtain ⟨b, rfl, rfl⟩ := takeOne_ok_iff.mp h; exact ⟨rfl, rfl, hfixed (by decide), rfl⟩

/-- Settles O2: the fixed bits are the row's pattern and the free ones the command's fields, which together are the word. -/
theorem encodeInvertsDecode : Obligations.EncodeInvertsDecode := by
  rintro ⟨w, ops⟩ i h
  obtain ⟨op, hrow, has⟩ := decode_ok_iff.mp h
  obtain ⟨hwf, rfl, hfields, hops⟩ := decodeAs_ok has
  exact ⟨hwf, by rw [encode, hfields, hops, pattern_or_free hrow]⟩

/-! ### The legal commands (30_encoding.md R109 to R111) -/

/-- A mask of the bits below `lo` and the bits from `hi` up, its pattern below `lo`: what it fixes, on the word's value. -/
theorem and_mask_eq_iff {m p : CommandWord} {lo hi : Nat} (w : CommandWord) (hlo : lo ≤ hi)
    (hm : ∀ i : Fin 32, m.getLsbD i = (decide (i < lo) || decide (hi ≤ i))) (hp : p.toNat < 2 ^ lo) :
    w &&& m = p ↔ w.toNat % 2 ^ lo = p.toNat ∧ w.toNat / 2 ^ hi = 0 := by
  have hpbit {i : Nat} (h : lo ≤ i) : p.toNat.testBit i = false :=
    Nat.testBit_lt_two_pow (Nat.lt_of_lt_of_le hp (Nat.pow_le_pow_right (by decide) h))
  have hword {i : Nat} (h : 32 ≤ i) (v : CommandWord) : v.toNat.testBit i = false := BitVec.getLsbD_of_ge v i h
  have hmbit {i : Nat} (h : i < 32) : m.toNat.testBit i = (decide (i < lo) || decide (hi ≤ i)) := hm ⟨i, h⟩
  constructor
  · intro h
    have hbit {i : Nat} (hi32 : i < 32) (hfix : i < lo ∨ hi ≤ i) : w.toNat.testBit i = p.toNat.testBit i := by
      rw [← h, BitVec.toNat_and, Nat.testBit_and, hmbit hi32]
      rcases hfix with hfix | hfix <;> simp [hfix]
    refine ⟨Nat.eq_of_testBit_eq fun i => ?_, Nat.eq_of_testBit_eq fun i => ?_⟩
    · rw [Nat.testBit_mod_two_pow]
      by_cases hil : i < lo
      · by_cases h32 : i < 32
        · simp [hil, hbit h32 (.inl hil)]
        · simp [hword (show 32 ≤ i by omega)]
      · simp [hil, hpbit (show lo ≤ i by omega)]
    · rw [Nat.testBit_div_two_pow, Nat.zero_testBit]
      by_cases h32 : i + hi < 32
      · rw [hbit h32 (.inr (by omega)), hpbit (by omega)]
      · exact hword (by omega) w
  · rintro ⟨hmod, hdiv⟩
    refine BitVec.eq_of_toNat_eq (Nat.eq_of_testBit_eq fun i => ?_)
    have hlow := congrArg (·.testBit i) hmod
    have hhigh := congrArg (·.testBit (i - hi)) hdiv
    simp only [Nat.testBit_mod_two_pow, Nat.testBit_div_two_pow, Nat.zero_testBit] at hlow hhigh
    rw [BitVec.toNat_and, Nat.testBit_and]
    by_cases h32 : i < 32
    · rw [hmbit h32]
      by_cases hil : i < lo
      · simpa [hil] using hlow
      · by_cases hih : hi ≤ i
        · rw [Nat.sub_add_cancel hih] at hhigh
          simp [hhigh, hpbit (show lo ≤ i by omega)]
        · simp [hil, hih, hpbit (show lo ≤ i by omega)]
    · simp [hword (show 32 ≤ i by omega)]

/-- The value of a word that names an operation (30_encoding.md R101, R102). -/
def Opcode.names (op : Opcode) (w : Nat) : Prop :=
  match op with
  | .configure => w % 256 = 0x01
  | .setPassword => w % 256 = 0x04 ∧ w / 2 ^ 11 = 0
  | .setKeyLength => w % 2 ^ 16 = 0x05 ∧ w / 2 ^ 24 = 0
  | .setBlockLength => w % 2 ^ 24 = 0x06
  | .setKey => w = 0x02
  | .setIv => w = 0x03
  | .enableCb => w = 0x08
  | .disableCb => w = 0x09
  | .enablePad => w = 0x0A
  | .disablePad => w = 0x0B
  | .encrypt => w = 0x10
  | .decrypt => w = 0x11

theorem and_mask_eq_pattern_iff (op : Opcode) (w : CommandWord) : w &&& op.mask = op.pattern ↔ op.names w.toNat := by
  have hall {w : CommandWord} : w.toNat / 2 ^ 32 = 0 := Nat.div_eq_of_lt w.isLt
  cases op with
  | configure =>
    rw [and_mask_eq_iff (lo := 8) (hi := 32) w (by decide) (by decide) (by decide)]
    exact and_iff_left hall
  | setPassword => exact and_mask_eq_iff (lo := 8) (hi := 11) w (by decide) (by decide) (by decide)
  | setKeyLength => exact and_mask_eq_iff (lo := 16) (hi := 24) w (by decide) (by decide) (by decide)
  | setBlockLength =>
    rw [and_mask_eq_iff (lo := 24) (hi := 32) w (by decide) (by decide) (by decide)]
    exact and_iff_left hall
  | setKey | setIv | enableCb | disableCb | enablePad | disablePad | encrypt | decrypt =>
    rw [and_mask_eq_iff (lo := 32) (hi := 32) w (by decide) (by decide) (by decide), Nat.mod_eq_of_lt w.isLt]
    exact and_iff_left hall

/-- The operands an operation takes, with the flags of the word's value (30_encoding.md R107, R109). -/
def Opcode.takes (op : Opcode) (w : Nat) (ops : List Bytes) : Prop :=
  match op with
  | .configure | .setKeyLength | .setBlockLength | .enableCb | .disableCb | .enablePad | .disablePad => ops.length = 0
  | .setKey | .setIv | .encrypt | .decrypt => ops.length = 1
  | .setPassword => ops.length = 1 + w / 2 ^ 8 % 2 + w / 2 ^ 9 % 2 + w / 2 ^ 10 % 2
      ∧ (w / 2 ^ 9 % 2 = 1 → (ops.getD (1 + w / 2 ^ 8 % 2) []).length = 4)
      ∧ (w / 2 ^ 10 % 2 = 1 → (ops.getD (1 + w / 2 ^ 8 % 2 + w / 2 ^ 9 % 2) []).length = 4)

theorem exists_takeNone_iff {i : Instr} {ops : List Bytes} : (∃ j, takeNone i ops = .ok j) ↔ ops.length = 0 := by
  simp only [takeNone_ok_iff, exists_and_left, exists_eq, and_true, List.length_eq_zero_iff]

theorem exists_takeOne_iff {f : Bytes → Instr} {ops : List Bytes} : (∃ j, takeOne f ops = .ok j) ↔ ops.length = 1 := by
  simp only [takeOne_ok_iff, List.length_eq_one_iff]
  exact ⟨fun ⟨_, b, h, _⟩ => ⟨b, h⟩, fun ⟨b, h⟩ => ⟨f b, b, h, rfl⟩⟩

/-- SET_PASSWORD takes the operands its flags name, the numbers among them of 4 bytes. -/
theorem exists_takePassword_iff (a b c : Bool) (ops : List Bytes) :
    (∃ j, checkNumericOperands (takePassword a b c ops) = .ok j)
      ↔ ops.length = 1 + a.toNat + b.toNat + c.toNat ∧ (b.toNat = 1 → (ops.getD (1 + a.toNat) []).length = 4)
        ∧ (c.toNat = 1 → (ops.getD (1 + a.toNat + b.toNat) []).length = 4) := by
  simp only [checkNumericOperands_ok_iff]
  constructor
  · rintro ⟨j, htake, hwf⟩
    obtain ⟨p, salt, iterations, outputLength, rfl, rfl, rfl, rfl, rfl⟩ := takePassword_ok htake
    cases salt <;> cases iterations <;> cases outputLength <;>
      simp_all [Instr.wf, numericOperandOk, Instr.operands]
  · rintro ⟨hlen, hiterations, hlength⟩
    rcases ops with _ | ⟨p, _ | ⟨x, _ | ⟨y, _ | ⟨z, _ | ⟨_, _⟩⟩⟩⟩⟩ <;> cases a <;> cases b <;> cases c <;> simp at hlen <;>
      exact ⟨_, rfl, by simp_all [Instr.wf, numericOperandOk]⟩

theorem flag_toNat (w : CommandWord) (i : Nat) : (w.getLsbD i).toNat = w.toNat / 2 ^ i % 2 := by
  rw [BitVec.getLsbD, Nat.toNat_testBit]

/-- A row takes its operands. -/
theorem exists_decodeAs_iff (op : Opcode) (w : CommandWord) (ops : List Bytes) :
    (∃ i, decodeAs op w ops = .ok i) ↔ op.takes w.toNat ops := by
  cases op with
  | setPassword =>
    simp only [Opcode.takes, ← flag_toNat]
    exact exists_takePassword_iff _ _ _ ops
  | configure | setKeyLength | setBlockLength | enableCb | disableCb | enablePad | disablePad => exact exists_takeNone_iff
  | setKey | setIv | encrypt | decrypt => exact exists_takeOne_iff

/-- The rows of R102 with the operands of R109 are the legal commands. -/
theorem legalCommand_iff (w : Nat) (ops : List Bytes) : legalCommand w ops ↔ ∃ op : Opcode, op.names w ∧ op.takes w ops := by
  constructor
  · rintro (⟨hw, hops⟩ | ⟨hw | hw | hw | hw, hops⟩ | ⟨hopc, hhigh, hops⟩ | ⟨hopc, hhigh, hops⟩ | ⟨hw, hops⟩
      | ⟨hw | hw | hw | hw, hops⟩)
    · exact ⟨.configure, hw, hops⟩
    · exact ⟨.setKey, hw, hops⟩
    · exact ⟨.setIv, hw, hops⟩
    · exact ⟨.encrypt, hw, hops⟩
    · exact ⟨.decrypt, hw, hops⟩
    · exact ⟨.setPassword, ⟨hopc, hhigh⟩, hops⟩
    · exact ⟨.setKeyLength, ⟨hopc, hhigh⟩, hops⟩
    · exact ⟨.setBlockLength, hw, hops⟩
    · exact ⟨.enableCb, hw, hops⟩
    · exact ⟨.disableCb, hw, hops⟩
    · exact ⟨.enablePad, hw, hops⟩
    · exact ⟨.disablePad, hw, hops⟩
  · rintro ⟨op, hname, htake⟩
    cases op with
    | configure => exact .inl ⟨hname, htake⟩
    | setKey => exact .inr (.inl ⟨.inl hname, htake⟩)
    | setIv => exact .inr (.inl ⟨.inr (.inl hname), htake⟩)
    | encrypt => exact .inr (.inl ⟨.inr (.inr (.inl hname)), htake⟩)
    | decrypt => exact .inr (.inl ⟨.inr (.inr (.inr hname)), htake⟩)
    | setPassword => exact .inr (.inr (.inl ⟨hname.1, hname.2, htake⟩))
    | setKeyLength => exact .inr (.inr (.inr (.inl ⟨hname.1, hname.2, htake⟩)))
    | setBlockLength => exact .inr (.inr (.inr (.inr (.inl ⟨hname, htake⟩))))
    | enableCb => exact .inr (.inr (.inr (.inr (.inr ⟨.inl hname, htake⟩))))
    | disableCb => exact .inr (.inr (.inr (.inr (.inr ⟨.inr (.inl hname), htake⟩))))
    | enablePad => exact .inr (.inr (.inr (.inr (.inr ⟨.inr (.inr (.inl hname)), htake⟩))))
    | disablePad => exact .inr (.inr (.inr (.inr (.inr ⟨.inr (.inr (.inr hname)), htake⟩))))

/-- Settles O3: the decoder accepts through one of the twelve rows, where the row takes the operands. -/
theorem decoderAcceptsExactlyLegalCommands : Obligations.DecoderAcceptsExactlyLegalCommands := by
  rintro ⟨w, ops⟩
  simp only [legalCommand_iff, decode_ok_iff, and_mask_eq_pattern_iff, ← exists_decodeAs_iff]
  exact ⟨fun ⟨i, op, hname, has⟩ => ⟨op, hname, i, has⟩, fun ⟨op, hname, i, has⟩ => ⟨i, op, hname, has⟩⟩

end Sys2Proof
end

section
/-! ENCRYPT and DECRYPT from a state that meets the invariant: which fault is due (60_exceptions.md R367), and what a call without
one answers and leaves (45_control.md R332 to R334, 44_modes.md R265, R280). -/

namespace Sys2Proof.Machine

/-! ### The schedule and the record of a call -/

/-- Under the invariant a schedule in force is the derived one (45_control.md R334). -/
theorem State.HasSchedule.derived {s : State} {sched : Schedule} (hs : s.Inv) (h : s.HasSchedule sched) :
    ∃ key, s.keyReg = some key ∧ deriveSchedule s.alg s.bs s.keyLenParam key = .ok sched := by
  obtain ⟨key, hk, hsched⟩ := h
  refine ⟨key, hk, ?_⟩
  cases hd : s.dirty with
  | true => rwa [hd, if_pos rfl] at hsched
  | false =>
    obtain ⟨sched', hder, hstands⟩ := hs.scheduleFresh key hk hd
    rw [hd, if_neg Bool.false_ne_true, hstands] at hsched
    rw [hder, Option.some.inj hsched]

/-- Under the invariant the derived schedule is in force, whether it stands or is still to be derived. -/
theorem State.Inv.hasSchedule {s : State} {key : Bytes} {sched : Schedule} (hs : s.Inv) (hk : s.keyReg = some key)
    (hder : deriveSchedule s.alg s.bs s.keyLenParam key = .ok sched) : s.HasSchedule sched := by
  refine ⟨key, hk, ?_⟩
  cases hd : s.dirty with
  | true => exact hder
  | false =>
    obtain ⟨sched', hder', hstands⟩ := hs.scheduleFresh key hk hd
    rw [hder] at hder'
    cases hder'
    exact hstands

/-- A key has a schedule, but for an empty RC4 key (43_rc4.md R243). -/
theorem exists_deriveSchedule {alg : Algorithm} {key : Bytes} (bs : Nat) (klen : BitVec 8) (h : ¬(alg = .rc4 ∧ key = [])) :
    ∃ sched, deriveSchedule alg bs klen key = .ok sched := by
  cases hd : deriveSchedule alg bs klen key with
  | ok sched => exact ⟨sched, rfl⟩
  | error e =>
    obtain ⟨ha, hk, -⟩ := deriveSchedule_error hd
    exact absurd ⟨ha, hk⟩ h

/-- From a state that meets the invariant, a call with a usable key and the IV its mode needs runs its mode function. -/
theorem State.Inv.runs {s : State} {key : Bytes} {sched : Schedule} (d : Direction) (hs : s.Inv) (hk : s.keyReg = some key)
    (hder : deriveSchedule s.alg s.bs s.keyLenParam key = .ok sched)
    (hiv : ¬(s.alg ≠ .rc4 ∧ usesIv s.mode = true ∧ s.ivReg = none)) : s.Runs d sched where
  schedule := hs.hasSchedule hk hder
  iv := fun h => hiv h.2
  schedFits := deriveSchedule_fits hs.bs_legal hder
  recordFits := by rw [State.prepared, State.dir_setDir]; exact startRecord_fits d hs hder

/-- A call that does not start afresh has a valid record under continuous buffering (44_modes.md R263). -/
theorem State.not_startsFresh_iff {d : Direction} {s : State} :
    ¬s.startsFresh d = true ↔ s.cbEnabled = true ∧ (s.dir d).valid = true := by
  simp [State.startsFresh]

/-- Under the invariant a mode that uses an IV has none missing where the record is valid (44_modes.md R264). -/
theorem State.Inv.startsFresh_of_no_iv {s : State} (d : Direction) (hs : s.Inv) (ha : s.alg ≠ .rc4) (hm : usesIv s.mode = true)
    (hiv : s.ivReg = none) : s.startsFresh d = true := by
  by_contra h
  exact (hs.dirInv d).fromIv (State.not_startsFresh_iff.mp h).2 ha hm hiv

/-! ### The block-aligned modes (44_modes.md R268, R269) -/

/-- A block-aligned mode in a direction. -/
def alignedText : Direction → Bool → Nat → (DirRecord → Bytes → Bytes × DirRecord) → DirRecord → Bytes → ModeResult
  | .enc => encryptAligned
  | .dec => decryptAligned

/-- A block function keeps the widths of the record and answers whole blocks. -/
def StepKeeps (alg : Algorithm) (mode : Mode) (bs : Nat) (f : DirRecord → Bytes → Bytes × DirRecord) : Prop :=
  ∀ q x, x.length = bs → q.fits alg mode bs = true → (f q x).2.fits alg mode bs = true ∧ (f q x).1.length = bs

section
variable {alg : Algorithm} {mode : Mode} {bs : Nat} {F : Bytes → Bytes}

theorem stepKeeps_ecbStep (hF : ∀ y, y.length = bs → (F y).length = bs) : StepKeeps alg mode bs (ecbStep F) :=
  fun _ x hx hq => ⟨hq, hF x hx⟩

theorem stepKeeps_cbcEncryptStep (ha : alg ≠ .rc4) (hF : ∀ y, y.length = bs → (F y).length = bs) :
    StepKeeps alg mode bs (cbcEncryptStep F) :=
  fun _ x hx hq => (cbcEncryptStep_kept F x ha hF hx ⟨hq, rfl⟩).imp And.left id

theorem stepKeeps_cbcDecryptStep (ha : alg ≠ .rc4) (hF : ∀ y, y.length = bs → (F y).length = bs) :
    StepKeeps alg mode bs (cbcDecryptStep F) :=
  fun _ x hx hq => (cbcDecryptStep_kept F x ha hF hx ⟨hq, rfl⟩).imp And.left id

theorem stepKeeps_tcbcEncryptStep (ks1 ks2 ks3 : List DesSubkey) (ha : alg ≠ .rc4) :
    StepKeeps alg .tcbc 8 (tcbcEncryptStep ks1 ks2 ks3) :=
  fun _ x hx hq => (tcbcEncryptStep_kept ks1 ks2 ks3 x ha hx ⟨hq, rfl⟩).imp And.left id

theorem stepKeeps_tcbcDecryptStep (ks1 ks2 ks3 : List DesSubkey) (ha : alg ≠ .rc4) :
    StepKeeps alg .tcbc 8 (tcbcDecryptStep ks1 ks2 ks3) :=
  fun _ x hx hq => (tcbcDecryptStep_kept ks1 ks2 ks3 x ha hx ⟨hq, rfl⟩).imp And.left id

end

/-- A 3CBC schedule is TripleDES's. -/
theorem exists_tripleDes_of_fits {bs : Nat} {sched : Schedule} (h : sched.fits .tripleDes bs = true) :
    ∃ ks1 ks2 ks3, sched = .tripleDes ks1 ks2 ks3 := by
  cases sched with
  | tripleDes ks1 ks2 ks3 => exact ⟨ks1, ks2, ks3, rfl⟩
  | des _ | rijndael _ _ _ _ _ | rc4 _ => simp [Schedule.fits] at h

/-- The block function of a block-aligned mode in a direction. -/
def blockStep (d : Direction) (m : Mode) (sched : Schedule) (c : BlockCipher) : DirRecord → Bytes → Bytes × DirRecord :=
  match m, d, stageSchedules sched with
  | .ecb, .enc, _ => ecbStep c.E
  | .ecb, .dec, _ => ecbStep c.D
  | .tcbc, .enc, some (ks1, ks2, ks3) => tcbcEncryptStep ks1 ks2 ks3
  | .tcbc, .dec, some (ks1, ks2, ks3) => tcbcDecryptStep ks1 ks2 ks3
  | _, .enc, _ => cbcEncryptStep c.E
  | _, .dec, _ => cbcDecryptStep c.D

/-- In a block-aligned mode the mode function runs one function on every block. -/
theorem cryptText_aligned {s : State} {sched : Schedule} (d : Direction) (hf : sched.fits s.alg s.bs = true)
    (htc : s.mode = .tcbc → s.alg = .tripleDes) (ha : s.alg ≠ .rc4) (hm : blockAligned s.mode = true) :
    ∃ c, blockCipher sched = some c
      ∧ (∀ text r, cryptText d text s sched r = alignedText d s.padEnabled s.bs (blockStep d s.mode sched c) r text)
      ∧ StepKeeps s.alg s.mode s.bs (blockStep d s.mode sched c) := by
  cases hc : blockCipher sched with
  | none => exact absurd (alg_of_no_blockCipher hf hc) ha
  | some c =>
    have hE : ∀ y, y.length = s.bs → (c.E y).length = s.bs := fun y hy => (blockCipher_length hf State.bs_of_des hc hy).1
    have hD : ∀ y, y.length = s.bs → (c.D y).length = s.bs := fun y hy => (blockCipher_length hf State.bs_of_des hc hy).2
    refine ⟨c, rfl, ?_⟩
    cases hmode : s.mode with
    | cfb | ofb | ctr => rw [hmode] at hm; cases hm
    | ecb =>
      cases d
      · exact ⟨fun _ _ => by simp only [cryptText, encryptText, hc, hmode]; rfl, stepKeeps_ecbStep hE⟩
      · exact ⟨fun _ _ => by simp only [cryptText, decryptText, hc, hmode]; rfl, stepKeeps_ecbStep hD⟩
    | cbc =>
      cases d
      · exact ⟨fun _ _ => by simp only [cryptText, encryptText, hc, hmode]; rfl, stepKeeps_cbcEncryptStep ha hE⟩
      · exact ⟨fun _ _ => by simp only [cryptText, decryptText, hc, hmode]; rfl, stepKeeps_cbcDecryptStep ha hD⟩
    | tcbc =>
      obtain ⟨ks1, ks2, ks3, rfl⟩ := exists_tripleDes_of_fits (htc hmode ▸ hf)
      have hb := State.bs_of_des (.inr (htc hmode))
      cases d
      · exact ⟨fun _ _ => by simp only [cryptText, encryptText, hc, hmode]; rfl, hb ▸ stepKeeps_tcbcEncryptStep ks1 ks2 ks3 ha⟩
      · exact ⟨fun _ _ => by simp only [cryptText, decryptText, hc, hmode]; rfl, hb ▸ stepKeeps_tcbcDecryptStep ks1 ks2 ks3 ha⟩

/-- Outputs of whole blocks are as long as the input. -/
theorem runBlocks_length {alg : Algorithm} {mode : Mode} {bs : Nat} {f : DirRecord → Bytes → Bytes × DirRecord} {r : DirRecord}
    {X : Bytes} (hf : StepKeeps alg mode bs f) (hr : r.fits alg mode bs = true) (hX : X.length % bs = 0) :
    (runBlocks bs f r X).1.length = X.length := by
  have houts := runThrough_outputs f (fun q => q.fits alg mode bs = true) (fun x => x.length = bs) (fun y => y.length = bs)
    (fun q x hq hx => hf q x hx hq) r (blocks bs X) hr (fun _ hx => blocks_mem_length hx)
  rw [runBlocks, flatten_length_of_forall bs _ houts, runThrough_length, blocks_length,
    Nat.div_mul_cancel (Nat.dvd_of_mod_eq_zero hX)]

/-! ### Padding (44_modes.md R266, R267) -/

theorem pad_length (bs : Nat) (M : Bytes) : (pad bs M).length = M.length + (bs - M.length % bs) := by
  simp [pad]

/-- Pad fills up to whole blocks. -/
theorem pad_length_mod {bs : Nat} (hbs : 0 < bs) (M : Bytes) : (pad bs M).length % bs = 0 := by
  have hlt := Nat.mod_lt M.length hbs
  have hsum : M.length + (bs - M.length % bs) = bs * (M.length / bs + 1) := by
    have := Nat.div_add_mod M.length bs
    rw [Nat.mul_succ]; omega
  rw [pad_length, hsum, Nat.mul_mod_right]

theorem unpad_eq_none_iff (bs : Nat) (X : Bytes) :
    unpad bs X = none ↔ X = [] ∨ (X.getLastD 0).toNat = 0 ∨ bs < (X.getLastD 0).toNat := by
  rcases List.eq_nil_or_concat X with rfl | ⟨Y, last, rfl⟩
  · simp [unpad]
  · simp [unpad, List.getLastD_eq_getLast?, or_iff_not_imp_left]

/-- What Unpad answers: 1 to bs bytes fewer. -/
theorem unpad_length {bs : Nat} {X out : Bytes} (h : unpad bs X = some out) :
    out.length < X.length ∧ X.length ≤ out.length + bs := by
  rcases List.eq_nil_or_concat X with rfl | ⟨Y, last, rfl⟩
  · simp [unpad] at h
  · simp only [unpad, List.concat_eq_append, List.getLast?_append, List.getLast?_singleton, Option.some_or] at h
    split at h
    · cases h
    · cases h
      simp only [List.length_take, List.concat_eq_append, List.length_append, List.length_singleton]
      omega

/-- Settles O35: the last byte of a padded string is the number of bytes to remove. -/
theorem unpadInvertsPad : Obligations.UnpadInvertsPad := by
  refine ⟨fun bs M hpos hlt => ?_, unpad_eq_none_iff⟩
  have hmod := Nat.mod_lt M.length hpos
  have hlen := pad_length bs M
  refine ⟨pad_length_mod hpos M, by omega, by omega, ?_⟩
  have hlast : (pad bs M).getLast? = some (BitVec.ofNat 8 (bs - M.length % bs)) := by
    rw [pad, List.getLast?_append, List.getLast?_replicate, if_neg (by omega), Option.some_or]
  have hvalue : (BitVec.ofNat 8 (bs - M.length % bs)).toNat = bs - M.length % bs :=
    Nat.mod_eq_of_lt (by omega)
  rw [unpad, hlast]
  simp only [hvalue]
  rw [if_neg (by omega), hlen, Nat.add_sub_cancel]
  exact congrArg some (List.take_left ..)

/-! ### Which fault is due (60_exceptions.md R367) -/

/-- The length a block-aligned mode does not take (44_modes.md R269). -/
def State.Unaligned (d : Direction) (s : State) (text : Bytes) : Prop :=
  s.alg ≠ .rc4 ∧ blockAligned s.mode = true ∧ (d = .dec ∨ s.padEnabled = false) ∧ text.length % s.bs ≠ 0

/-- The mode function refuses an unaligned text. -/
theorem cryptText_of_unaligned {d : Direction} {s : State} {sched : Schedule} {text : Bytes} (r : DirRecord)
    (hf : sched.fits s.alg s.bs = true) (htc : s.mode = .tcbc → s.alg = .tripleDes) (h : s.Unaligned d text) :
    cryptText d text s sched r = .error .unalignedInput := by
  obtain ⟨ha, hm, hd, hlen⟩ := h
  obtain ⟨c, -, htext, -⟩ := cryptText_aligned d hf htc ha hm
  rw [htext]
  cases d with
  | enc => rw [alignedText, encryptAligned_eq, if_pos ⟨by simpa using hd, hlen⟩]
  | dec => rw [alignedText, decryptAligned_eq, if_pos hlen]

/-- Where a call neither is block-aligned nor refuses its text, its mode is a stream. -/
theorem stream_of_not_block {s : State} (h : ¬(s.alg ≠ .rc4 ∧ blockAligned s.mode = true)) :
    s.alg = .rc4 ∨ blockAligned s.mode = false := by
  rw [not_and_or, not_not, Bool.not_eq_true] at h
  exact h

/-- A text the mode takes is encrypted to as many bytes, but for the padding of a padded block mode (44_modes.md R265, R268). -/
theorem encryptText_answers {s : State} {sched : Schedule} {text : Bytes} {r : DirRecord} (hbs : 0 < s.bs)
    (hf : sched.fits s.alg s.bs = true) (htc : s.mode = .tcbc → s.alg = .tripleDes) (hr : r.fits s.alg s.mode s.bs = true)
    (h : ¬s.Unaligned .enc text) :
    ∃ out r', cryptText .enc text s sched r = .ok (some out, r')
      ∧ out.length = if s.alg ≠ .rc4 ∧ blockAligned s.mode = true ∧ s.padEnabled = true
          then text.length + (s.bs - text.length % s.bs) else text.length := by
  by_cases hblock : s.alg ≠ .rc4 ∧ blockAligned s.mode = true
  · obtain ⟨ha, hm⟩ := hblock
    obtain ⟨c, -, htext, hkeep⟩ := cryptText_aligned .enc hf htc ha hm
    generalize blockStep .enc s.mode sched c = f at htext hkeep
    have halign : ¬(s.padEnabled = false ∧ text.length % s.bs ≠ 0) := fun hu => h ⟨ha, hm, .inr hu.1, hu.2⟩
    refine ⟨(runBlocks s.bs f r (if s.padEnabled then pad s.bs text else text)).1, _,
      by rw [htext, alignedText, encryptAligned_eq, if_neg halign], ?_⟩
    cases hp : s.padEnabled with
    | true => simpa [ha, hm] using (runBlocks_length hkeep hr (pad_length_mod hbs text)).trans (pad_length s.bs text)
    | false => simpa [ha, hm] using runBlocks_length hkeep hr (by simpa [hp] using halign)
  · obtain ⟨f, htext⟩ := cryptText_stream (d := .enc) hf (stream_of_not_block hblock)
    refine ⟨_, _, htext text r, ?_⟩
    rw [runThrough_length, if_neg fun hpad => hblock ⟨hpad.1, hpad.2.1⟩]

/-- A text the mode takes is decrypted to as many bytes, and in a padded block mode the padding is taken off them
(44_modes.md R265, R268). -/
theorem decryptText_answers {s : State} {sched : Schedule} {text : Bytes} {r : DirRecord}
    (hf : sched.fits s.alg s.bs = true) (htc : s.mode = .tcbc → s.alg = .tripleDes) (hr : r.fits s.alg s.mode s.bs = true)
    (h : ¬s.Unaligned .dec text) :
    ∃ X r', X.length = text.length ∧ cryptText .dec text s sched r
      = .ok (if s.alg ≠ .rc4 ∧ blockAligned s.mode = true ∧ s.padEnabled = true then unpad s.bs X else some X, r') := by
  by_cases hblock : s.alg ≠ .rc4 ∧ blockAligned s.mode = true
  · obtain ⟨ha, hm⟩ := hblock
    obtain ⟨c, -, htext, hkeep⟩ := cryptText_aligned .dec hf htc ha hm
    generalize blockStep .dec s.mode sched c = f at htext hkeep
    have halign : text.length % s.bs = 0 := by
      by_contra hlen; exact h ⟨ha, hm, .inl rfl, hlen⟩
    refine ⟨(runBlocks s.bs f r text).1, (runBlocks s.bs f r text).2, runBlocks_length hkeep hr halign, ?_⟩
    rw [htext, alignedText, decryptAligned_eq, if_neg (not_not.mpr halign)]
    cases hp : s.padEnabled <;> simp [ha, hm]
  · obtain ⟨f, htext⟩ := cryptText_stream (d := .dec) hf (stream_of_not_block hblock)
    refine ⟨(runThrough f r text).1, (runThrough f r text).2, runThrough_length f r text, ?_⟩
    rw [if_neg fun hpad => hblock ⟨hpad.1, hpad.2.1⟩, htext]
    rfl

/-- The course of a call ends in the fault that is due (60_exceptions.md R367). -/
theorem cryptCourse_of_cryptFault {d : Direction} {s : State} {text : Bytes} {e : FaultReason} (hs : s.Inv)
    (h : cryptFault d s text = some e) : cryptCourse d (cryptText d text) s = .error e := by
  unfold cryptFault at h
  split at h
  · rename_i hk
    cases h
    simp [cryptCourse, ensureSchedule, hk]
  · rename_i hkey
    obtain ⟨key, hk⟩ := Option.ne_none_iff_exists'.mp hkey
    split at h
    · rename_i hrc4
      cases h
      have hder : deriveSchedule s.alg s.bs s.keyLenParam [] = .error .emptyRc4Key := by simp [deriveSchedule, hrc4.1]
      have hdirty : s.dirty = true := by
        by_contra hd
        obtain ⟨sched, hok, -⟩ := hs.scheduleFresh [] hrc4.2 (by simpa using hd)
        rw [hder] at hok; cases hok
      simp [cryptCourse, ensureSchedule, hrc4.2, hdirty, hder]
    · rename_i hrc4
      obtain ⟨sched, hder⟩ := exists_deriveSchedule s.bs s.keyLenParam (fun h => hrc4 ⟨h.1, h.2 ▸ hk⟩)
      split at h
      · rename_i hiv
        cases h
        have hfresh := hs.startsFresh_of_no_iv d hiv.1 hiv.2.1 hiv.2.2
        have hprologue := callPrologue_of_derived d sched s
        rw [if_pos ⟨hfresh, hiv⟩] at hprologue
        simp [cryptCourse, ensureSchedule_of_inv hs hk hder, hprologue]
      · rename_i hiv
        split at h
        · rename_i hun
          cases h
          have htext := cryptText_of_unaligned ((s.prepared d sched).dir d) (deriveSchedule_fits hs.bs_legal hder)
            hs.tcbcAlgorithm hun
          rw [← cryptText_reads (u := s.prepared d sched) d text sched _ (by simp) (by simp) (by simp)] at htext
          rw [cryptCourse_of_inv d _ hs hk hder hiv, htext]
        · cases h

/-- A call without a fault due has a key with a schedule, and its IV and text are such as its mode takes. -/
theorem of_cryptFault_none {d : Direction} {s : State} {text key : Bytes} (hs : s.Inv) (hk : s.keyReg = some key)
    (h : cryptFault d s text = none) :
    ∃ sched, deriveSchedule s.alg s.bs s.keyLenParam key = .ok sched ∧ s.Runs d sched ∧ ¬s.Unaligned d text := by
  unfold cryptFault at h
  rw [if_neg (by simp [hk])] at h
  split at h
  · cases h
  · rename_i hrc4
    obtain ⟨sched, hder⟩ := exists_deriveSchedule s.bs s.keyLenParam (fun h => hrc4 ⟨h.1, h.2 ▸ hk⟩)
    split at h
    · cases h
    · rename_i hiv
      split at h
      · cases h
      · exact ⟨sched, hder, hs.runs d hk hder hiv, ‹_›⟩

/-- A call without a fault due has its key. -/
theorem exists_key_of_cryptFault_none {d : Direction} {s : State} {text : Bytes} (h : cryptFault d s text = none) :
    ∃ key, s.keyReg = some key := by
  refine Option.ne_none_iff_exists'.mp fun hk => ?_
  rw [cryptFault, if_pos hk] at h
  cases h

/-- A ready engine raises the fault that is due over the state before the call. -/
theorem exec_cryptInstr_of_cryptFault {d : Direction} {s : State} {text : Bytes} {e : FaultReason} (hs : s.Inv)
    (hready : s.isReady = true) (h : cryptFault d s text = some e) : exec (cryptInstr d text) s = .next (s.raise e) := by
  rw [exec_cryptInstr, whenConfigured_of_ready hready, crypt, cryptCourse_of_cryptFault hs h]

/-- Settles O23: the checks of the course come in the order of R367. -/
theorem cryptFaultsInOrder : Obligations.CryptFaultsInOrder :=
  fun _ s _ r hs hready h => ⟨s.raise r, exec_cryptInstr_of_cryptFault hs hready h, rfl, rfl, rfl⟩

/-- Settles O24: `raise` writes the fault and the Status alone. -/
theorem unalignedInputChangesNothing : Obligations.UnalignedInputChangesNothing :=
  fun _ _ _ hs hready h => exec_cryptInstr_of_cryptFault hs hready h

/-! ### Completion (45_control.md R332, R333) -/

/-- A mode function answers a text it takes. -/
theorem cryptText_ok {d : Direction} {s : State} {sched : Schedule} {text : Bytes} (hs : s.Inv) (h : s.Runs d sched)
    (htakes : ¬s.Unaligned d text) :
    ∃ out r, cryptText d text s sched ((s.prepared d sched).dir d) = .ok (out, r) := by
  cases d with
  | enc =>
    obtain ⟨out, r, ht, -⟩ := encryptText_answers hs.bs_pos h.schedFits hs.tcbcAlgorithm h.recordFits htakes
    exact ⟨_, r, ht⟩
  | dec =>
    obtain ⟨X, r, -, ht⟩ := decryptText_answers h.schedFits hs.tcbcAlgorithm h.recordFits htakes
    exact ⟨_, r, ht⟩

/-- From a state that meets the invariant, a call on a ready engine without a fault due completes. -/
theorem exec_cryptInstr_completes {d : Direction} {s : State} {text : Bytes} (hs : s.Inv) (hready : s.isReady = true)
    (h : cryptFault d s text = none) :
    ∃ sched out r, s.Runs d sched ∧ cryptText d text s sched ((s.prepared d sched).dir d) = .ok (out, r)
      ∧ exec (cryptInstr d text) s = .next (s.afterCall d sched out r) := by
  obtain ⟨key, hk⟩ := exists_key_of_cryptFault_none h
  obtain ⟨sched, -, hruns, htakes⟩ := of_cryptFault_none hs hk h
  obtain ⟨out, r, ht⟩ := cryptText_ok hs hruns htakes
  exact ⟨sched, out, r, hruns, ht, exec_cryptInstr_of_runs hready hruns ht⟩

/-- The record a completed call leaves is valid under continuous buffering only (44_modes.md R280). -/
theorem State.afterCall_dir_valid {d : Direction} {s : State} {sched : Schedule} {text : Bytes} {out : Option Bytes} {r : DirRecord}
    (h : s.Runs d sched) (ht : cryptText d text s sched ((s.prepared d sched).dir d) = .ok (out, r)) :
    ((s.afterCall d sched out r).dir d).valid = s.cbEnabled := by
  have hv := (cryptText_keeps text h.schedFits _ _ ht h.recordFits).2
  rw [State.prepared_valid] at hv
  rw [State.afterCall_dir]
  cases s.cbEnabled
  · rfl
  · exact hv

/-- Settles O21: the call runs its mode function, which answers. -/
theorem encryptCompletes : Obligations.EncryptCompletes := by
  intro s text key hs hready hk hfault
  obtain ⟨sched, hder, hruns, htakes⟩ := of_cryptFault_none hs hk hfault
  obtain ⟨out, r, ht, hlen⟩ := encryptText_answers hs.bs_pos hruns.schedFits hs.tcbcAlgorithm hruns.recordFits htakes
  exact ⟨out, sched, _, exec_cryptInstr_of_runs hready hruns ht, hder, State.afterCall_dir_valid hruns ht, hlen⟩

/-- Settles O22: the call runs its mode function, which answers, and Unpad refuses or takes 1 to bs bytes off. -/
theorem decryptCompletes : Obligations.DecryptCompletes := by
  intro s text key hs hready hk hfault
  obtain ⟨sched, hder, hruns, htakes⟩ := of_cryptFault_none hs hk hfault
  obtain ⟨X, r, hlen, ht⟩ := decryptText_answers hruns.schedFits hs.tcbcAlgorithm hruns.recordFits htakes
  refine ⟨_, sched, _, exec_cryptInstr_of_runs hready hruns ht, hder, State.afterCall_dir_valid hruns ht, ?_⟩
  split
  · cases hunpad : unpad s.bs X with
    | none => exact .inl rfl
    | some out => exact .inr ⟨out, rfl, hlen ▸ unpad_length hunpad⟩
  · exact ⟨X, rfl, hlen⟩

/-- Settles O26: under the invariant the schedule that stands is the one a derivation gives, so both calls run alike. -/
theorem scheduleIsNeverStale : Obligations.ScheduleIsNeverStale := by
  intro d s t text hs h hf
  rcases exec_cryptInstr_next h with ⟨e, he, -⟩ | ⟨sched, out, r, hready, hruns, ht, rfl⟩
  · rw [hf] at he; cases he
  · obtain ⟨key, hk, hder⟩ := hruns.schedule.derived hs
    have hagain : State.Runs d sched { s with dirty := true } :=
      ⟨⟨key, hk, hder⟩, by cases d <;> exact hruns.iv, hruns.schedFits, by cases d <;> exact hruns.recordFits⟩
    have hexec := exec_cryptInstr_of_runs (s := { s with dirty := true }) (text := text) (out := out) (r := r) hready hagain
      (by cases d <;> exact ht)
    cases d <;> exact hexec

/-- Settles O56: the widths of a valid record and its cursor give the lengths of its views. -/
theorem viewsHaveTheirLengths : Obligations.ViewsHaveTheirLengths := by
  intro d s hs ha hv
  obtain ⟨hreg, hks, hpos, -⟩ := (DirRecord.fits_block ha).mp ((hs.dirInv d).shaped hv)
  have hno : ¬(s.alg = .rc4 ∨ (s.dir d).valid = false) := by simp [ha, hv]
  refine ⟨_, _, if_neg hno, if_neg hno, hreg, ?_, ?_⟩
  · split
    · exact hs.bs_pos
    · rw [slice_length]; omega
  · rw [slice, List.take_of_length_le (by rw [List.length_drop]; omega)]

end Sys2Proof.Machine
end

section
/-! Steps and commands: what the host's next event does, how every command answers, who writes which register, and the
invariant every step keeps (45_control.md R320, 60_exceptions.md R360 to R362, 10_state.md R31 to R45). -/

namespace Sys2Proof.Machine

/-! ### The host's next event (log entry 1) -/

theorem step_command {s : State} {c : Command} {rest : List HostEvent} (h : s.inbox = .command c :: rest) :
    step s = runCommand c { s with inbox := rest } := by simp [step, takeEvent, h]

theorem step_powerUp {s : State} {rest : List HostEvent} (h : s.inbox = .powerUp :: rest) :
    step s = .next ({ s with inbox := rest }.powerUp) := by simp [step, takeEvent, h]

theorem step_overlapping {s : State} {c : Command} {rest : List HostEvent} (h : s.inbox = .overlapping c :: rest) :
    step s = .refused .overlappingCommand := by simp [step, takeEvent, h]

theorem step_idle {s : State} (h : s.inbox = []) : step s = .next s := by simp [step, takeEvent, h]

theorem runCommand_of_fault {s : State} {r : FaultReason} (c : Command) (h : s.fault = some r) :
    runCommand c s = .next (s.answer (.fault r)) := by simp [runCommand, h]

theorem runCommand_of_ok {s : State} {c : Command} {i : Instr} (h : s.fault = none) (hc : decode c = .ok i) :
    runCommand c s = exec i s := by simp [runCommand, h, hc]

theorem runCommand_of_error {s : State} {c : Command} {e : DecodeError} (h : s.fault = none) (hc : decode c = .error e) :
    runCommand c s = .next (s.raise .illegalCommand) := by
  simp [runCommand, h, hc, illegalCommand, whenNotFaulted_of_none h]

/-- Settles O5: the dispatch goes past the fault and the decoder to `exec`. -/
theorem stepRunsTheDecodedCommand : Obligations.StepRunsTheDecodedCommand :=
  fun _ _ _ _ hinbox hf hc => (step_command hinbox).trans (runCommand_of_ok hf hc)

/-- Settles O6: what is not legal the decoder rejects, and what it rejects raises IllegalCommand. -/
theorem stepFaultsOnIllegalCommands : Obligations.StepFaultsOnIllegalCommands := by
  intro s c rest hinbox hf hillegal
  rw [← decoderAcceptsExactlyLegalCommands c] at hillegal
  cases hc : decode c with
  | ok i => exact absurd ⟨i, hc⟩ hillegal
  | error e => exact ⟨_, (step_command hinbox).trans (runCommand_of_error hf hc), rfl, rfl, rfl, rfl⟩

/-- Settles O8: power-up writes the reset values. -/
theorem powerUpResetsTheContext : Obligations.PowerUpResetsTheContext :=
  ⟨fun _ _ hinbox => ⟨_, step_powerUp hinbox, rfl, rfl, rfl, rfl, rfl, rfl, rfl, rfl, rfl⟩,
    rfl, rfl, rfl, rfl, rfl, rfl, rfl, rfl⟩

/-- Settles O9: one event is refused, and none leaves the state. -/
theorem overlapIsRefusedAndIdleHoldsState : Obligations.OverlapIsRefusedAndIdleHoldsState :=
  ⟨fun _ _ _ => step_overlapping, fun _ => step_idle⟩

/-! ### The dispatch of every command (45_control.md R320) -/

/-- Every command but CONFIGURE stands under the dispatch that needs a configured context. -/
theorem exec_eq_whenConfigured {i : Instr} (hi : i.opcode ≠ .configure) : ∃ body, ∀ s, exec i s = whenConfigured body s := by
  cases i with
  | configure _ _ _ _ => exact absurd rfl hi
  | setKey _ | setIv _ | setPassword _ _ _ _ | setKeyLength _ | setBlockLength _ | enableCb | disableCb | enablePad | disablePad
  | encrypt _ | decrypt _ => exact ⟨_, fun _ => rfl⟩

/-- A standing fault answers every command (60_exceptions.md R362). -/
theorem exec_of_fault {s : State} {r : FaultReason} (i : Instr) (h : s.fault = some r) :
    exec i s = .next (s.answer (.fault r)) := by
  by_cases hi : i.opcode = .configure
  · cases i with
    | configure _ _ _ _ => simp [exec, execConfigure, whenNotFaulted, h]
    | setKey _ | setIv _ | setPassword _ _ _ _ | setKeyLength _ | setBlockLength _ | enableCb | disableCb | enablePad | disablePad
    | encrypt _ | decrypt _ => cases hi
  · obtain ⟨body, hbody⟩ := exec_eq_whenConfigured hi
    rw [hbody, whenConfigured_of_fault h]

/-- Settles O7: the sticky fault comes before the decoder, and before every command's own meaning. -/
theorem faultIsSticky : Obligations.FaultIsSticky :=
  fun _ _ h => ⟨fun c _ hinbox => (step_command hinbox).trans (runCommand_of_fault c h), fun i => exec_of_fault i h⟩

/-- Settles O12: the dispatch raises NotConfigured. -/
theorem otherCommandsNeedConfigure : Obligations.OtherCommandsNeedConfigure := by
  intro i s hi hf hc
  obtain ⟨body, hbody⟩ := exec_eq_whenConfigured hi
  exact ⟨_, (hbody s).trans (whenConfigured_of_not_configured hf hc), rfl, rfl, rfl⟩

/-- A command that ends without a fault ran its own meaning on a ready engine. -/
theorem isReady_of_exec {i : Instr} {s t : State} (hi : i.opcode ≠ .configure) (h : exec i s = .next t) (hf : t.fault = none) :
    s.isReady = true := by
  obtain ⟨body, hbody⟩ := exec_eq_whenConfigured hi
  rw [hbody] at h
  rcases whenConfigured_next h with ⟨r, hr, rfl⟩ | ⟨-, -, rfl⟩ | ⟨hready, -⟩
  · rw [State.answer_fault, hr] at hf; cases hf
  · cases hf
  · exact hready

/-! ### CONFIGURE (45_control.md R321, 60_exceptions.md R364) -/

theorem exec_configure_of_some {s : State} {alg mode : BitVec 4} {a : Algorithm} {m : Mode} (klen blen : BitVec 8)
    (hf : s.fault = none) (hc : configuration alg mode = some (a, m)) :
    exec (.configure alg mode klen blen) s = .next ((s.createContext a m klen blen).complete (.ok [])) := by
  simp [exec, execConfigure, whenNotFaulted_of_none hf, hc]

theorem exec_configure_of_none {s : State} {alg mode : BitVec 4} (klen blen : BitVec 8) (hf : s.fault = none)
    (hc : configuration alg mode = none) :
    exec (.configure alg mode klen blen) s = .next ({ s with configured := false }.complete .configError) := by
  simp [exec, execConfigure, whenNotFaulted_of_none hf, hc]

/-- The codes of an algorithm and a mode are read back, where the two go together. -/
theorem configuration_codes {a : Algorithm} {m : Mode} (h : m = .tcbc → a = .tripleDes) :
    configuration (algorithmCode a) (modeCode m) = some (a, m) := by
  have hread : ∀ (a : Algorithm) (m : Mode), algorithmOfCode (algorithmCode a) = some a ∧ modeOfCode (modeCode m) = some m := by
    intro a m; cases a <;> cases m <;> exact ⟨rfl, rfl⟩
  rw [configuration, (hread a m).1, (hread a m).2]
  exact if_neg fun hno => hno.2 (h hno.1)

/-- An accepted configuration has 3CBC with TripleDES only. -/
theorem tcbcAlgorithm_of_configuration {alg mode : BitVec 4} {a : Algorithm} {m : Mode}
    (h : configuration alg mode = some (a, m)) : m = .tcbc → a = .tripleDes := by
  unfold configuration at h
  split at h
  · split at h
    · cases h
    · rename_i hno
      cases h
      intro hm; by_contra ha; exact hno ⟨hm, ha⟩
  · cases h

theorem rijndaelBlockLen_eq (blen : BitVec 8) :
    rijndaelBlockLen blen = if blen ≠ 0 then min 32 (max 16 (4 * ((blen.toNat + 3) / 4))) else 16 := by
  rw [rijndaelBlockLen, ite_not]

/-- Settles O13: the codes name the algorithm and the mode, and the new context is `createContext`. -/
theorem configureCreatesTheContext : Obligations.ConfigureCreatesTheContext := by
  intro s alg mode a m klen blen hf halg hmode htc
  have ha : alg = algorithmCode a := by
    simp only [List.mem_cons, Prod.mk.injEq, List.not_mem_nil, or_false] at halg
    rcases halg with ⟨rfl, rfl⟩ | ⟨rfl, rfl⟩ | ⟨rfl, rfl⟩ | ⟨rfl, rfl⟩ | ⟨rfl, rfl⟩ <;> rfl
  have hm : mode = modeCode m := by
    simp only [List.mem_cons, Prod.mk.injEq, List.not_mem_nil, or_false] at hmode
    rcases hmode with ⟨rfl, rfl⟩ | ⟨rfl, rfl⟩ | ⟨rfl, rfl⟩ | ⟨rfl, rfl⟩ | ⟨rfl, rfl⟩ | ⟨rfl, rfl⟩ <;> rfl
  rw [ha, hm, exec_configure_of_some klen blen hf (configuration_codes htc), State.createContext, rijndaelBlockLen_eq, ite_and]
  rfl

/-- Codes without a meaning, and 3CBC with another algorithm, are refused. -/
theorem configuration_refuses : ∀ alg mode : BitVec 4, (4 < alg.toNat ∨ 5 < mode.toNat ∨ (mode.toNat = 5 ∧ alg.toNat ≠ 1)) →
    configuration alg mode = none := by decide +kernel

/-- Settles O14: no configuration stands for the codes. -/
theorem configureRefusesOtherCodes : Obligations.ConfigureRefusesOtherCodes :=
  fun _ alg mode klen blen hf h => exec_configure_of_none klen blen hf (configuration_refuses alg mode h)

/-! ### Every command is answered (60_exceptions.md R360, 10_state.md R45) -/

/-- A command's result: a next state with one Status for the host, whose events stay; `pc` counts it unless it faults. -/
def Answers (s : State) (res : Result) : Prop :=
  ∃ t, res = .next t ∧ t.inbox = s.inbox
    ∧ (((∃ r, t.response = some (.fault r)) ∧ t.pc = s.pc)
      ∨ (((∃ out, t.response = some (.ok out)) ∨ t.response = some .configError ∨ t.response = some .paddingError)
          ∧ t.pc = s.pc + 1))

theorem answers_answer (s : State) (r : FaultReason) : Answers s (.next (s.answer (.fault r))) :=
  ⟨_, rfl, rfl, .inl ⟨⟨r, rfl⟩, rfl⟩⟩

theorem answers_raise (s : State) (r : FaultReason) : Answers s (.next (s.raise r)) :=
  ⟨_, rfl, rfl, .inl ⟨⟨r, rfl⟩, rfl⟩⟩

theorem answers_complete_ok {s u : State} (out : Bytes) (hpc : u.pc = s.pc) (hinbox : u.inbox = s.inbox) :
    Answers s (.next (u.complete (.ok out))) :=
  ⟨_, rfl, hinbox, .inr ⟨.inl ⟨out, rfl⟩, congrArg (· + 1) hpc⟩⟩

theorem answers_whenConfigured {s : State} {body : State → Result} (h : Answers s (body s)) :
    Answers s (whenConfigured body s) := by
  cases hf : s.fault with
  | some r => rw [whenConfigured_of_fault hf]; exact answers_answer s r
  | none =>
    cases hc : s.configured with
    | false => rw [whenConfigured_of_not_configured hf hc]; exact answers_raise s _
    | true => rwa [whenConfigured_of_ready (State.isReady_iff.mpr ⟨hf, hc⟩)]

theorem answers_crypt (d : Direction) (text : State → Schedule → DirRecord → ModeResult) (s : State) :
    Answers s (crypt d text s) := by
  unfold crypt
  cases h : cryptCourse d text s with
  | error e => exact answers_raise s e
  | ok p =>
    obtain ⟨st, s'⟩ := p
    obtain ⟨sched, out, r, -, -, rfl, rfl⟩ := runs_of_cryptCourse h
    simp only [State.complete_callEpilogue_prepared]
    refine ⟨_, rfl, by cases d <;> rfl, .inr ⟨?_, by cases d <;> rfl⟩⟩
    rw [State.afterCall_response]
    cases out with
    | none => exact .inr (.inr rfl)
    | some out => exact .inl ⟨out, rfl⟩

theorem answers_exec (i : Instr) (s : State) : Answers s (exec i s) := by
  cases i with
  | configure alg mode klen blen =>
    cases hf : s.fault with
    | some r => rw [exec_of_fault _ hf]; exact answers_answer s r
    | none =>
      cases hc : configuration alg mode with
      | some am => rw [exec_configure_of_some klen blen hf hc]; exact answers_complete_ok [] rfl rfl
      | none =>
        rw [exec_configure_of_none klen blen hf hc]
        exact ⟨_, rfl, rfl, .inr ⟨.inr (.inl rfl), rfl⟩⟩
  | setPassword p salt iterations outputLength =>
    rw [exec, execSetPassword]
    refine answers_whenConfigured ?_
    split
    · exact answers_raise s _
    · exact answers_complete_ok [] rfl rfl
  | setBlockLength blen =>
    rw [exec, execSetBlockLength]
    refine answers_whenConfigured ?_
    split <;> exact answers_complete_ok [] rfl rfl
  | setKey key => rw [exec, execSetKey]; exact answers_whenConfigured (answers_complete_ok [] rfl rfl)
  | setIv iv => rw [exec, execSetIv]; exact answers_whenConfigured (answers_complete_ok [] rfl rfl)
  | setKeyLength klen => rw [exec, execSetKeyLength]; exact answers_whenConfigured (answers_complete_ok [] rfl rfl)
  | enableCb => rw [exec, execEnableCb]; exact answers_whenConfigured (answers_complete_ok [] rfl rfl)
  | disableCb => rw [exec, execDisableCb]; exact answers_whenConfigured (answers_complete_ok [] rfl rfl)
  | enablePad => rw [exec, execEnablePad]; exact answers_whenConfigured (answers_complete_ok [] rfl rfl)
  | disablePad => rw [exec, execDisablePad]; exact answers_whenConfigured (answers_complete_ok [] rfl rfl)
  | encrypt _ | decrypt _ => exact answers_whenConfigured (answers_crypt ..)

theorem answers_runCommand (c : Command) (s : State) : Answers s (runCommand c s) := by
  cases hf : s.fault with
  | some r => rw [runCommand_of_fault c hf]; exact answers_answer s r
  | none =>
    cases hc : decode c with
    | ok i => rw [runCommand_of_ok hf hc]; exact answers_exec i s
    | error e => rw [runCommand_of_error hf hc]; exact answers_raise s _

/-- Settles O10: every event but an overlap has a next state, and every meaning answers. -/
theorem everyCommandIsAnswered : Obligations.EveryCommandIsAnswered := by
  refine ⟨fun s hno => ?_, fun i s => ?_⟩
  · match hinbox : s.inbox with
    | [] => exact ⟨s, step_idle hinbox⟩
    | .command c :: rest =>
      obtain ⟨t, ht, -⟩ := answers_runCommand c { s with inbox := rest }
      exact ⟨t, (step_command hinbox).trans ht⟩
    | .overlapping c :: rest => exact absurd hinbox (hno c rest)
    | .powerUp :: rest => exact ⟨_, step_powerUp hinbox⟩
  · obtain ⟨t, ht, hinbox, ⟨⟨r, hr⟩, -⟩ | ⟨⟨out, hr⟩ | hr | hr, -⟩⟩ := answers_exec i s <;> exact ⟨t, _, ht, hr, hinbox⟩

/-- Settles O11: a command's answer says whether it counts. -/
theorem pcCountsCompletedCommands : Obligations.PcCountsCompletedCommands := by
  intro s t c rest hinbox h
  obtain ⟨u, hu, -, hpc⟩ := answers_runCommand c { s with inbox := rest }
  rw [step_command hinbox, hu] at h
  cases h
  exact hpc

/-! ### The writers of each register (10_state.md R31 to R40) -/

section
variable (d : Direction) (sched : Schedule) (out : Option Bytes) (r : DirRecord) (s : State)

@[simp] theorem State.afterCall_configured : (s.afterCall d sched out r).configured = s.configured := State.setDir_configured ..
@[simp] theorem State.afterCall_keyLenParam : (s.afterCall d sched out r).keyLenParam = s.keyLenParam := State.setDir_keyLenParam ..
@[simp] theorem State.afterCall_blockLen : (s.afterCall d sched out r).blockLen = s.blockLen := State.setDir_blockLen ..
@[simp] theorem State.afterCall_fault : (s.afterCall d sched out r).fault = s.fault := State.setDir_fault ..

end

/-- ENCRYPT and DECRYPT write no register of the configuration. -/
theorem registers_of_cryptInstr {d : Direction} {s t : State} {text : Bytes} (h : exec (cryptInstr d text) s = .next t)
    (hf : t.fault = none) : t.configured = s.configured ∧ t.alg = s.alg ∧ t.mode = s.mode ∧ t.keyReg = s.keyReg
      ∧ t.ivReg = s.ivReg ∧ t.keyLenParam = s.keyLenParam ∧ t.blockLen = s.blockLen ∧ t.cbEnabled = s.cbEnabled
      ∧ t.padEnabled = s.padEnabled := by
  rcases exec_cryptInstr_next h with ⟨e, he, -⟩ | ⟨sched, out, r, -, -, -, rfl⟩
  · rw [hf] at he; cases he
  · simp

/-- Settles O20: each command's meaning is a composition of the writes named for it. -/
theorem registersHaveTheirWriters : Obligations.RegistersHaveTheirWriters := by
  intro i s t h hf hi
  have hready := isReady_of_exec hi h hf
  cases i with
  | configure _ _ _ _ => exact absurd rfl hi
  | setKey key => rw [exec_setKey_of_ready hready] at h; cases h; simp [Instr.opcode]
  | setIv iv => rw [exec_setIv_of_ready hready] at h; cases h; simp [Instr.opcode]
  | setPassword p salt its len =>
    rw [exec_setPassword_of_ready hready] at h
    split at h <;> cases h <;> simp [Instr.opcode]
  | setKeyLength klen => rw [exec_setKeyLength_of_ready hready] at h; cases h; simp [Instr.opcode]
  | setBlockLength blen =>
    rw [exec_setBlockLength_of_ready hready] at h
    split at h <;> cases h <;> simp [Instr.opcode]
  | enableCb => rw [exec_enableCb_of_ready hready] at h; cases h; simp [Instr.opcode]
  | disableCb => rw [exec_disableCb_of_ready hready] at h; cases h; simp [Instr.opcode]
  | enablePad => rw [exec_enablePad_of_ready hready] at h; cases h; simp [Instr.opcode]
  | disablePad => rw [exec_disablePad_of_ready hready] at h; cases h; simp [Instr.opcode]
  | encrypt text =>
    have := registers_of_cryptInstr (d := .enc) h hf
    simp [this]
  | decrypt text =>
    have := registers_of_cryptInstr (d := .dec) h hf
    simp [this]

/-! ### The invariant -/

/-- The state after power-up meets the invariant. -/
theorem State.reset_inv : State.reset.Inv where
  blockLenLegal := by decide
  blockLenFixed := by decide
  tcbcAlgorithm := by decide
  scheduleFresh := fun _ hk => nomatch hk
  encInv := ⟨nofun, nofun, nofun⟩
  decInv := ⟨nofun, nofun, nofun⟩
  assertion := nofun

/-- Settles O54: after power-up there is no key, no schedule and no valid record. -/
theorem resetMeetsTheInvariant : Obligations.ResetMeetsTheInvariant :=
  ⟨State.reset_inv, nofun, nofun, nofun⟩

section
variable {s : State}

/-- The invariant does not read the wires to the host, `configured`, `padEnabled` and `pc`. -/
theorem State.Inv.of_unread (h : s.Inv) (configured padEnabled : Bool) (pc : Nat) (inbox : List HostEvent)
    (response : Option Status) : State.Inv { s with
      configured := configured, padEnabled := padEnabled, pc := pc, inbox := inbox, response := response } :=
  ⟨h.blockLenLegal, h.blockLenFixed, h.tcbcAlgorithm, h.scheduleFresh, ⟨h.encInv.buffered, h.encInv.shaped, h.encInv.fromIv⟩,
    ⟨h.decInv.buffered, h.decInv.shaped, h.decInv.fromIv⟩, h.assertion⟩

theorem State.Inv.raise (h : s.Inv) {r : FaultReason} (hr : r ≠ .internalInvariant) : (s.raise r).Inv :=
  ⟨h.blockLenLegal, h.blockLenFixed, h.tcbcAlgorithm, h.scheduleFresh, ⟨h.encInv.buffered, h.encInv.shaped, h.encInv.fromIv⟩,
    ⟨h.decInv.buffered, h.decInv.shaped, h.decInv.fromIv⟩, fun he => hr (Option.some.inj he)⟩

/-- A command that completes keeps what its writes kept. -/
theorem State.Inv.complete (h : s.Inv) (st : Status) : (s.complete st).Inv :=
  h.of_unread s.configured s.padEnabled (s.pc + 1) s.inbox (some st)

/-- With both records discarded nothing is asked of the IV and of continuous buffering. -/
theorem State.Inv.discard (h : s.Inv) (iv : Option Bytes) (cb : Bool) :
    ({ s with ivReg := iv, cbEnabled := cb }.discard).Inv :=
  ⟨h.blockLenLegal, h.blockLenFixed, h.tcbcAlgorithm, h.scheduleFresh, ⟨nofun, nofun, nofun⟩, ⟨nofun, nofun, nofun⟩,
    h.assertion⟩

/-- With the schedule to be derived again and both records discarded the key and its length are free. -/
theorem State.Inv.markDirty_discard (h : s.Inv) (key : Option Bytes) (klen : BitVec 8) :
    ({ s with keyReg := key, keyLenParam := klen }.markDirty.discard).Inv :=
  .of_dirty h.blockLenLegal h.blockLenFixed h.tcbcAlgorithm rfl rfl rfl h.assertion

/-- And so is the block length of Rijndael, within the legal ones. -/
theorem State.Inv.setBlockLen (h : s.Inv) (blen : BitVec 8) (ha : s.alg = .rijndael) :
    ({ s with blockLen := rijndaelBlockLen blen }.markDirty.discard).Inv :=
  .of_dirty (rijndaelBlockLen_legal blen) (fun hna => absurd ha hna) h.tcbcAlgorithm rfl rfl rfl h.assertion

/-- Continuous buffering may be enabled at any time. -/
theorem State.Inv.enableCb (h : s.Inv) : (s.setCb true).Inv :=
  ⟨h.blockLenLegal, h.blockLenFixed, h.tcbcAlgorithm, h.scheduleFresh, ⟨fun _ => rfl, h.encInv.shaped, h.encInv.fromIv⟩,
    ⟨fun _ => rfl, h.decInv.shaped, h.decInv.fromIv⟩, h.assertion⟩

/-- CONFIGURE leaves a legal configuration with the schedule to be derived and no valid record. -/
theorem State.createContext_inv {a : Algorithm} {m : Mode} (klen blen : BitVec 8) (hf : s.fault = none)
    (htc : m = .tcbc → a = .tripleDes) : (s.createContext a m klen blen).Inv := by
  refine State.Inv.of_dirty ?_ (fun ha => if_neg ha) htc rfl rfl rfl (by simp [hf])
  rw [State.createContext_blockLen]
  split
  · exact rijndaelBlockLen_legal blen
  · decide

/-- The fault due in a call is not the assertion. -/
theorem cryptFault_ne_internalInvariant (d : Direction) (s : State) (text : Bytes) :
    cryptFault d s text ≠ some .internalInvariant := by
  unfold cryptFault
  split_ifs <;> simp

/-- The record a completed call leaves meets the invariant. -/
theorem State.afterCall_dirInv {d : Direction} {sched : Schedule} {text : Bytes} {out : Option Bytes} {r : DirRecord} (hs : s.Inv)
    (h : s.Runs d sched) (ht : cryptText d text s sched ((s.prepared d sched).dir d) = .ok (out, r)) :
    ((s.afterCall d sched out r).dir d).Inv (s.afterCall d sched out r) := by
  have hvalid := State.afterCall_dir_valid h ht
  refine ⟨fun hv => by rwa [State.afterCall_cbEnabled, ← hvalid], fun hv => ?_, fun _ ha hm => ?_⟩
  · rw [hvalid] at hv
    simp only [State.afterCall_dir, hv, if_true, State.afterCall_alg, State.afterCall_mode, State.afterCall_bs]
    exact (cryptText_keeps text h.schedFits _ _ ht h.recordFits).1
  · rw [State.afterCall_alg] at ha
    rw [State.afterCall_mode] at hm
    rw [State.afterCall_ivReg]
    exact fun hiv => h.iv ⟨hs.startsFresh_of_no_iv d ha hm hiv, ha, hm, hiv⟩

/-- A completed call keeps the invariant: its schedule is the one of the key, and its record has its widths. -/
theorem State.Inv.afterCall {d : Direction} {sched : Schedule} {text : Bytes} {out : Option Bytes} {r : DirRecord} (hs : s.Inv)
    (h : s.Runs d sched) (ht : cryptText d text s sched ((s.prepared d sched).dir d) = .ok (out, r)) :
    (s.afterCall d sched out r).Inv := by
  obtain ⟨key, hk, hder⟩ := h.schedule.derived hs
  have hdir := State.afterCall_dirInv hs h ht
  have hother := hs.dirInv d.other
  have hfresh : ∀ key', (s.afterCall d sched out r).keyReg = some key' → (s.afterCall d sched out r).dirty = false →
      ∃ sched', deriveSchedule (s.afterCall d sched out r).alg (s.afterCall d sched out r).bs
        (s.afterCall d sched out r).keyLenParam key' = .ok sched' ∧ (s.afterCall d sched out r).sched = some sched' := by
    intro key' hk' _
    rw [State.afterCall_keyReg, hk] at hk'
    cases hk'
    exact ⟨sched, by simpa using hder, State.afterCall_sched ..⟩
  cases d with
  | enc => exact ⟨hs.blockLenLegal, hs.blockLenFixed, hs.tcbcAlgorithm, hfresh, hdir,
      ⟨hother.buffered, hother.shaped, hother.fromIv⟩, hs.assertion⟩
  | dec => exact ⟨hs.blockLenLegal, hs.blockLenFixed, hs.tcbcAlgorithm, hfresh,
      ⟨hother.buffered, hother.shaped, hother.fromIv⟩, hdir, hs.assertion⟩

end

/-- ENCRYPT and DECRYPT keep the invariant on a ready engine. -/
theorem cryptInstr_keeps_inv {d : Direction} {s t : State} {text : Bytes} (hs : s.Inv) (hready : s.isReady = true)
    (h : exec (cryptInstr d text) s = .next t) : t.Inv := by
  cases hfault : cryptFault d s text with
  | some e =>
    rw [exec_cryptInstr_of_cryptFault hs hready hfault] at h
    cases h
    exact hs.raise fun he => cryptFault_ne_internalInvariant d s text (he ▸ hfault)
  | none =>
    obtain ⟨sched, out, r, hruns, ht, hexec⟩ := exec_cryptInstr_completes hs hready hfault
    rw [hexec] at h
    cases h
    exact hs.afterCall hruns ht

/-- Every command keeps the invariant on a ready engine. -/
theorem exec_ready_keeps_inv {i : Instr} {s t : State} (hi : i.opcode ≠ .configure) (hs : s.Inv) (hready : s.isReady = true)
    (h : exec i s = .next t) : t.Inv := by
  cases i with
  | configure _ _ _ _ => exact absurd rfl hi
  | setKey key =>
    rw [exec_setKey_of_ready hready] at h; cases h
    exact (hs.markDirty_discard (some key) s.keyLenParam).complete _
  | setIv iv =>
    rw [exec_setIv_of_ready hready] at h; cases h
    exact (hs.discard (some iv) s.cbEnabled).complete _
  | setPassword p salt its len =>
    rw [exec_setPassword_of_ready hready] at h
    split at h <;> cases h
    · exact hs.raise nofun
    · exact (hs.markDirty_discard (some _) s.keyLenParam).complete _
  | setKeyLength klen =>
    rw [exec_setKeyLength_of_ready hready] at h; cases h
    exact (hs.markDirty_discard s.keyReg klen).complete _
  | setBlockLength blen =>
    rw [exec_setBlockLength_of_ready hready] at h
    split at h <;> cases h
    · exact (hs.setBlockLen blen ‹_›).complete _
    · exact hs.complete _
  | enableCb => rw [exec_enableCb_of_ready hready] at h; cases h; exact hs.enableCb.complete _
  | disableCb => rw [exec_disableCb_of_ready hready] at h; cases h; exact (hs.discard s.ivReg false).complete _
  | enablePad =>
    rw [exec_enablePad_of_ready hready] at h; cases h
    exact (hs.of_unread s.configured true s.pc s.inbox s.response).complete _
  | disablePad =>
    rw [exec_disablePad_of_ready hready] at h; cases h
    exact (hs.of_unread s.configured false s.pc s.inbox s.response).complete _
  | encrypt text => exact cryptInstr_keeps_inv (d := .enc) hs hready h
  | decrypt text => exact cryptInstr_keeps_inv (d := .dec) hs hready h

/-- The answer of a standing fault keeps the invariant. -/
theorem State.Inv.answer {s : State} (h : s.Inv) (st : Status) : (s.answer st).Inv :=
  h.of_unread s.configured s.padEnabled s.pc s.inbox (some st)

theorem configure_keeps_inv {alg mode : BitVec 4} {klen blen : BitVec 8} {s t : State} (hs : s.Inv) (hf : s.fault = none)
    (h : exec (.configure alg mode klen blen) s = .next t) : t.Inv := by
  cases hc : configuration alg mode with
  | some am =>
    rw [exec_configure_of_some klen blen hf hc] at h; cases h
    exact (State.createContext_inv klen blen hf (tcbcAlgorithm_of_configuration hc)).complete _
  | none =>
    rw [exec_configure_of_none klen blen hf hc] at h; cases h
    exact (hs.of_unread false s.padEnabled s.pc s.inbox s.response).complete _

/-- Every command keeps the invariant. -/
theorem exec_keeps_inv {i : Instr} {s t : State} (hs : s.Inv) (hf : s.fault = none) (h : exec i s = .next t) : t.Inv := by
  by_cases hi : i.opcode = .configure
  · cases i with
    | configure alg mode klen blen => exact configure_keeps_inv hs hf h
    | setKey _ | setIv _ | setPassword _ _ _ _ | setKeyLength _ | setBlockLength _ | enableCb | disableCb | enablePad | disablePad
    | encrypt _ | decrypt _ => cases hi
  · cases hc : s.configured with
    | true => exact exec_ready_keeps_inv hi hs (State.isReady_iff.mpr ⟨hf, hc⟩) h
    | false =>
      obtain ⟨body, hbody⟩ := exec_eq_whenConfigured hi
      rw [hbody, whenConfigured_of_not_configured hf hc] at h
      cases h
      exact hs.raise nofun

theorem runCommand_keeps_inv {c : Command} {s t : State} (hs : s.Inv) (h : runCommand c s = .next t) : t.Inv := by
  cases hf : s.fault with
  | some r => rw [runCommand_of_fault c hf] at h; cases h; exact hs.answer _
  | none =>
    cases hc : decode c with
    | ok i => rw [runCommand_of_ok hf hc] at h; exact exec_keeps_inv hs hf h
    | error e => rw [runCommand_of_error hf hc] at h; cases h; exact hs.raise nofun

/-- Settles O55: by the host's event, and for a command by its constructor. -/
theorem stepKeepsTheInvariant : Obligations.StepKeepsTheInvariant := by
  intro s t hs h
  match hinbox : s.inbox with
  | [] => rw [step_idle hinbox] at h; cases h; exact hs
  | .command c :: rest =>
    rw [step_command hinbox] at h
    exact runCommand_keeps_inv (hs.of_unread s.configured s.padEnabled s.pc rest s.response) h
  | .overlapping c :: rest => rw [step_overlapping hinbox] at h; cases h
  | .powerUp :: rest =>
    rw [step_powerUp hinbox] at h; cases h
    exact State.reset_inv.of_unread false false 0 rest none

/-! ### Sequences of commands -/

theorem run_succ_of_step {M : Host.Core} {s t : M.State} (k : Nat) (h : M.step s = .next t) : M.run (k + 1) s = M.run k t := by
  rw [Host.Core.run, h]

/-- Where the host has issued a command and no fault stands, the run goes on from what the command leaves. -/
theorem run_command {s t : State} {i : Instr} {rest : List HostEvent} (k : Nat) (hwf : i.wf = true)
    (hinbox : s.inbox = .command (encode i) :: rest) (hf : s.fault = none) (h : exec i { s with inbox := rest } = .next t) :
    core.run (k + 1) s = core.run k t :=
  run_succ_of_step (M := core) k ((stepRunsTheDecodedCommand s _ rest i hinbox hf (decodeInvertsEncode i hwf)).trans h)

/-- Settles O58: DISABLE_CB discards both records, and ENABLE_CB sets the flag again. -/
theorem resyncDiscardsBothDirections : Obligations.ResyncDiscardsBothDirections := by
  intro s hready hinbox
  have hf := (State.isReady_iff.mp hready).1
  exact (run_command (i := .disableCb) 1 rfl hinbox hf (exec_disableCb_of_ready hready)).trans
    (run_command (i := .enableCb) 0 rfl rfl hf (exec_enableCb_of_ready hready))

/-- After CONFIGURE, SET_KEY and SET_IV no fault is due for an ENCRYPT (60_exceptions.md R367). -/
theorem cryptFault_none_of_ready {s : State} {key iv text : Bytes} (hk : s.keyReg = some key) (hiv : s.ivReg = some iv)
    (hp : s.padEnabled = true) (hrc4 : s.alg = .rc4 → key ≠ []) : cryptFault .enc s text = none := by
  have hempty : ¬(s.alg = .rc4 ∧ key = []) := fun h => hrc4 h.1 h.2
  simp [cryptFault, hk, hiv, hp, hempty]

/-- The context after CONFIGURE, SET_KEY and SET_IV, the events `rest` still to come. -/
def State.booted (a : Algorithm) (m : Mode) (klen blen : BitVec 8) (key iv : Bytes) (rest : List HostEvent) (s : State) : State :=
  { s.createContext a m klen blen with
    keyReg := some key, ivReg := some iv, pc := s.pc + 3, inbox := rest, response := some (.ok []) }

theorem State.booted_inv {s : State} {a : Algorithm} {m : Mode} (klen blen : BitVec 8) (key iv : Bytes) (rest : List HostEvent)
    (hf : s.fault = none) (htc : m = .tcbc → a = .tripleDes) : (s.booted a m klen blen key iv rest).Inv :=
  have h := State.createContext_inv klen blen hf htc
  .of_dirty h.blockLenLegal h.blockLenFixed h.tcbcAlgorithm rfl rfl rfl h.assertion

/-- The three commands of the boot order one after another (70_reset_and_hazards.md R393). -/
theorem run_booted {s : State} {a : Algorithm} {m : Mode} {klen blen : BitVec 8} {key iv : Bytes} {rest : List HostEvent}
    (k : Nat) (hf : s.fault = none) (htc : m = .tcbc → a = .tripleDes)
    (hinbox : s.inbox = .command (encode (.configure (algorithmCode a) (modeCode m) klen blen)) ::
      .command (encode (.setKey key)) :: .command (encode (.setIv iv)) :: rest) :
    core.run (k + 3) s = core.run k (s.booted a m klen blen key iv rest) := by
  have hready {u : State} (hu : u.fault = none) (hc : u.configured = true) : u.isReady = true := State.isReady_iff.mpr ⟨hu, hc⟩
  refine (run_command (k + 2) rfl hinbox hf (exec_configure_of_some klen blen hf (configuration_codes htc))).trans ?_
  refine (run_command (k + 1) rfl rfl ?_ (exec_setKey_of_ready (hready ?_ rfl) key)).trans ?_
  · exact hf
  · exact hf
  refine (run_command k rfl rfl ?_ (exec_setIv_of_ready (hready ?_ rfl) iv)).trans rfl <;> exact hf

/-- Settles O57: the booted context meets the invariant, and no fault is due for the ENCRYPT. -/
theorem bootSequenceEncrypts : Obligations.BootSequenceEncrypts := by
  intro s a m klen blen key iv text hf htc hrc4 hinbox
  have hready : (s.booted a m klen blen key iv []).isReady = true := State.isReady_iff.mpr ⟨hf, rfl⟩
  obtain ⟨out, sched, r, hexec, -⟩ := encryptCompletes _ text key (State.booted_inv klen blen key iv [] hf htc) hready rfl
    (cryptFault_none_of_ready rfl rfl rfl hrc4)
  refine ⟨_, out, (run_booted 1 hf htc hinbox).trans (run_command (i := .encrypt text) 0 rfl rfl hf hexec), rfl, rfl, rfl⟩

end Sys2Proof.Machine
end

section
/-! The block transforms undo each other: DES and TripleDES (40_des.md R154, 41_tripledes.md R172), the layers of Rijndael
(42_rijndael.md R202 to R208) and its rounds (R211). -/

namespace Sys2Proof.Machine

/-! ### DES and TripleDES -/

/-- On a block of 8 bytes the transform with the reversed subkeys undoes the transform. -/
theorem desEncryptBlock_reverse (ks : List DesSubkey) {x : Bytes} (hx : x.length = 8) :
    desEncryptBlock ks.reverse (desEncryptBlock ks x) = x := by
  have hvalue : (BitVec.ofNat 64 (beNat x)).toNat = beNat x := Nat.mod_eq_of_lt (by simpa [hx] using beNat_lt x)
  rw [desEncryptBlock, blockValue_desEncryptBlock, desCrypt64_reverse, hvalue, ← hx, beBytes_beNat]

theorem desDecryptBlock_desEncryptBlock (ks : List DesSubkey) {x : Bytes} (hx : x.length = 8) :
    desDecryptBlock ks (desEncryptBlock ks x) = x := desEncryptBlock_reverse ks hx

theorem desEncryptBlock_desDecryptBlock (ks : List DesSubkey) {x : Bytes} (hx : x.length = 8) :
    desEncryptBlock ks (desDecryptBlock ks x) = x := by
  simpa [desDecryptBlock, desDecryptionSchedule] using desEncryptBlock_reverse ks.reverse hx

theorem tripleDesDecryptBlock_tripleDesEncryptBlock (ks1 ks2 ks3 : List DesSubkey) {x : Bytes} (hx : x.length = 8) :
    tripleDesDecryptBlock ks1 ks2 ks3 (tripleDesEncryptBlock ks1 ks2 ks3 x) = x := by
  rw [tripleDesDecryptBlock, tripleDesEncryptBlock, desDecryptBlock_desEncryptBlock ks3 (desDecryptBlock_length ..),
    desEncryptBlock_desDecryptBlock ks2 (desEncryptBlock_length ..), desDecryptBlock_desEncryptBlock ks1 hx]

/-- Settles O41: the rounds undo each other, and the stages of TripleDES one by one. -/
theorem desAndTripleDesDecryptInvertEncrypt : Obligations.DesAndTripleDesDecryptInvertEncrypt :=
  ⟨fun ks _ hx => ⟨desDecryptBlock_desEncryptBlock ks hx, desEncryptBlock_desDecryptBlock ks hx⟩,
    fun ks1 ks2 ks3 _ hx => tripleDesDecryptBlock_tripleDesEncryptBlock ks1 ks2 ks3 hx⟩

/-! ### MixColumns (42_rijndael.md R203, R208) -/

/-- The product of the two matrices: in the place of its own column a byte comes back, and in the others it cancels. -/
theorem invMix_mix_coefficients : ∀ a : Byte,
    gfMul 0x0e (gfMul 0x02 a) ^^^ gfMul 0x0b a ^^^ gfMul 0x0d a ^^^ gfMul 0x09 (gfMul 0x03 a) = a
    ∧ gfMul 0x0e (gfMul 0x03 a) ^^^ gfMul 0x0b (gfMul 0x02 a) ^^^ gfMul 0x0d a ^^^ gfMul 0x09 a = 0
    ∧ gfMul 0x0e a ^^^ gfMul 0x0b (gfMul 0x03 a) ^^^ gfMul 0x0d (gfMul 0x02 a) ^^^ gfMul 0x09 a = 0
    ∧ gfMul 0x0e a ^^^ gfMul 0x0b a ^^^ gfMul 0x0d (gfMul 0x03 a) ^^^ gfMul 0x09 (gfMul 0x02 a) = 0 := by decide +kernel

/-- Each byte of InvMixColumns of MixColumns, its terms gathered by the byte of the column they come from. -/
theorem invMix_mix_byte (a b c d : Byte) :
    gfMul 0x0e (gfMul 0x02 a ^^^ gfMul 0x03 b ^^^ c ^^^ d) ^^^ gfMul 0x0b (a ^^^ gfMul 0x02 b ^^^ gfMul 0x03 c ^^^ d)
      ^^^ gfMul 0x0d (a ^^^ b ^^^ gfMul 0x02 c ^^^ gfMul 0x03 d) ^^^ gfMul 0x09 (gfMul 0x03 a ^^^ b ^^^ c ^^^ gfMul 0x02 d)
      = a := by
  obtain ⟨ha, -, -, -⟩ := invMix_mix_coefficients a
  obtain ⟨-, hb, -, -⟩ := invMix_mix_coefficients b
  obtain ⟨-, -, hc, -⟩ := invMix_mix_coefficients c
  obtain ⟨-, -, -, hd⟩ := invMix_mix_coefficients d
  calc _ = (gfMul 0x0e (gfMul 0x02 a) ^^^ gfMul 0x0b a ^^^ gfMul 0x0d a ^^^ gfMul 0x09 (gfMul 0x03 a))
      ^^^ (gfMul 0x0e (gfMul 0x03 b) ^^^ gfMul 0x0b (gfMul 0x02 b) ^^^ gfMul 0x0d b ^^^ gfMul 0x09 b)
      ^^^ (gfMul 0x0e c ^^^ gfMul 0x0b (gfMul 0x03 c) ^^^ gfMul 0x0d (gfMul 0x02 c) ^^^ gfMul 0x09 c)
      ^^^ (gfMul 0x0e d ^^^ gfMul 0x0b d ^^^ gfMul 0x0d (gfMul 0x03 d) ^^^ gfMul 0x09 (gfMul 0x02 d)) := by
        simp only [gfMul_xor]; ac_rfl
    _ = a := by rw [ha, hb, hc, hd]; simp

/-- The four rows of the two matrices are rotations of one another. -/
theorem invMixColumn_mixColumn (a : Column) : invMixColumn (mixColumn a) = a := by
  obtain ⟨b0, b1, b2, b3⟩ := a
  rw [invMixColumn, mixColumn, Column.mk.injEq]
  refine ⟨Eq.trans ?_ (invMix_mix_byte b0 b1 b2 b3), Eq.trans ?_ (invMix_mix_byte b1 b2 b3 b0),
    Eq.trans ?_ (invMix_mix_byte b2 b3 b0 b1), Eq.trans ?_ (invMix_mix_byte b3 b0 b1 b2)⟩ <;> ac_rfl

/-- On the finitely many columns a left inverse is a right inverse as well. -/
theorem mixColumn_invMixColumn (a : Column) : mixColumn (invMixColumn a) = a := by
  have hfinite : Finite Column :=
    Finite.of_injective (fun a : Column => (a.b0, a.b1, a.b2, a.b3)) fun a b h => by cases a; cases b; simpa using h
  have hinj : Function.Injective mixColumn := Function.LeftInverse.injective invMixColumn_mixColumn
  exact Function.LeftInverse.rightInverse_of_surjective invMixColumn_mixColumn (Finite.surjective_of_injective hinj) a

/-! ### ShiftRows (42_rijndael.md R202, R207) -/

/-- Going back by a row's offset undoes going on by it, modulo the number of columns. -/
theorem shift_back {nb c k : Nat} (hc : c < nb) (hk : k ≤ nb) : ((c + nb - k) % nb + k) % nb = c := by
  rw [Nat.mod_add_mod, Nat.sub_add_cancel (by omega), Nat.add_mod_right, Nat.mod_eq_of_lt hc]

theorem shiftOffset_le {nb : Nat} (h : 4 ≤ nb) (r : Nat) : shiftOffset nb r ≤ nb := by
  unfold shiftOffset
  split <;> (try split) <;> omega

/-- Column `c` of a shifted state. -/
theorem columnAt_shiftRows {nb : Nat} (hnb : 0 < nb) (s : List Column) (c : Nat) :
    columnAt nb (shiftRows nb s) c
      = ⟨(columnAt nb s (c % nb)).b0, (columnAt nb s (c % nb + shiftOffset nb 1)).b1,
         (columnAt nb s (c % nb + shiftOffset nb 2)).b2, (columnAt nb s (c % nb + shiftOffset nb 3)).b3⟩ := by
  have hc := Nat.mod_lt c hnb
  simp [columnAt, shiftRows, hc]

theorem invShiftRows_shiftRows {nb : Nat} {s : List Column} (hnb : 4 ≤ nb) (hs : s.length = nb) :
    invShiftRows nb (shiftRows nb s) = s := by
  refine List.ext_getElem (by simp [hs]) fun c hc hcs => ?_
  have hlt : c < nb := hs ▸ hcs
  have hback (r : Nat) : ((c + nb - shiftOffset nb r) % nb + shiftOffset nb r) % nb = c := shift_back hlt (shiftOffset_le hnb r)
  simp only [invShiftRows, List.getElem_map, List.getElem_range, columnAt_shiftRows (show 0 < nb by omega)]
  simp only [columnAt, hback, Nat.mod_eq_of_lt hlt, List.getD_eq_getElem _ _ hcs]

/-- Settles O45: the matrices of the two mixing layers are inverse, and the offsets of the two shifts cancel. -/
theorem inverseLayersUndoTheirLayers : Obligations.InverseLayersUndoTheirLayers := by
  refine ⟨fun a => ⟨invMixColumn_mixColumn a, mixColumn_invMixColumn a⟩, fun nb s hnb hs => invShiftRows_shiftRows ?_ hs⟩
  simp only [List.mem_cons, List.not_mem_nil, or_false] at hnb
  omega

/-! ### Rounds (42_rijndael.md R205, R211) -/

theorem invSubBytes_subBytes (s : List Column) : invSubBytes (subBytes s) = s := by
  have hbyte (a : Column) : mapColumn invSbox (mapColumn sbox a) = a := by simp only [mapColumn, invSbox_sbox]
  simp only [invSubBytes, subBytes, List.map_map]
  exact (List.map_congr_left fun a _ => hbyte a).trans (List.map_id s)

theorem map_invMixColumn_map_mixColumn (s : List Column) : (s.map mixColumn).map invMixColumn = s := by
  rw [List.map_map]
  exact (List.map_congr_left fun a _ => invMixColumn_mixColumn a).trans (List.map_id s)

theorem xorColumn_cancel (a b : Column) : xorColumn (xorColumn a b) b = a := by
  simp [xorColumn]

/-- A whole round key added twice cancels. -/
theorem addRoundKey_addRoundKey {nb nr r : Nat} {w s : List Column} (hw : w.length = nb * (nr + 1)) (hr : r ≤ nr)
    (hs : s.length = nb) : addRoundKey nb w r (addRoundKey nb w r s) = s := by
  have hlen := addRoundKey_length hw hr hs
  refine List.ext_getElem ((addRoundKey_length hw hr hlen).trans hs.symm) fun c _ _ => ?_
  simp only [addRoundKey, List.getElem_zipWith, xorColumn_cancel]

section
variable {nb nr : Nat} {w : List Column} (hw : w.length = nb * (nr + 1))
include hw

/-- The state before round `n + 1` of the encryption. -/
theorem rounds_length {s : List Column} {n : Nat} (hn : n < nr) (hs : s.length = nb) :
    ((List.range' 1 n).foldl (encryptRound nb w) s).length = nb := by
  refine foldl_rounds_length _ _ s (fun q r _ hr => addRoundKey_length hw hr (by simp)) (fun r hr => ?_) hs
  have := List.mem_range'_1.mp hr
  omega

variable (hnb : 4 ≤ nb)
include hnb

/-- From the shifted and substituted state after `n` rounds, the straightforward inverse cipher takes the rounds back. -/
theorem straightInverseRounds_foldl {s : List Column} {n : Nat} (hn : n < nr) (hs : s.length = nb) :
    straightInverseRounds nb w
        (shiftRows nb (subBytes ((List.range' 1 n).foldl (encryptRound nb w) (addRoundKey nb w 0 s)))) (n + 1) = s := by
  have hlen := addRoundKey_length hw (Nat.zero_le nr) hs
  induction n with
  | zero =>
    rw [straightInverseRounds, invShiftRows_shiftRows hnb (by simpa using hlen), invSubBytes_subBytes]
    exact addRoundKey_addRoundKey hw (Nat.zero_le nr) hs
  | succ n ih =>
    have hround := rounds_length hw hn hlen
    have hbefore := rounds_length hw (Nat.lt_of_succ_lt hn) hlen
    rw [straightInverseRounds, invShiftRows_shiftRows hnb (by simpa using hround), invSubBytes_subBytes,
      List.range'_1_concat, List.foldl_append, Nat.add_comm 1 n, List.foldl_cons, List.foldl_nil, encryptRound,
      addRoundKey_addRoundKey hw (Nat.le_of_lt hn) (by simp), map_invMixColumn_map_mixColumn, ih (Nat.lt_of_succ_lt hn)]

/-- The straightforward inverse cipher undoes the cipher, for every schedule of Nr + 1 round keys. -/
theorem straightInverseBlock_rijndaelEncryptBlock {x : Bytes} (hnr : 0 < nr) (hx : x.length = 4 * nb) :
    straightInverseBlock nb nr w (rijndaelEncryptBlock nb nr w x) = x := by
  have hload : (loadColumns x).length = nb := by rw [loadColumns_length]; omega
  have hrounds := straightInverseRounds_foldl hw hnb (Nat.sub_lt hnr Nat.one_pos) hload
  rw [Nat.sub_add_cancel hnr] at hrounds
  rw [straightInverseBlock, rijndaelEncryptBlock, loadColumns_storeColumns, addRoundKey_addRoundKey hw (Nat.le_refl nr) (by simp),
    hrounds, storeColumns_loadColumns x (by omega)]

end

/-- Rijndael decryption undoes encryption with every schedule of the right length. -/
theorem rijndaelDecryptBlock_rijndaelEncryptBlock {nb nr : Nat} {w : List Column} {x : Bytes} (hnb : nb ∈ [4, 5, 6, 7, 8])
    (hnr : 0 < nr) (hw : w.length = nb * (nr + 1)) (hx : x.length = 4 * nb) :
    rijndaelDecryptBlock nb nr (rijndaelDecryptionSchedule nb nr w) (rijndaelEncryptBlock nb nr w x) = x := by
  have h4 : 4 ≤ nb := by simp only [List.mem_cons, List.not_mem_nil, or_false] at hnb; omega
  rw [equivalentInverseCipherAgrees nb nr w _ hnb hnr hw (rijndaelEncryptBlock_length hw hx),
    straightInverseBlock_rijndaelEncryptBlock hw h4 hnr hx]

/-- Settles O48: the equivalent inverse cipher agrees with the straightforward one, which takes the rounds back one by one. -/
theorem rijndaelDecryptInvertsEncrypt : Obligations.RijndaelDecryptInvertsEncrypt := by
  intro nb nk key x hnb hnk hkey hx
  have h4 : 4 ≤ nb := by simp only [List.mem_cons, List.not_mem_nil, or_false] at hnb; omega
  have hdiv : key.length / 4 = nk := by omega
  exact rijndaelDecryptBlock_rijndaelEncryptBlock hnb (Nat.succ_pos _) (hdiv ▸ rijndaelExpandKey_length h4) hx

end Sys2Proof.Machine
end

section
/-! A text through a mode, by index: the record before element `n`, and output `n` from it (20_memory.md R72). -/

namespace Sys2Proof.Machine

section
variable {α β : Type} (f : DirRecord → α → β × DirRecord) (r : DirRecord) (l : List α)

/-- The record before element `n` of a text. -/
def recordAt (n : Nat) : DirRecord := (runThrough f r (l.take n)).2

@[simp] theorem recordAt_zero : recordAt f r l 0 = r := rfl

theorem recordAt_succ {n : Nat} (h : n < l.length) : recordAt f r l (n + 1) = (f (recordAt f r l n) l[n]).2 := by
  rw [recordAt, List.take_add_one, List.getElem?_eq_getElem h, runThrough_append]
  rfl

/-- After the last element the record is the one the run leaves. -/
theorem recordAt_length : recordAt f r l l.length = (runThrough f r l).2 := by rw [recordAt, List.take_length]

/-- Output `n` comes from the record before element `n`. -/
theorem runThrough_getElem? {n : Nat} (h : n < l.length) : (runThrough f r l).1[n]? = some (f (recordAt f r l n) l[n]).1 := by
  have hsplit : runThrough f r l = runThrough f r (l.take n ++ (l[n] :: l.drop (n + 1))) := by
    rw [List.getElem_cons_drop, List.take_append_drop]
  have hlen : (runThrough f r (l.take n)).1.length = n := by rw [runThrough_length, List.length_take]; omega
  rw [hsplit, runThrough_append, List.getElem?_append_right (by omega), hlen, Nat.sub_self]
  rfl

end

/-- Output byte `n` of a stream. -/
theorem runThrough_getD (f : DirRecord → Byte → Byte × DirRecord) (r : DirRecord) (l : Bytes) {n : Nat} (h : n < l.length) :
    (runThrough f r l).1.getD n 0 = (f (recordAt f r l n) (l.getD n 0)).1 := by
  rw [List.getD_eq_getElem?_getD, runThrough_getElem? f r l h, List.getD_eq_getElem _ _ h]
  rfl

/-- The record after byte `n` of a stream. -/
theorem recordAt_succ_getD (f : DirRecord → Byte → Byte × DirRecord) (r : DirRecord) (l : Bytes) {n : Nat} (h : n < l.length) :
    recordAt f r l (n + 1) = (f (recordAt f r l n) (l.getD n 0)).2 := by
  rw [recordAt_succ f r l h, List.getD_eq_getElem _ _ h]

/-- What every element keeps holds before each of them. -/
theorem recordAt_keeps {α β : Type} {f : DirRecord → α → β × DirRecord} {p : DirRecord → Prop} (hf : ∀ q a, p q → p (f q a).2)
    {r : DirRecord} (hr : p r) (l : List α) (n : Nat) : p (recordAt f r l n) :=
  runThrough_keeps f p (fun _ => True) (fun q a hq _ => hf q a hq) r _ hr (fun _ _ => trivial)

end Sys2Proof.Machine
end

section
/-! RC4 (43_rc4.md R240 to R247): the key schedule as a sequence of swaps, the tables as permutations, and the generator. -/

namespace Sys2Proof.Machine

/-! ### The key schedule (43_rc4.md R241, R242) -/

/-- `j` and `S` before index `i` of the swap loop. -/
def ksaAt (key : Bytes) : Nat → Byte × Bytes
  | 0 => (0, permIdentity)
  | i + 1 =>
    let j := (ksaAt key i).1 + permAt (ksaAt key i).2 (BitVec.ofNat 8 i) + key.getD (i % key.length) 0
    (j, permSwap (ksaAt key i).2 (BitVec.ofNat 8 i) j)

theorem ksaAt_length (key : Bytes) (i : Nat) : (ksaAt key i).2.length = 256 := by
  induction i with
  | zero => exact permIdentity_length
  | succ i ih => rw [ksaAt, permSwap_length, ih]

/-- The loop over the next `n` indices goes on to the sequence's state after them. -/
theorem ksaLoop_ksaAt (key : Bytes) (i n : Nat) :
    ksaLoop key (List.range' i n) (ksaAt key i).1 (ksaAt key i).2 = (ksaAt key (i + n)).2 := by
  induction n generalizing i with
  | zero => rfl
  | succ n ih =>
    rw [List.range'_succ, ksaLoop, ← Nat.add_assoc, Nat.add_right_comm]
    exact ih (i + 1)

theorem rc4Ksa_eq_ksaAt (key : Bytes) : rc4Ksa key = (ksaAt key 256).2 := by
  rw [rc4Ksa, List.range_eq_range', ← Nat.zero_add 256]
  exact ksaLoop_ksaAt key 0 256

theorem permIdentity_getD (n : Byte) : permIdentity.getD n.toNat 0 = n := by
  have hn : n.toNat < 256 := n.isLt
  simp [permIdentity, List.getD_eq_getElem?_getD, List.getElem?_range hn]

/-- Settles O59: the sequences are the states of the swap loop. -/
theorem rc4KeyScheduleSwaps : Obligations.Rc4KeyScheduleSwaps := by
  intro key _
  refine ⟨fun i => (ksaAt key i).2, fun i => (ksaAt key i).1, ksaAt_length key 0, permIdentity_getD, rfl, fun i hi => ⟨?_, ?_⟩,
    rc4Ksa_eq_ksaAt key⟩
  · have hindex : (BitVec.ofNat 8 i).toNat = i := Nat.mod_eq_of_lt hi
    simp only [ksaAt, permAt, hindex]
  · exact permSwap_swappedAt _ _ _ (ksaAt_length key i)

/-- The loop reads the key at its indices alone. -/
theorem ksaLoop_congr {key key' : Bytes} {l : List Nat}
    (h : ∀ i ∈ l, key.getD (i % key.length) 0 = key'.getD (i % key'.length) 0) (j : Byte) (S : Bytes) :
    ksaLoop key l j S = ksaLoop key' l j S := by
  induction l generalizing j S with
  | nil => rfl
  | cons i l ih =>
    rw [ksaLoop, ksaLoop, h i (List.mem_cons_self ..)]
    exact ih (fun k hk => h k (List.mem_cons_of_mem _ hk)) _ _

/-- Settles O51: the 256 indices of the loop are indices of the key, and of its first 256 bytes. -/
theorem rc4ReadsTheFirst256KeyBytes : Obligations.Rc4ReadsTheFirst256KeyBytes := by
  intro key hlen
  refine ksaLoop_congr (fun i hi => ?_) 0 permIdentity
  have hi256 : i < 256 := List.mem_range.mp hi
  have htake : (key.take 256).length = 256 := by rw [List.length_take]; omega
  rw [htake, Nat.mod_eq_of_lt hi256, Nat.mod_eq_of_lt (by omega), List.getD_eq_getElem?_getD, List.getD_eq_getElem?_getD,
    List.getElem?_take_of_lt hi256]

/-! ### Tables are permutations -/

theorem ksaLoop_perm (key : Bytes) (l : List Nat) (j : Byte) {S : Bytes} (h : S.length = 256) : (ksaLoop key l j S).Perm S := by
  induction l generalizing j S with
  | nil => exact .refl S
  | cons i l ih => exact (ih _ ((permSwap_length ..).trans h)).trans (permSwap_perm S _ _ h)

theorem rc4Ksa_perm (key : Bytes) : (rc4Ksa key).Perm permIdentity := by
  rw [rc4Ksa]; exact ksaLoop_perm key _ _ permIdentity_length

/-- One byte of the generator keeps a permutation. -/
theorem rc4Step_perm (r : DirRecord) (b : Byte) (h : r.s.Perm permIdentity) : (rc4Step r b).2.s.Perm permIdentity :=
  (permSwap_perm r.s _ _ (h.length_eq.trans permIdentity_length)).trans h

/-- A derived RC4 schedule is the permutation of the key. -/
theorem deriveSchedule_rc4 {alg : Algorithm} {bs : Nat} {klen : BitVec 8} {key s0 : Bytes}
    (h : deriveSchedule alg bs klen key = .ok (.rc4 s0)) : s0 = rc4Ksa key := by
  cases alg with
  | rc4 =>
    rw [deriveSchedule] at h
    split at h
    · cases h
    · exact (Schedule.rc4.inj (Except.ok.inj h)).symm
  | des | tripleDes | rijndael | aes => cases h

/-- A schedule of an RC4 context is a table. -/
theorem exists_rc4_of_fits {bs : Nat} {sched : Schedule} (h : sched.fits .rc4 bs = true) : ∃ s0, sched = .rc4 s0 := by
  cases sched with
  | rc4 s0 => exact ⟨s0, rfl⟩
  | des _ | tripleDes _ _ _ | rijndael _ _ _ _ _ => simp [Schedule.fits] at h

/-- The mode function of an RC4 context is the generator (43_rc4.md R240). -/
theorem cryptText_rc4 (d : Direction) (text s0 : Bytes) (s : State) (r : DirRecord) :
    cryptText d text s (.rc4 s0) r = cryptStream rc4Step r text := by
  cases d <;> rfl

/-- The record an RC4 call runs on: the key's permutation with its indices at 0, or the valid record (43_rc4.md R244). -/
theorem prepared_dir_rc4 {s : State} (d : Direction) (s0 : Bytes) (ha : s.alg = .rc4) :
    (s.prepared d (.rc4 s0)).dir d
      = if s.startsFresh d then { s.dir d with valid := true, s := s0, i := 0, j := 0 } else s.dir d := by
  rw [State.prepared, State.dir_setDir, State.startRecord]
  cases d <;> simp only [initialRecord, ha] <;> rfl

/-- The tables a step can leave as they were: no new schedule, and no valid record but those of before. -/
def KeepsTables (s t : State) : Prop :=
  (∀ s0, t.sched = some (.rc4 s0) → s.sched = some (.rc4 s0))
    ∧ (t.enc.valid = true → t.alg = s.alg ∧ t.enc = s.enc) ∧ (t.dec.valid = true → t.alg = s.alg ∧ t.dec = s.dec)

theorem KeepsTables.permutations {s t : State} (h : KeepsTables s t) (hs : s.Rc4Permutations) : t.Rc4Permutations := by
  obtain ⟨hsched, henc, hdec⟩ := h
  refine ⟨fun s0 h0 => hs.schedule s0 (hsched s0 h0), fun ha hv => ?_, fun ha hv => ?_⟩
  · obtain ⟨halg, heq⟩ := henc hv
    rw [heq] at hv ⊢
    exact hs.enc (halg ▸ ha) hv
  · obtain ⟨halg, heq⟩ := hdec hv
    rw [heq] at hv ⊢
    exact hs.dec (halg ▸ ha) hv

/-- Neither the schedule nor a record is written. -/
theorem keepsTables_of_eq {s t : State} (hsched : t.sched = s.sched) (ha : t.alg = s.alg) (he : t.enc = s.enc)
    (hd : t.dec = s.dec) : KeepsTables s t :=
  ⟨fun _ h => hsched ▸ h, fun _ => ⟨ha, he⟩, fun _ => ⟨ha, hd⟩⟩

/-- Both records are discarded, and the schedule stands or is taken away. -/
theorem keepsTables_of_discarded {s t : State} (hsched : t.sched = s.sched ∨ t.sched = none) (he : t.enc.valid = false)
    (hd : t.dec.valid = false) : KeepsTables s t := by
  refine ⟨fun s0 h => ?_, fun hv => absurd hv (by simp [he]), fun hv => absurd hv (by simp [hd])⟩
  rcases hsched with hs | hs
  · exact hs ▸ h
  · rw [hs] at h; cases h

/-- A call of direction `d` has run its mode function to an answer and left `t`. -/
def CallRan (s t : State) : Prop :=
  ∃ d sched text out r, s.Runs d sched ∧ cryptText d text s sched ((s.prepared d sched).dir d) = .ok (out, r)
    ∧ t = s.afterCall d sched out r

theorem cryptInstr_tables {d : Direction} {text : Bytes} {s t : State} (hready : s.isReady = true)
    (h : exec (cryptInstr d text) s = .next t) : KeepsTables s t ∨ CallRan s t := by
  rw [exec_cryptInstr, whenConfigured_of_ready hready] at h
  rcases crypt_next h with ⟨st, s', hcourse, rfl⟩ | ⟨e, -, rfl⟩
  · obtain ⟨sched, out, r, hruns, ht, rfl, rfl⟩ := runs_of_cryptCourse hcourse
    rw [cryptText_reads d text sched _ (State.prepared_mode ..) (State.prepared_padEnabled ..) (State.prepared_bs ..)] at ht
    exact .inr ⟨d, sched, text, out, r, hruns, ht, State.complete_callEpilogue_prepared ..⟩
  · exact .inl (keepsTables_of_eq rfl rfl rfl rfl)

/-- What a command on a ready engine does to the tables: it leaves them, or a call has run. -/
theorem exec_ready_tables {i : Instr} {s t : State} (hi : i.opcode ≠ .configure) (hready : s.isReady = true)
    (h : exec i s = .next t) : KeepsTables s t ∨ CallRan s t := by
  cases i with
  | configure _ _ _ _ => exact absurd rfl hi
  | setKey key => rw [exec_setKey_of_ready hready] at h; cases h; exact .inl (keepsTables_of_discarded (.inl rfl) rfl rfl)
  | setIv iv => rw [exec_setIv_of_ready hready] at h; cases h; exact .inl (keepsTables_of_discarded (.inl rfl) rfl rfl)
  | setPassword p salt its len =>
    rw [exec_setPassword_of_ready hready] at h
    split at h <;> cases h
    · exact .inl (keepsTables_of_eq rfl rfl rfl rfl)
    · exact .inl (keepsTables_of_discarded (.inl rfl) rfl rfl)
  | setKeyLength klen =>
    rw [exec_setKeyLength_of_ready hready] at h; cases h; exact .inl (keepsTables_of_discarded (.inl rfl) rfl rfl)
  | setBlockLength blen =>
    rw [exec_setBlockLength_of_ready hready] at h
    split at h <;> cases h
    · exact .inl (keepsTables_of_discarded (.inl rfl) rfl rfl)
    · exact .inl (keepsTables_of_eq rfl rfl rfl rfl)
  | enableCb => rw [exec_enableCb_of_ready hready] at h; cases h; exact .inl (keepsTables_of_eq rfl rfl rfl rfl)
  | disableCb => rw [exec_disableCb_of_ready hready] at h; cases h; exact .inl (keepsTables_of_discarded (.inl rfl) rfl rfl)
  | enablePad => rw [exec_enablePad_of_ready hready] at h; cases h; exact .inl (keepsTables_of_eq rfl rfl rfl rfl)
  | disablePad => rw [exec_disablePad_of_ready hready] at h; cases h; exact .inl (keepsTables_of_eq rfl rfl rfl rfl)
  | encrypt text => exact cryptInstr_tables (d := .enc) hready h
  | decrypt text => exact cryptInstr_tables (d := .dec) hready h

theorem configure_keepsTables {alg mode : BitVec 4} {klen blen : BitVec 8} {s t : State} (hf : s.fault = none)
    (h : exec (.configure alg mode klen blen) s = .next t) : KeepsTables s t := by
  cases hc : configuration alg mode with
  | some am =>
    rw [exec_configure_of_some klen blen hf hc] at h; cases h
    exact keepsTables_of_discarded (.inr rfl) rfl rfl
  | none =>
    rw [exec_configure_of_none klen blen hf hc] at h; cases h
    exact keepsTables_of_eq rfl rfl rfl rfl

/-- What a command does to the tables, legal or not. -/
theorem runCommand_tables {c : Command} {s t : State} (h : runCommand c s = .next t) : KeepsTables s t ∨ CallRan s t := by
  cases hf : s.fault with
  | some r => rw [runCommand_of_fault c hf] at h; cases h; exact .inl (keepsTables_of_eq rfl rfl rfl rfl)
  | none =>
    cases hdec : decode c with
    | error e => rw [runCommand_of_error hf hdec] at h; cases h; exact .inl (keepsTables_of_eq rfl rfl rfl rfl)
    | ok i =>
      rw [runCommand_of_ok hf hdec] at h
      by_cases hi : i.opcode = .configure
      · cases i with
        | configure alg mode klen blen => exact .inl (configure_keepsTables hf h)
        | setKey _ | setIv _ | setPassword _ _ _ _ | setKeyLength _ | setBlockLength _ | enableCb | disableCb | enablePad
        | disablePad | encrypt _ | decrypt _ => cases hi
      · cases hc : s.configured with
        | true => exact exec_ready_tables hi (State.isReady_iff.mpr ⟨hf, hc⟩) h
        | false =>
          obtain ⟨body, hbody⟩ := exec_eq_whenConfigured hi
          rw [hbody, whenConfigured_of_not_configured hf hc] at h
          cases h
          exact .inl (keepsTables_of_eq rfl rfl rfl rfl)

/-- A completed call leaves permutations: the derived one, and the generator's swaps of the starting record. -/
theorem State.Rc4Permutations.afterCall {d : Direction} {s : State} {sched : Schedule} {text : Bytes} {out : Option Bytes}
    {r : DirRecord} (hs : s.Rc4Permutations) (h : s.Runs d sched)
    (ht : cryptText d text s sched ((s.prepared d sched).dir d) = .ok (out, r)) : (s.afterCall d sched out r).Rc4Permutations := by
  have hschedule {s0 : Bytes} (h0 : sched = .rc4 s0) : s0.Perm permIdentity := by
    obtain ⟨key, -, hsched⟩ := h.schedule
    subst h0
    split at hsched
    · rw [deriveSchedule_rc4 hsched]; exact rc4Ksa_perm key
    · exact hs.schedule s0 hsched
  have hother (ha : s.alg = .rc4) (d' : Direction) (hv : (s.dir d').valid = true) : (s.dir d').s.Perm permIdentity := by
    cases d'
    · exact hs.enc ha hv
    · exact hs.dec ha hv
  have hdir (ha : s.alg = .rc4) : r.s.Perm permIdentity := by
    obtain ⟨s0, rfl⟩ := exists_rc4_of_fits (ha ▸ h.schedFits)
    rw [cryptText_rc4] at ht
    cases ht
    refine runThrough_keeps rc4Step (fun q => q.s.Perm permIdentity) (fun _ => True) (fun q b hq _ => rc4Step_perm q b hq) _ _ ?_
      (fun _ _ => trivial)
    rw [prepared_dir_rc4 d s0 ha]
    split
    · exact hschedule rfl
    · exact hother ha d (State.not_startsFresh_iff.mp ‹_›).2
  have hleft (ha : s.alg = .rc4) : ((s.afterCall d sched out r).dir d).s.Perm permIdentity := by
    rw [State.afterCall_dir]
    split <;> exact hdir ha
  refine ⟨fun s0 h0 => hschedule (Option.some.inj ((State.afterCall_sched d sched out r s).symm.trans h0)), fun ha hv => ?_,
    fun ha hv => ?_⟩
  · rw [State.afterCall_alg] at ha
    cases d
    · exact hleft ha
    · exact hother ha .enc hv
  · rw [State.afterCall_alg] at ha
    cases d
    · exact hother ha .dec hv
    · exact hleft ha

theorem runCommand_keeps_permutations {c : Command} {s t : State} (hs : s.Rc4Permutations) (h : runCommand c s = .next t) :
    t.Rc4Permutations := by
  rcases runCommand_tables h with hkeep | ⟨d, sched, text, out, r, hruns, ht, rfl⟩
  · exact hkeep.permutations hs
  · exact hs.afterCall hruns ht

/-- Settles O52: a command leaves the tables or runs the generator, and power-up leaves none. -/
theorem rc4TablesStayPermutations : Obligations.Rc4TablesStayPermutations := by
  refine ⟨rc4Ksa_perm, fun s t hs h => ?_⟩
  match hinbox : s.inbox with
  | [] => rw [step_idle hinbox] at h; cases h; exact hs
  | .command c :: rest =>
    rw [step_command hinbox] at h
    exact runCommand_keeps_permutations (s := { s with inbox := rest }) ⟨hs.schedule, hs.enc, hs.dec⟩ h
  | .overlapping c :: rest => rw [step_overlapping hinbox] at h; cases h
  | .powerUp :: rest =>
    rw [step_powerUp hinbox] at h; cases h
    exact (keepsTables_of_discarded (s := s) (.inr rfl) rfl rfl).permutations hs

/-! ### The generator (43_rc4.md R245) -/

/-- No fault is due in an RC4 context with a key of at least one byte (43_rc4.md R243, R247). -/
theorem cryptFault_rc4 {s : State} {key : Bytes} (d : Direction) (text : Bytes) (ha : s.alg = .rc4) (hk : s.keyReg = some key)
    (hne : key ≠ []) : cryptFault d s text = none := by
  simp [cryptFault, ha, hk, hne]

/-- Settles O50: the sequences are the fields of the record before each byte. -/
theorem rc4RunsTheGenerator : Obligations.Rc4RunsTheGenerator := by
  intro d s text key hs hready ha hk hne
  obtain ⟨sched, hder, hruns, -⟩ := of_cryptFault_none hs hk (cryptFault_rc4 d text ha hk hne)
  obtain ⟨s0, rfl⟩ := exists_rc4_of_fits (ha ▸ hruns.schedFits)
  have hs0 := deriveSchedule_rc4 hder
  have ht := cryptText_rc4 d text s0 s ((s.prepared d (.rc4 s0)).dir d)
  have hstart := prepared_dir_rc4 d s0 ha
  have hvalid := State.afterCall_dir_valid hruns ht
  have hexec := exec_cryptInstr_of_runs hready hruns ht
  have hfit := hruns.recordFits
  generalize (s.prepared d (.rc4 s0)).dir d = r at hstart hvalid hexec hfit
  have hlen (n : Nat) : (recordAt rc4Step r text n).s.length = 256 :=
    recordAt_keeps (p := fun q => q.s.length = 256) (fun q b hq => (permSwap_length ..).trans hq)
      (by simpa [ha, DirRecord.fits] using hfit) text n
  refine ⟨_, (runThrough rc4Step r text).1, fun n => (recordAt rc4Step r text n).s, fun n => (recordAt rc4Step r text n).i,
    fun n => (recordAt rc4Step r text n).j, hexec, State.afterCall_response .., runThrough_length .., ?_, ?_, ?_, fun n hn => ?_,
    fun hcb => ⟨hvalid.trans hcb, ?_⟩⟩
  · simp only [recordAt_zero, hstart, apply_ite DirRecord.s, hs0]
  · simp only [recordAt_zero, hstart, apply_ite DirRecord.i]
  · simp only [recordAt_zero, hstart, apply_ite DirRecord.j]
  · simp only [runThrough_getD rc4Step r text hn, recordAt_succ_getD rc4Step r text hn]
    exact ⟨rfl, rfl, rc4Step_swappedAt _ _ (hlen n), rfl⟩
  · simp only [recordAt_length, State.afterCall_dir, hcb, if_true, and_self]

end Sys2Proof.Machine
end

section
/-! PBKDF2 (45_control.md R325): the loop appends whole blocks, and a byte of a block is the XOR of that byte of the iterates. -/

namespace Sys2Proof.Machine

@[simp] theorem engineHmac_length (key message : Bytes) : (engineHmac key message).length = Config.hLen := by simp [engineHmac]

/-- The inner loop keeps the length of HMAC. -/
theorem pbkdf2Iterate_length (P : Bytes) (n : Nat) {U X : Bytes} (hX : X.length = Config.hLen) :
    (pbkdf2Iterate engineHmac P n U X).length = Config.hLen := by
  induction n generalizing U X with
  | zero => exact hX
  | succ n ih => exact ih (by simp [hX])

theorem pbkdf2Block_length (P S : Bytes) (c i : Nat) : (pbkdf2Block engineHmac P S c i).length = Config.hLen :=
  pbkdf2Iterate_length P _ (engineHmac_length ..)

theorem xorBytes_getD {a b : Bytes} {k : Nat} (ha : k < a.length) (hb : k < b.length) :
    (xorBytes a b).getD k 0 = a.getD k 0 ^^^ b.getD k 0 := by
  simp [xorBytes, ha, hb]

/-- A byte of the inner loop: the byte of what it starts from and of each iterate of HMAC after `U`. -/
theorem pbkdf2Iterate_getD (P : Bytes) {k : Nat} (hk : k < Config.hLen) (n : Nat) (U X : Bytes) (hX : X.length = Config.hLen) :
    (pbkdf2Iterate engineHmac P n U X).getD k 0
      = (List.range n).foldl (fun acc j => acc ^^^ ((engineHmac P)^[j + 1] U).getD k 0) (X.getD k 0) := by
  induction n generalizing U X with
  | zero => rfl
  | succ n ih =>
    rw [pbkdf2Iterate, ih _ _ (by simp [hX]), List.range_succ_eq_map, List.foldl_cons, List.foldl_map,
      xorBytes_getD (hX ▸ hk) (by simpa using hk)]
    rfl

theorem pbkdf2Block_getD (P S : Bytes) {c k : Nat} (i : Nat) (hc : 0 < c) (hk : k < Config.hLen) :
    (pbkdf2Block engineHmac P S c i).getD k 0
      = (List.range c).foldl (fun acc j => acc ^^^ ((engineHmac P)^[j] (engineHmac P (S ++ beBytes 4 i))).getD k 0) 0 := by
  obtain ⟨n, rfl⟩ : ∃ n, c = n + 1 := ⟨c - 1, by omega⟩
  rw [pbkdf2Block, Nat.add_sub_cancel, pbkdf2Iterate_getD P hk n _ _ (engineHmac_length ..), List.range_succ_eq_map,
    List.foldl_cons, List.foldl_map]
  simp

/-- The first `m` blocks. -/
def pbkdf2Blocks (P S : Bytes) (c m : Nat) : Bytes := ((List.range m).map fun i => pbkdf2Block engineHmac P S c (i + 1)).flatten

theorem pbkdf2Blocks_succ (P S : Bytes) (c m : Nat) :
    pbkdf2Blocks P S c (m + 1) = pbkdf2Blocks P S c m ++ pbkdf2Block engineHmac P S c (m + 1) := by
  simp [pbkdf2Blocks, List.range_succ]

theorem pbkdf2Blocks_length (P S : Bytes) (c m : Nat) : (pbkdf2Blocks P S c m).length = m * Config.hLen := by
  induction m with
  | zero => simp [pbkdf2Blocks]
  | succ m ih => rw [pbkdf2Blocks_succ, List.length_append, ih, pbkdf2Block_length, Nat.succ_mul]

/-- Byte `n` lies in block `n / hLen + 1`. -/
theorem pbkdf2Blocks_getD (P S : Bytes) (c : Nat) {m n : Nat} (hn : n < m * Config.hLen) :
    (pbkdf2Blocks P S c m).getD n 0 = (pbkdf2Block engineHmac P S c (n / Config.hLen + 1)).getD (n % Config.hLen) 0 := by
  induction m with
  | zero => simp at hn
  | succ m ih =>
    have hlen := pbkdf2Blocks_length P S c m
    rw [pbkdf2Blocks_succ]
    by_cases hold : n < m * Config.hLen
    · rw [List.getD_append _ _ _ _ (by omega), ih hold]
    · have hdiv : n / Config.hLen = m :=
        Nat.div_eq_of_lt_le (by omega) (by omega)
      rw [List.getD_append_right _ _ _ _ (by omega), hlen, hdiv, Nat.mod_eq_sub_div_mul, hdiv]

/-- The outer loop leaves the blocks up to the first that makes them long enough. -/
theorem pbkdf2Loop_blocks (P S : Bytes) (c dkLen fuel m : Nat) (hfuel : dkLen ≤ m * Config.hLen + fuel) :
    ∃ k, pbkdf2Loop engineHmac P S c dkLen fuel (m + 1) (pbkdf2Blocks P S c m) = pbkdf2Blocks P S c k
      ∧ dkLen ≤ k * Config.hLen := by
  induction fuel generalizing m with
  | zero => exact ⟨m, rfl, hfuel⟩
  | succ fuel ih =>
    have hpos : 0 < Config.hLen := Nat.succ_pos _
    rw [pbkdf2Loop]
    split
    · rw [← pbkdf2Blocks_succ]
      exact ih (m + 1) (by rw [Nat.succ_mul]; omega)
    · exact ⟨m, rfl, by rw [← pbkdf2Blocks_length P S c m]; omega⟩

/-- Settles O53: the blocks are long enough, and a byte of them is one of its block. -/
theorem pbkdf2IsTheXorOfIterates : Obligations.Pbkdf2IsTheXorOfIterates := by
  intro P S c dkLen hc
  obtain ⟨k, hloop, hlen⟩ := pbkdf2Loop_blocks P S c dkLen dkLen 0 (by omega)
  have hvalue : pbkdf2 engineHmac P S c dkLen = (pbkdf2Blocks P S c k).take dkLen := congrArg (List.take dkLen) hloop
  refine ⟨by rw [hvalue, List.length_take, pbkdf2Blocks_length]; omega, fun n hn => ?_⟩
  rw [hvalue, List.getD_eq_getElem?_getD, List.getElem?_take_of_lt hn, ← List.getD_eq_getElem?_getD,
    pbkdf2Blocks_getD P S c (by omega), pbkdf2Block_getD P S _ hc (Nat.mod_lt _ (Nat.succ_pos _))]

end Sys2Proof.Machine
end

section
/-! The modes in the terms of 44_modes.md: the block-aligned modes block by block (R270 to R273), and the byte-stream modes byte by
byte (R274 to R278). -/

namespace Sys2Proof.Machine

/-! ### Blocks by index -/

theorem takeBlocks_getElem? (bs : Nat) (b : Bytes) {m k : Nat} (hk : k < m) : (takeBlocks bs m b)[k]? = some (blockAt bs k b) := by
  induction m generalizing b k with
  | zero => omega
  | succ m ih =>
    cases k with
    | zero => simp [takeBlocks, blockAt, slice]
    | succ k =>
      rw [takeBlocks, List.getElem?_cons_succ, ih _ (by omega)]
      simp only [blockAt, slice, List.drop_drop, Nat.succ_mul, Nat.add_comm]

/-- Block `k` of a byte string (20_memory.md R72). -/
theorem blocks_getElem? (bs : Nat) (b : Bytes) {k : Nat} (hk : k < b.length / bs) : (blocks bs b)[k]? = some (blockAt bs k b) :=
  takeBlocks_getElem? bs b hk

/-- The record before block `k` of a text. -/
def recordBefore (bs : Nat) (f : DirRecord → Bytes → Bytes × DirRecord) (r : DirRecord) (X : Bytes) (k : Nat) : DirRecord :=
  recordAt f r (blocks bs X) k

section
variable {bs : Nat} {f : DirRecord → Bytes → Bytes × DirRecord} {r : DirRecord} {X : Bytes}

theorem recordBefore_succ {k : Nat} (hk : k < X.length / bs) :
    recordBefore bs f r X (k + 1) = (f (recordBefore bs f r X k) (blockAt bs k X)).2 := by
  have hk' : k < (blocks bs X).length := by rwa [blocks_length]
  have hblock : (blocks bs X)[k] = blockAt bs k X :=
    Option.some.inj ((List.getElem?_eq_getElem hk').symm.trans (blocks_getElem? bs X hk))
  rw [recordBefore, recordAt_succ f r _ hk', hblock]
  rfl

/-- After the last block the record is the one the run leaves. -/
theorem recordBefore_length : recordBefore bs f r X (X.length / bs) = (runBlocks bs f r X).2 := by
  rw [recordBefore, ← blocks_length, recordAt_length, runBlocks]

/-- The blocks of an output of whole blocks are the outputs of the block function. -/
theorem blocks_runBlocks {alg : Algorithm} {mode : Mode} (hbs : 0 < bs) (hf : StepKeeps alg mode bs f)
    (hr : r.fits alg mode bs = true) : blocks bs (runBlocks bs f r X).1 = (runThrough f r (blocks bs X)).1 :=
  blocks_of_flatten bs hbs _ (runThrough_outputs f (fun q => q.fits alg mode bs = true) (fun x => x.length = bs)
    (fun y => y.length = bs) (fun q x hq hx => hf q x hx hq) r (blocks bs X) hr (fun _ hx => blocks_mem_length hx))

/-- Output block `k` comes from the record before block `k`. -/
theorem blockAt_runBlocks {alg : Algorithm} {mode : Mode} {k : Nat} (hbs : 0 < bs) (hf : StepKeeps alg mode bs f)
    (hr : r.fits alg mode bs = true) (hX : X.length % bs = 0) (hk : k < X.length / bs) :
    blockAt bs k (runBlocks bs f r X).1 = (f (recordBefore bs f r X k) (blockAt bs k X)).1 := by
  have hk' : k < (blocks bs X).length := by rwa [blocks_length]
  have hout : k < (runBlocks bs f r X).1.length / bs := by rwa [runBlocks_length hf hr hX]
  have hblock : (blocks bs X)[k] = blockAt bs k X :=
    Option.some.inj ((List.getElem?_eq_getElem hk').symm.trans (blocks_getElem? bs X hk))
  have houtput := runThrough_getElem? f r (blocks bs X) hk'
  rw [← blocks_runBlocks hbs hf hr, blocks_getElem? bs _ hout, hblock] at houtput
  exact Option.some.inj houtput

end

/-! ### What a call has run -/

/-- The schedule a call ran with is the one it leaves. -/
theorem ran_of_no_fault {d : Direction} {s t : State} {text : Bytes} {sched : Schedule}
    (h : exec (cryptInstr d text) s = .next t) (hf : t.fault = none) (hsched : t.sched = some sched) :
    ∃ out r, s.Runs d sched ∧ cryptText d text s sched ((s.prepared d sched).dir d) = .ok (out, r)
      ∧ t = s.afterCall d sched out r := by
  rcases exec_cryptInstr_next h with ⟨e, he, -⟩ | ⟨sched', out, r, -, hruns, ht, rfl⟩
  · rw [hf] at he; cases he
  · obtain rfl : sched' = sched := Option.some.inj ((State.afterCall_sched ..).symm.trans hsched)
    exact ⟨out, r, hruns, ht, rfl⟩

theorem ran_of_ok {d : Direction} {s t : State} {text out : Bytes} {sched : Schedule}
    (h : exec (cryptInstr d text) s = .next t) (hok : t.response = some (.ok out)) (hsched : t.sched = some sched) :
    ∃ r, s.Runs d sched ∧ cryptText d text s sched ((s.prepared d sched).dir d) = .ok (some out, r)
      ∧ t = s.afterCall d sched (some out) r := by
  obtain ⟨sched', o, r, -, hruns, ht, rfl⟩ := exec_cryptInstr_completed h hok (fun _ => nofun)
  obtain rfl : sched' = sched := Option.some.inj ((State.afterCall_sched ..).symm.trans hsched)
  rw [State.afterCall_response] at hok
  cases o with
  | none => cases hok
  | some o => cases hok; exact ⟨r, hruns, ht, rfl⟩

section
variable {s : State} {sched : Schedule} {text : Bytes} {r r' : DirRecord} {out : Option Bytes}

/-- What an encryption in a block-aligned mode has run: the blocks of the padded text (44_modes.md R268). -/
theorem encryptAligned_ran {c : BlockCipher} (hf : sched.fits s.alg s.bs = true) (htc : s.mode = .tcbc → s.alg = .tripleDes)
    (hbs : 0 < s.bs) (hm : blockAligned s.mode = true) (hc : blockCipher sched = some c)
    (h : cryptText .enc text s sched r = .ok (out, r')) :
    StepKeeps s.alg s.mode s.bs (blockStep .enc s.mode sched c) ∧ (paddedInput s text).length % s.bs = 0
      ∧ out = some (runBlocks s.bs (blockStep .enc s.mode sched c) r (paddedInput s text)).1
      ∧ r' = (runBlocks s.bs (blockStep .enc s.mode sched c) r (paddedInput s text)).2 := by
  obtain ⟨c', hc', htext, hkeep⟩ := cryptText_aligned .enc hf htc (alg_of_blockCipher hf hc) hm
  obtain rfl : c' = c := Option.some.inj (hc'.symm.trans hc)
  rw [htext, alignedText, encryptAligned_eq] at h
  split at h
  · cases h
  · rename_i halign
    cases h
    refine ⟨hkeep, ?_, rfl, rfl⟩
    rw [paddedInput]
    cases hp : s.padEnabled with
    | true => exact pad_length_mod hbs text
    | false => simpa [hp] using halign

/-- What a decryption in a block-aligned mode has run: the blocks of the text, before the padding is taken off
(44_modes.md R268). -/
theorem decryptAligned_ran {c : BlockCipher} (hf : sched.fits s.alg s.bs = true) (htc : s.mode = .tcbc → s.alg = .tripleDes)
    (hm : blockAligned s.mode = true) (hc : blockCipher sched = some c) (h : cryptText .dec text s sched r = .ok (out, r')) :
    StepKeeps s.alg s.mode s.bs (blockStep .dec s.mode sched c) ∧ text.length % s.bs = 0
      ∧ out = (if s.padEnabled then unpad s.bs (runBlocks s.bs (blockStep .dec s.mode sched c) r text).1
          else some (runBlocks s.bs (blockStep .dec s.mode sched c) r text).1)
      ∧ r' = (runBlocks s.bs (blockStep .dec s.mode sched c) r text).2 := by
  obtain ⟨c', hc', htext, hkeep⟩ := cryptText_aligned .dec hf htc (alg_of_blockCipher hf hc) hm
  obtain rfl : c' = c := Option.some.inj (hc'.symm.trans hc)
  rw [htext, alignedText, decryptAligned_eq] at h
  split at h
  · cases h
  · cases h
    exact ⟨hkeep, not_not.mp ‹_›, rfl, rfl⟩

end

/-! ### ECB (44_modes.md R270, R271) -/

/-- Settles O27: the block function of ECB does not read the record. -/
theorem ecbTransformsEachBlock : Obligations.EcbTransformsEachBlock := by
  intro s t text sched c hs hm hf hsched hc
  have hblock : blockAligned s.mode = true := by rw [hm]; rfl
  constructor
  · intro h
    obtain ⟨out, r, hruns, ht, rfl⟩ := ran_of_no_fault (d := .enc) h hf hsched
    obtain ⟨hkeep, halign, rfl, rfl⟩ := encryptAligned_ran hruns.schedFits hs.tcbcAlgorithm hs.bs_pos hblock hc ht
    refine ⟨_, State.afterCall_response .., runBlocks_length hkeep hruns.recordFits halign, fun k hk => ?_⟩
    rw [blockAt_runBlocks hs.bs_pos hkeep hruns.recordFits halign hk, hm]
    rfl
  · intro h
    obtain ⟨out, r, hruns, ht, rfl⟩ := ran_of_no_fault (d := .dec) h hf hsched
    obtain ⟨hkeep, halign, rfl, rfl⟩ := decryptAligned_ran hruns.schedFits hs.tcbcAlgorithm hblock hc ht
    refine ⟨_, runBlocks_length hkeep hruns.recordFits halign, fun k hk => ?_, State.afterCall_response ..⟩
    rw [blockAt_runBlocks hs.bs_pos hkeep hruns.recordFits halign hk, hm]
    rfl

/-! ### CBC (44_modes.md R272, R273) -/

section
variable {alg : Algorithm} {mode : Mode} {bs : Nat} {F : Bytes → Bytes} {r : DirRecord} {X : Bytes}

/-- Before block `k` of a CBC encryption the register holds the output block before it, or what it started with. -/
theorem cbcEncrypt_reg (hbs : 0 < bs) (hf : StepKeeps alg mode bs (cbcEncryptStep F)) (hr : r.fits alg mode bs = true)
    (hX : X.length % bs = 0) {k : Nat} (hk : k ≤ X.length / bs) :
    (recordBefore bs (cbcEncryptStep F) r X k).reg
      = if k = 0 then r.reg else blockAt bs (k - 1) (runBlocks bs (cbcEncryptStep F) r X).1 := by
  cases k with
  | zero => rfl
  | succ k => rw [recordBefore_succ hk, if_neg k.succ_ne_zero, Nat.add_sub_cancel, blockAt_runBlocks hbs hf hr hX hk]; rfl

/-- Before block `k` of a CBC decryption the register holds the input block before it, or what it started with. -/
theorem cbcDecrypt_reg {k : Nat} (hk : k ≤ X.length / bs) :
    (recordBefore bs (cbcDecryptStep F) r X k).reg = if k = 0 then r.reg else blockAt bs (k - 1) X := by
  cases k with
  | zero => rfl
  | succ k => rw [recordBefore_succ hk, if_neg k.succ_ne_zero, Nat.add_sub_cancel]; rfl

/-- The last block of whole blocks, by their number. -/
theorem lastBlockOr_eq (start : Bytes) {b : Bytes} (hb : b.length % bs = 0) :
    lastBlockOr bs start b = if b.length / bs = 0 then start else blockAt bs (b.length / bs - 1) b := by
  have hempty : b = [] ↔ b.length / bs = 0 := by
    rw [← List.length_eq_zero_iff]
    constructor
    · intro h; rw [h, Nat.zero_div]
    · intro h; rw [← Nat.div_add_mod b.length bs, h, hb, Nat.mul_zero]
  simp only [lastBlockOr, hempty]

/-- A CBC encryption leaves the last output block in the register. -/
theorem cbcEncrypt_last (hbs : 0 < bs) (hf : StepKeeps alg mode bs (cbcEncryptStep F)) (hr : r.fits alg mode bs = true)
    (hX : X.length % bs = 0) :
    (runBlocks bs (cbcEncryptStep F) r X).2.reg = lastBlockOr bs r.reg (runBlocks bs (cbcEncryptStep F) r X).1 := by
  have hlen := runBlocks_length hf hr hX
  rw [← recordBefore_length, cbcEncrypt_reg hbs hf hr hX (Nat.le_refl _), lastBlockOr_eq _ (hlen ▸ hX), hlen]

/-- A CBC decryption leaves the last input block in the register. -/
theorem cbcDecrypt_last (hX : X.length % bs = 0) : (runBlocks bs (cbcDecryptStep F) r X).2.reg = lastBlockOr bs r.reg X := by
  rw [← recordBefore_length, cbcDecrypt_reg (Nat.le_refl _), lastBlockOr_eq _ hX]

end

/-- Under continuous buffering the record is the one the mode function left (44_modes.md R280). -/
theorem State.afterCall_dir_of_cb {d : Direction} {s : State} {sched : Schedule} {out : Option Bytes} {r : DirRecord}
    (hcb : s.cbEnabled = true) : (s.afterCall d sched out r).dir d = r := by
  rw [State.afterCall_dir, if_pos hcb]

/-- DirInit of a block algorithm: the normalised IV in the register, and the keystream to be made (44_modes.md R262). -/
theorem initialRecord_reg {s : State} (r : DirRecord) (ha : s.alg ≠ .rc4) :
    (initialRecord s r).reg = normalisedIv s.bs s.ivReg ∧ (initialRecord s r).pos = 0 := by
  cases h : s.alg with
  | rc4 => exact absurd h ha
  | des | tripleDes | rijndael | aes => by_cases hm : s.mode = .tcbc <;> simp [initialRecord, h, hm]

/-- The record a call runs on (44_modes.md R263). -/
theorem prepared_dir_eq (d : Direction) (sched : Schedule) (s : State) :
    (s.prepared d sched).dir d = if s.startsFresh d then initialRecord (s.withSched sched) (s.dir d) else s.dir d := by
  rw [State.prepared, State.dir_setDir, State.startRecord]
  cases d <;> rfl

/-- The register a call starts from (44_modes.md R263). -/
theorem prepared_dir_reg {s : State} (d : Direction) (sched : Schedule) (ha : s.alg ≠ .rc4) :
    ((s.prepared d sched).dir d).reg = s.startReg d := by
  have hstart := (initialRecord_reg (s := s.withSched sched) (s.dir d) ha).1
  rw [prepared_dir_eq, State.startReg, apply_ite DirRecord.reg, hstart]
  rfl

/-- Settles O28: the register before each block is the output block before it. -/
theorem cbcEncryptsInAChain : Obligations.CbcEncryptsInAChain := by
  intro s t text out sched c hs hm h hout hsched hc
  obtain ⟨r, hruns, ht, rfl⟩ := ran_of_ok (d := .enc) h hout hsched
  have hstart := prepared_dir_reg .enc sched (alg_of_blockCipher hruns.schedFits hc)
  obtain ⟨hkeep, halign, hrun, rfl⟩ := encryptAligned_ran hruns.schedFits hs.tcbcAlgorithm hs.bs_pos (by rw [hm]; rfl) hc ht
  obtain rfl := Option.some.inj hrun
  have hstep : blockStep .enc s.mode sched c = cbcEncryptStep c.E := by rw [hm]; rfl
  rw [hstep] at hkeep ⊢
  refine ⟨fun k hk => ?_, fun hcb => ?_⟩
  · rw [blockAt_runBlocks hs.bs_pos hkeep hruns.recordFits halign hk, cbcEncryptStep,
      cbcEncrypt_reg hs.bs_pos hkeep hruns.recordFits halign (Nat.le_of_lt hk), hstart]
  · have hlast := cbcEncrypt_last hs.bs_pos hkeep hruns.recordFits halign
    rw [hstart] at hlast
    exact (congrArg DirRecord.reg (State.afterCall_dir_of_cb (d := .enc) hcb)).trans hlast

/-- Settles O29: the register before each block is the input block before it, and padding removal comes after the blocks. -/
theorem cbcDecryptsInAChain : Obligations.CbcDecryptsInAChain := by
  intro s t text sched c hs hm h hf hsched hc
  obtain ⟨out, r, hruns, ht, rfl⟩ := ran_of_no_fault (d := .dec) h hf hsched
  have hstart := prepared_dir_reg .dec sched (alg_of_blockCipher hruns.schedFits hc)
  obtain ⟨hkeep, halign, rfl, rfl⟩ := decryptAligned_ran hruns.schedFits hs.tcbcAlgorithm (by rw [hm]; rfl) hc ht
  have hstep : blockStep .dec s.mode sched c = cbcDecryptStep c.D := by rw [hm]; rfl
  rw [hstep] at hkeep ⊢
  refine ⟨_, runBlocks_length hkeep hruns.recordFits halign, fun k hk => ?_, State.afterCall_response .., fun hcb => ?_⟩
  · rw [blockAt_runBlocks hs.bs_pos hkeep hruns.recordFits halign hk, cbcDecryptStep, cbcDecrypt_reg (Nat.le_of_lt hk), hstart]
  · have hlast := cbcDecrypt_last (F := c.D) (r := (s.prepared .dec sched).dir .dec) halign
    rw [hstart] at hlast
    exact (congrArg DirRecord.reg (State.afterCall_dir_of_cb (d := .dec) hcb)).trans hlast

/-! ### Keystreams (44_modes.md R276, R277) -/

/-- One byte of a mode whose keystream does not depend on the text: at the start of a block `gen` makes the keystream of the
register and `next` the next register. -/
def keystreamStep (next gen : Bytes → Bytes) (bs : Nat) (r : DirRecord) (b : Byte) : Byte × DirRecord :=
  let ks := if r.pos = 0 then gen r.reg else r.ks
  let reg := if r.pos = 0 then next r.reg else r.reg
  (b ^^^ ks.getD r.pos 0, { r with reg := reg, ks := ks, pos := (r.pos + 1) % bs })

theorem ofbStep_eq (E : Bytes → Bytes) (bs : Nat) : ofbStep E bs = keystreamStep E E bs := by
  funext r b
  by_cases h : r.pos = 0 <;> simp [ofbStep, keystreamStep, h]

theorem ctrStep_eq (E : Bytes → Bytes) (bs : Nat) : ctrStep E bs = keystreamStep ctrInc E bs := rfl

/-- The place of the byte after byte `n`: the next of its block, or the first of the next block. -/
theorem succ_place {bs : Nat} (hbs : 0 < bs) (n : Nat) :
    (n % bs + 1 < bs ∧ (n + 1) % bs = n % bs + 1 ∧ (n + 1) / bs = n / bs)
      ∨ (n % bs + 1 = bs ∧ (n + 1) % bs = 0 ∧ (n + 1) / bs = n / bs + 1) := by
  have hlt := Nat.mod_lt n hbs
  have hn := Nat.div_add_mod n bs
  rcases Nat.lt_or_eq_of_le (Nat.succ_le_of_lt hlt) with h | h
  · refine .inl ⟨h, ?_, ?_⟩
    · rw [← hn, Nat.add_assoc, Nat.mul_add_mod, Nat.mod_eq_of_lt h, Nat.mul_add_mod, Nat.mod_mod]
    · rw [← hn, Nat.add_assoc, Nat.mul_add_div hbs, Nat.div_eq_of_lt h, hn, Nat.add_zero]
  · have hnext : n + 1 = bs * (n / bs + 1) := by rw [Nat.mul_succ]; omega
    exact .inr ⟨h, by rw [hnext, Nat.mul_mod_right], by rw [hnext, Nat.mul_div_cancel_left _ hbs]⟩

/-- The record before byte `n`, in block `n / bs`: at the start of the block its register is the one the block's keystream is made
of, and after it the next one, with that keystream. -/
structure KeystreamAt (next gen : Bytes → Bytes) (bs : Nat) (start : Bytes) (n : Nat) (r : DirRecord) : Prop where
  pos : r.pos = n % bs
  fresh : n % bs = 0 → r.reg = next^[n / bs] start
  inside : n % bs ≠ 0 → r.reg = next^[n / bs + 1] start ∧ r.ks = gen (next^[n / bs] start)

section
variable {next gen : Bytes → Bytes} {bs : Nat} {start : Bytes}

/-- The keystream byte of byte `n`, and the record after it. -/
theorem KeystreamAt.step {n : Nat} {r : DirRecord} (hbs : 0 < bs) (h : KeystreamAt next gen bs start n r) (b : Byte) :
    (keystreamStep next gen bs r b).1 = b ^^^ (gen (next^[n / bs] start)).getD (n % bs) 0
      ∧ KeystreamAt next gen bs start (n + 1) (keystreamStep next gen bs r b).2 := by
  have hks : (if r.pos = 0 then gen r.reg else r.ks) = gen (next^[n / bs] start) := by
    rw [h.pos]
    split
    · rw [h.fresh ‹_›]
    · exact (h.inside ‹_›).2
  have hreg : (if r.pos = 0 then next r.reg else r.reg) = next^[n / bs + 1] start := by
    rw [h.pos]
    split
    · rw [h.fresh ‹_›, Function.iterate_succ_apply']
    · exact (h.inside ‹_›).1
  refine ⟨by rw [keystreamStep, hks, h.pos], ?_, ?_, ?_⟩ <;> simp only [keystreamStep, hks, hreg]
  · rw [h.pos, Nat.mod_add_mod]
  · rcases succ_place hbs n with ⟨-, hmod, -⟩ | ⟨-, -, hdiv⟩
    · intro h0; rw [hmod] at h0; cases h0
    · intro _; rw [hdiv]
  · rcases succ_place hbs n with ⟨-, -, hdiv⟩ | ⟨-, hmod, -⟩
    · intro _; rw [hdiv]; exact ⟨rfl, rfl⟩
    · intro h0; exact absurd hmod h0

/-- From the start of a block on, the record before every byte. -/
theorem keystreamAt_recordAt {r : DirRecord} (hbs : 0 < bs) (hpos : r.pos = 0) (text : Bytes) {n : Nat} (hn : n ≤ text.length) :
    KeystreamAt next gen bs r.reg n (recordAt (keystreamStep next gen bs) r text n) := by
  induction n with
  | zero => exact ⟨by simp [hpos], fun _ => by simp, fun h => absurd (Nat.zero_mod bs) h⟩
  | succ n ih => rw [recordAt_succ_getD _ _ _ hn]; exact ((ih (Nat.le_of_lt hn)).step hbs _).2

/-- Byte `n` of a keystream mode's output. -/
theorem keystream_getD {r : DirRecord} (hbs : 0 < bs) (hpos : r.pos = 0) (text : Bytes) {n : Nat} (hn : n < text.length) :
    (runThrough (keystreamStep next gen bs) r text).1.getD n 0
      = text.getD n 0 ^^^ (gen (next^[n / bs] r.reg)).getD (n % bs) 0 := by
  rw [runThrough_getD _ _ _ hn]
  exact ((keystreamAt_recordAt hbs hpos text (Nat.le_of_lt hn)).step hbs _).1

end

/-- The record a fresh call in a block algorithm runs on. -/
theorem prepared_dir_of_fresh {d : Direction} {s : State} (sched : Schedule) (hfresh : s.startsFresh d = true)
    (ha : s.alg ≠ .rc4) : ((s.prepared d sched).dir d).reg = normalisedIv s.bs s.ivReg ∧ ((s.prepared d sched).dir d).pos = 0 := by
  rw [prepared_dir_eq, if_pos hfresh]
  exact initialRecord_reg (s := s.withSched sched) _ ha

/-- Settles O31: OFB's next register and its keystream are both `E` of the register. -/
theorem ofbKeystreamIsIterated : Obligations.OfbKeystreamIsIterated := by
  intro d s t text out sched c hs hm hfresh h hout hsched hc n hn
  obtain ⟨r, hruns, ht, -⟩ := ran_of_ok h hout hsched
  obtain ⟨hreg, hpos⟩ := prepared_dir_of_fresh sched hfresh (alg_of_blockCipher hruns.schedFits hc)
  have hrun : cryptText d text s sched ((s.prepared d sched).dir d)
      = cryptStream (ofbStep c.E s.bs) ((s.prepared d sched).dir d) text := by
    cases d <;> simp only [cryptText, encryptText, decryptText, hc, hm]
  rw [hrun, ofbStep_eq] at ht
  cases ht
  rw [keystream_getD hs.bs_pos hpos text hn, hreg, Function.iterate_succ_apply']

/-- The counter after `k` increments (44_modes.md R278). -/
theorem ctrInc_iterate {ctr : Bytes} (h : ctr.length % 4 = 0) (k : Nat) :
    ctrInc^[k] ctr = beBytes ctr.length (beNat ctr + k) := by
  induction k with
  | zero => exact (beBytes_beNat ctr).symm
  | succ k ih =>
    rw [Function.iterate_succ_apply', ih, ctrIncIsBigEndianIncrement _ (by rwa [beBytes_length]), beBytes_length, beNat_beBytes,
      ← beBytes_mod, Nat.mod_add_mod, beBytes_mod, Nat.add_assoc]

theorem normalisedIv_length (bs : Nat) (iv : Option Bytes) : (normalisedIv bs iv).length = bs := by
  cases iv <;> simp [normalisedIv]

/-- The block size of a block algorithm is a number of whole words (10_state.md R36). -/
theorem State.Inv.bs_mod_four {s : State} (h : s.Inv) (ha : s.alg ≠ .rc4) : s.bs % 4 = 0 := by
  have hb := h.blockLenLegal
  simp only [List.mem_cons, List.not_mem_nil, or_false] at hb
  cases halg : s.alg with
  | rc4 => exact absurd halg ha
  | des | tripleDes | aes => simp [State.bs, blockSizeOf, halg]
  | rijndael => simp only [State.bs, blockSizeOf, halg]; omega

/-- Settles O32: CTR's next register is the increment, and its keystream `E` of the register. -/
theorem ctrKeystreamCounts : Obligations.CtrKeystreamCounts := by
  intro d s t text out sched c hs hm hfresh h hout hsched hc n hn
  obtain ⟨r, hruns, ht, -⟩ := ran_of_ok h hout hsched
  have ha := alg_of_blockCipher hruns.schedFits hc
  obtain ⟨hreg, hpos⟩ := prepared_dir_of_fresh sched hfresh ha
  have hlen := normalisedIv_length s.bs s.ivReg
  have hrun : cryptText d text s sched ((s.prepared d sched).dir d)
      = cryptStream (ctrStep c.E s.bs) ((s.prepared d sched).dir d) text := by
    cases d <;> simp only [cryptText, encryptText, decryptText, hc, hm]
  rw [hrun, ctrStep_eq] at ht
  cases ht
  rw [keystream_getD hs.bs_pos hpos text hn, hreg, ctrInc_iterate (by rw [hlen]; exact hs.bs_mod_four ha), hlen]

/-! ### CFB (44_modes.md R274, R275) -/

/-- One byte of CFB, the byte fed back chosen between the text's and the output's. -/
def cfbStep (d : Direction) (E : Bytes → Bytes) (bs : Nat) : DirRecord → Byte → Byte × DirRecord :=
  match d with
  | .enc => cfbEncryptStep E bs
  | .dec => cfbDecryptStep E bs

/-- The ciphertext of a CFB call. -/
def cipherSide (d : Direction) (text out : Bytes) : Bytes := if d = .enc then out else text

theorem cipherSide_length {d : Direction} {f : DirRecord → Byte → Byte × DirRecord} {r : DirRecord} {text : Bytes} :
    (cipherSide d text (runThrough f r text).1).length = text.length := by
  rw [cipherSide]
  split
  · exact runThrough_length ..
  · rfl

/-- The ciphertext's byte `n` in the terms of the step that makes the output's. -/
theorem cipherSide_getD {d : Direction} {f : DirRecord → Byte → Byte × DirRecord} {r : DirRecord} {text : Bytes} {n : Nat}
    (hn : n < text.length) :
    (if d = .enc then (f (recordAt f r text n) (text.getD n 0)).1 else text.getD n 0)
      = (cipherSide d text (runThrough f r text).1).getD n 0 := by
  rw [cipherSide]
  split
  · exact (runThrough_getD f r text hn).symm
  · rfl

/-- What the register holds when ciphertext block `k` begins: the block before it, or the IV. -/
def cfbFeed (bs : Nat) (iv ct : Bytes) (k : Nat) : Bytes := if k = 0 then iv else blockAt bs (k - 1) ct

/-- The record before byte `n`: the register holds the bytes of the ciphertext block so far, over those of the block before, whose
keystream is in use. -/
structure CfbAt (E : Bytes → Bytes) (bs : Nat) (iv ct : Bytes) (n : Nat) (r : DirRecord) : Prop where
  pos : r.pos = n % bs
  reg : r.reg = slice (n / bs * bs) (n % bs) ct ++ (cfbFeed bs iv ct (n / bs)).drop (n % bs)
  ks : n % bs ≠ 0 → r.ks = E (cfbFeed bs iv ct (n / bs))

section
variable {E : Bytes → Bytes} {bs : Nat} {iv ct : Bytes}

theorem cfbFeed_length (hiv : iv.length = bs) {k : Nat} (hk : k * bs ≤ ct.length) : (cfbFeed bs iv ct k).length = bs := by
  cases k with
  | zero => exact hiv
  | succ k =>
    rw [Nat.succ_mul] at hk
    rw [cfbFeed, if_neg k.succ_ne_zero, Nat.add_sub_cancel, blockAt, slice_length]
    omega

/-- A slice with its next byte. -/
theorem slice_succ (a m : Nat) (b : Bytes) (h : a + m < b.length) : slice a (m + 1) b = slice a m b ++ [b.getD (a + m) 0] := by
  rw [slice, List.take_add_one, List.getElem?_drop, List.getD_eq_getElem _ _ h, List.getElem?_eq_getElem h]
  rfl

/-- The ciphertext byte goes into the register in its place. -/
theorem cfb_reg_set (hbs : 0 < bs) (hiv : iv.length = bs) {n : Nat} (hn : n < ct.length) :
    (slice (n / bs * bs) (n % bs) ct ++ (cfbFeed bs iv ct (n / bs)).drop (n % bs)).set (n % bs) (ct.getD n 0)
      = slice (n / bs * bs) (n % bs + 1) ct ++ (cfbFeed bs iv ct (n / bs)).drop (n % bs + 1) := by
  have hplace : n / bs * bs + n % bs = n := by rw [Nat.mul_comm]; exact Nat.div_add_mod n bs
  have hlt := Nat.mod_lt n hbs
  have hfeed := cfbFeed_length (ct := ct) hiv (k := n / bs) (by omega)
  have hslice : (slice (n / bs * bs) (n % bs) ct).length = n % bs := by rw [slice_length]; omega
  rw [List.set_append_right _ _ (by omega), hslice, Nat.sub_self, List.drop_eq_getElem_cons (by omega), List.set_cons_zero,
    slice_succ _ _ _ (by omega), hplace, List.append_assoc]
  rfl

/-- The keystream byte of byte `n`, and the record after it, where the byte fed back is the ciphertext's. -/
theorem CfbAt.step {d : Direction} {n : Nat} {r : DirRecord} {b : Byte} (hbs : 0 < bs) (hiv : iv.length = bs) (hn : n < ct.length)
    (h : CfbAt E bs iv ct n r) (hfed : (if d = .enc then (cfbStep d E bs r b).1 else b) = ct.getD n 0) :
    (cfbStep d E bs r b).1 = b ^^^ (E (cfbFeed bs iv ct (n / bs))).getD (n % bs) 0
      ∧ CfbAt E bs iv ct (n + 1) (cfbStep d E bs r b).2 := by
  have hks : (if r.pos = 0 then E r.reg else r.ks) = E (cfbFeed bs iv ct (n / bs)) := by
    rw [h.pos]
    split
    · rw [h.reg, ‹n % bs = 0›]; rfl
    · exact h.ks ‹_›
  have hreg : (cfbStep d E bs r b).2.reg
      = slice (n / bs * bs) (n % bs + 1) ct ++ (cfbFeed bs iv ct (n / bs)).drop (n % bs + 1) := by
    rw [← cfb_reg_set hbs hiv hn, ← hfed, ← h.reg, ← h.pos]
    cases d <;> rfl
  have hpos : (cfbStep d E bs r b).2.pos = (n + 1) % bs := by
    rw [← Nat.mod_add_mod, ← h.pos]
    cases d <;> rfl
  have hnew : (cfbStep d E bs r b).2.ks = E (cfbFeed bs iv ct (n / bs)) := by rw [← hks]; cases d <;> rfl
  refine ⟨by rw [← hks, ← h.pos]; cases d <;> rfl, hpos, ?_, ?_⟩
  · rcases succ_place hbs n with ⟨-, hmod, hdiv⟩ | ⟨hend, hmod, hdiv⟩
    · rw [hreg, hmod, hdiv]
    · have hfeed : (cfbFeed bs iv ct (n / bs)).length = bs :=
        cfbFeed_length hiv (Nat.le_trans (Nat.div_mul_le_self n bs) (Nat.le_of_lt hn))
      rw [hreg, hmod, hdiv, hend, List.drop_of_length_le (Nat.le_of_eq hfeed), List.append_nil]
      rfl
  · rcases succ_place hbs n with ⟨-, -, hdiv⟩ | ⟨-, hmod, -⟩
    · intro _; rw [hnew, hdiv]
    · intro h0; exact absurd hmod h0

end

/-- From a fresh record on, the record before every byte. -/
theorem cfbAt_recordAt {d : Direction} {E : Bytes → Bytes} {bs : Nat} {r : DirRecord} (text : Bytes) (hbs : 0 < bs)
    (hreg : r.reg.length = bs) (hpos : r.pos = 0) {n : Nat} (hn : n ≤ text.length) :
    CfbAt E bs r.reg (cipherSide d text (runThrough (cfbStep d E bs) r text).1) n (recordAt (cfbStep d E bs) r text n) := by
  induction n with
  | zero => exact ⟨by simp [hpos], by simp [slice, cfbFeed], fun h => absurd (Nat.zero_mod bs) h⟩
  | succ n ih =>
    rw [recordAt_succ_getD _ _ _ hn]
    exact ((ih (Nat.le_of_lt hn)).step hbs hreg (by rwa [cipherSide_length]) (cipherSide_getD hn)).2

/-- Settles O30: each byte fed back is the ciphertext's, so the register at the start of a block is the ciphertext block before. -/
theorem cfbFeedsBackTheCiphertext : Obligations.CfbFeedsBackTheCiphertext := by
  intro d s t text out sched c hs hm hfresh h hout hsched hc n hn
  obtain ⟨r, hruns, ht, -⟩ := ran_of_ok h hout hsched
  obtain ⟨hreg, hpos⟩ := prepared_dir_of_fresh sched hfresh (alg_of_blockCipher hruns.schedFits hc)
  have hlen := normalisedIv_length s.bs s.ivReg
  have hrun : cryptText d text s sched ((s.prepared d sched).dir d)
      = cryptStream (cfbStep d c.E s.bs) ((s.prepared d sched).dir d) text := by
    cases d <;> simp only [cryptText, encryptText, decryptText, hc, hm, cfbStep]
  rw [hrun] at ht
  cases ht
  have hbyte := ((cfbAt_recordAt (d := d) (E := c.E) text hs.bs_pos (hreg ▸ hlen) hpos (Nat.le_of_lt hn)).step hs.bs_pos
    (hreg ▸ hlen) (by rwa [cipherSide_length]) (cipherSide_getD hn)).1
  rw [runThrough_getD _ _ _ hn, hbyte, hreg, cfbFeed, cipherSide]
  simp only [Nat.div_eq_zero_iff_lt hs.bs_pos]

end Sys2Proof.Machine
end

section
/-! 3CBC: three CBC passes (41_tripledes.md R175 to R178), and with one key DES-CBC (R179). -/

namespace Sys2Proof.Machine

/-! ### Runs that go together -/

/-- Runs whose steps agree from related records give one output and end in related records. -/
theorem runThrough_related {α β : Type} {f g : DirRecord → α → β × DirRecord} (rel : DirRecord → DirRecord → Prop) (q : α → Prop)
    (h : ∀ r r' a, rel r r' → q a → (f r a).1 = (g r' a).1 ∧ rel (f r a).2 (g r' a).2)
    {r r' : DirRecord} (hr : rel r r') {l : List α} (hl : ∀ a ∈ l, q a) : (runThrough f r l).1 = (runThrough g r' l).1 := by
  induction l generalizing r r' with
  | nil => rfl
  | cons a l ih =>
    obtain ⟨hout, hnext⟩ := h r r' a hr (hl a (List.mem_cons_self ..))
    rw [runThrough_cons, runThrough_cons, hout, ih hnext (fun b hb => hl b (List.mem_cons_of_mem _ hb))]

/-- A run whose step is three steps one after another is three runs one after another. -/
theorem runThrough_three {α : Type} {F f g h : DirRecord → α → α × DirRecord}
    (rel : DirRecord → DirRecord → DirRecord → DirRecord → Prop)
    (hstep : ∀ r a b c x, rel r a b c →
      (F r x).1 = (h c (g b (f a x).1).1).1 ∧ rel (F r x).2 (f a x).2 (g b (f a x).1).2 (h c (g b (f a x).1).1).2)
    {r a b c : DirRecord} (hrel : rel r a b c) (l : List α) :
    (runThrough F r l).1 = (runThrough h c (runThrough g b (runThrough f a l).1).1).1
      ∧ rel (runThrough F r l).2 (runThrough f a l).2 (runThrough g b (runThrough f a l).1).2
          (runThrough h c (runThrough g b (runThrough f a l).1).1).2 := by
  induction l generalizing r a b c with
  | nil => exact ⟨rfl, hrel⟩
  | cons x l ih =>
    obtain ⟨hout, hnext⟩ := hstep r a b c x hrel
    obtain ⟨houts, hlast⟩ := ih hnext
    simp only [runThrough_cons]
    exact ⟨by rw [hout, houts], hlast⟩

/-! ### One pass of CBC under a DES schedule -/

/-- The record a pass starts from. -/
def passRecord (iv : Bytes) : DirRecord := { DirRecord.reset with reg := iv }

theorem passRecord_fits {iv : Bytes} (h : iv.length = 8) : (passRecord iv).fits .des .cbc 8 = true :=
  (DirRecord.fits_block (by decide)).mpr ⟨h, rfl, Nat.succ_pos 7, nofun⟩

section
variable {iv X : Bytes} (ks : List DesSubkey)

theorem cbcEncryptPass_eq (E : Bytes → Bytes) (iv X : Bytes) :
    cbcEncryptPass E 8 iv X = (runBlocks 8 (cbcEncryptStep E) (passRecord iv) X).1 := rfl

theorem cbcDecryptPass_eq (D : Bytes → Bytes) (iv X : Bytes) :
    cbcDecryptPass D 8 iv X = (runBlocks 8 (cbcDecryptStep D) (passRecord iv) X).1 := rfl

theorem stepKeeps_desCbcEncrypt : StepKeeps .des .cbc 8 (cbcEncryptStep (desEncryptBlock ks)) :=
  stepKeeps_cbcEncryptStep (by decide) fun _ _ => desEncryptBlock_length ks _

theorem stepKeeps_desCbcDecrypt : StepKeeps .des .cbc 8 (cbcDecryptStep (desDecryptBlock ks)) :=
  stepKeeps_cbcDecryptStep (by decide) fun _ _ => desDecryptBlock_length ks _

/-- A pass answers the blocks of its run, as many bytes as it was given, and its register ends as the last ciphertext block. -/
theorem cbcEncryptPass_run (hiv : iv.length = 8) (hX : X.length % 8 = 0) :
    blocks 8 (cbcEncryptPass (desEncryptBlock ks) 8 iv X)
        = (runThrough (cbcEncryptStep (desEncryptBlock ks)) (passRecord iv) (blocks 8 X)).1
      ∧ (cbcEncryptPass (desEncryptBlock ks) 8 iv X).length = X.length
      ∧ (runThrough (cbcEncryptStep (desEncryptBlock ks)) (passRecord iv) (blocks 8 X)).2.reg
          = lastBlockOr 8 iv (cbcEncryptPass (desEncryptBlock ks) 8 iv X) :=
  ⟨blocks_runBlocks (by decide) (stepKeeps_desCbcEncrypt ks) (passRecord_fits hiv),
    runBlocks_length (stepKeeps_desCbcEncrypt ks) (passRecord_fits hiv) hX,
    cbcEncrypt_last (by decide) (stepKeeps_desCbcEncrypt ks) (passRecord_fits hiv) hX⟩

/-- As `cbcEncryptPass_run`, for decryption: the last ciphertext block is the input's. -/
theorem cbcDecryptPass_run (hiv : iv.length = 8) (hX : X.length % 8 = 0) :
    blocks 8 (cbcDecryptPass (desDecryptBlock ks) 8 iv X)
        = (runThrough (cbcDecryptStep (desDecryptBlock ks)) (passRecord iv) (blocks 8 X)).1
      ∧ (cbcDecryptPass (desDecryptBlock ks) 8 iv X).length = X.length
      ∧ (runThrough (cbcDecryptStep (desDecryptBlock ks)) (passRecord iv) (blocks 8 X)).2.reg = lastBlockOr 8 iv X :=
  ⟨blocks_runBlocks (by decide) (stepKeeps_desCbcDecrypt ks) (passRecord_fits hiv),
    runBlocks_length (stepKeeps_desCbcDecrypt ks) (passRecord_fits hiv) hX, cbcDecrypt_last hX⟩

end

/-! ### 3CBC (41_tripledes.md R175 to R178) -/

/-- The stage registers of a 3CBC record stand in the registers of three passes. -/
def StagesIn (r a b c : DirRecord) : Prop := a.reg = r.c1 ∧ b.reg = r.c2 ∧ c.reg = r.c3

section
variable {ks1 ks2 ks3 : List DesSubkey} {r : DirRecord} {X : Bytes}

/-- 3CBC encryption is its three passes, and what it leaves in the stage registers. -/
theorem tcbcEncrypt_passes (h1 : r.c1.length = 8) (h2 : r.c2.length = 8) (h3 : r.c3.length = 8) (hX : X.length % 8 = 0) :
    ∃ y1 y2 y3, y1 = cbcEncryptPass (desEncryptBlock ks1) 8 r.c1 X
      ∧ y2 = cbcDecryptPass (desDecryptBlock ks2) 8 r.c2 y1 ∧ y3 = cbcEncryptPass (desEncryptBlock ks3) 8 r.c3 y2
      ∧ (runBlocks 8 (tcbcEncryptStep ks1 ks2 ks3) r X).1 = y3
      ∧ (runBlocks 8 (tcbcEncryptStep ks1 ks2 ks3) r X).2.c1 = lastBlockOr 8 r.c1 y1
      ∧ (runBlocks 8 (tcbcEncryptStep ks1 ks2 ks3) r X).2.c2 = lastBlockOr 8 r.c2 y1
      ∧ (runBlocks 8 (tcbcEncryptStep ks1 ks2 ks3) r X).2.c3 = lastBlockOr 8 r.c3 y3 := by
  obtain ⟨hblocks1, hlen1, hlast1⟩ := cbcEncryptPass_run ks1 h1 hX
  obtain ⟨hblocks2, hlen2, hlast2⟩ := cbcDecryptPass_run ks2 h2 (hlen1 ▸ hX)
  obtain ⟨hblocks3, -, hlast3⟩ := cbcEncryptPass_run ks3 h3 (hlen2 ▸ hlen1 ▸ hX)
  obtain ⟨hout, hc1, hc2, hc3⟩ := runThrough_three (F := tcbcEncryptStep ks1 ks2 ks3) (f := cbcEncryptStep (desEncryptBlock ks1))
    (g := cbcDecryptStep (desDecryptBlock ks2)) (h := cbcEncryptStep (desEncryptBlock ks3)) StagesIn
    (fun r a b c x ⟨ha, hb, hc⟩ => by simp [StagesIn, tcbcEncryptStep, cbcEncryptStep, cbcDecryptStep, ha, hb, hc])
    (r := r) (a := passRecord r.c1) (b := passRecord r.c2) (c := passRecord r.c3) ⟨rfl, rfl, rfl⟩ (blocks 8 X)
  rw [← hblocks1, ← hblocks2] at hout hc3
  rw [← hblocks1] at hc2
  exact ⟨_, _, _, rfl, rfl, rfl, congrArg List.flatten hout, hc1 ▸ hlast1, hc2 ▸ hlast2, hc3 ▸ hlast3⟩

/-- 3CBC decryption undoes the three passes in reverse, and what it leaves in the stage registers. -/
theorem tcbcDecrypt_passes (h1 : r.c1.length = 8) (h2 : r.c2.length = 8) (h3 : r.c3.length = 8) (hX : X.length % 8 = 0) :
    ∃ y2 y1 x, y2 = cbcDecryptPass (desDecryptBlock ks3) 8 r.c3 X
      ∧ y1 = cbcEncryptPass (desEncryptBlock ks2) 8 r.c2 y2 ∧ x = cbcDecryptPass (desDecryptBlock ks1) 8 r.c1 y1
      ∧ (runBlocks 8 (tcbcDecryptStep ks1 ks2 ks3) r X).1 = x
      ∧ (runBlocks 8 (tcbcDecryptStep ks1 ks2 ks3) r X).2.c1 = lastBlockOr 8 r.c1 y1
      ∧ (runBlocks 8 (tcbcDecryptStep ks1 ks2 ks3) r X).2.c2 = lastBlockOr 8 r.c2 y1
      ∧ (runBlocks 8 (tcbcDecryptStep ks1 ks2 ks3) r X).2.c3 = lastBlockOr 8 r.c3 X := by
  obtain ⟨hblocks3, hlen3, hlast3⟩ := cbcDecryptPass_run ks3 h3 hX
  obtain ⟨hblocks2, hlen2, hlast2⟩ := cbcEncryptPass_run ks2 h2 (hlen3 ▸ hX)
  obtain ⟨hblocks1, -, hlast1⟩ := cbcDecryptPass_run ks1 h1 (hlen2 ▸ hlen3 ▸ hX)
  obtain ⟨hout, hc1, hc2, hc3⟩ := runThrough_three (F := tcbcDecryptStep ks1 ks2 ks3) (f := cbcDecryptStep (desDecryptBlock ks3))
    (g := cbcEncryptStep (desEncryptBlock ks2)) (h := cbcDecryptStep (desDecryptBlock ks1)) (fun r c b a => StagesIn r a b c)
    (fun r c b a x ⟨ha, hb, hc⟩ => by simp [StagesIn, tcbcDecryptStep, cbcEncryptStep, cbcDecryptStep, ha, hb, hc])
    (r := r) (a := passRecord r.c3) (b := passRecord r.c2) (c := passRecord r.c1) ⟨rfl, rfl, rfl⟩ (blocks 8 X)
  rw [← hblocks3, ← hblocks2] at hout hc1
  rw [← hblocks3] at hc2
  exact ⟨_, _, _, rfl, rfl, rfl, congrArg List.flatten hout, hc1 ▸ hlast1, hc2 ▸ hlast2, hc3 ▸ hlast3⟩

end

/-- DirInit in 3CBC puts the normalised IV in all three stage registers (41_tripledes.md R177). -/
theorem initialRecord_tcbc {s : State} (r : DirRecord) (ha : s.alg = .tripleDes) (hm : s.mode = .tcbc) :
    (initialRecord s r).c1 = normalisedIv 8 s.ivReg ∧ (initialRecord s r).c2 = normalisedIv 8 s.ivReg
      ∧ (initialRecord s r).c3 = normalisedIv 8 s.ivReg := by
  simp [initialRecord, ha, hm, State.bs, blockSizeOf]

/-- The stage registers a 3CBC call starts from (44_modes.md R263). -/
theorem prepared_dir_stages {s : State} (d : Direction) (sched : Schedule) (ha : s.alg = .tripleDes) (hm : s.mode = .tcbc) :
    s.startStages d = (((s.prepared d sched).dir d).c1, ((s.prepared d sched).dir d).c2, ((s.prepared d sched).dir d).c3) := by
  obtain ⟨h1, h2, h3⟩ := initialRecord_tcbc (s := s.withSched sched) (s.dir d) ha hm
  rw [prepared_dir_eq, State.startStages]
  split
  · rw [h1, h2, h3]; rfl
  · rfl

/-- Settles O34: one block of 3CBC is one block of each pass, the stage registers being the passes' registers. -/
theorem tripleCbcIsThreePasses : Obligations.TripleCbcIsThreePasses := by
  intro s t text ks1 ks2 ks3 hs hm hf hsched
  have ha := hs.tcbcAlgorithm hm
  have hb := State.bs_of_des (.inr ha)
  have hblock : blockAligned s.mode = true := by rw [hm]; rfl
  have hwidths {r : DirRecord} (hr : r.fits s.alg s.mode s.bs = true) : r.c1.length = 8 ∧ r.c2.length = 8 ∧ r.c3.length = 8 :=
    ((DirRecord.fits_block (by simp [ha])).mp hr).2.2.2 hm
  refine ⟨fun c1 c2 c3 hstages h => ?_, fun c1 c2 c3 hstages h => ?_⟩
  · obtain ⟨out, r, hruns, ht, rfl⟩ := ran_of_no_fault (d := .enc) h hf hsched
    have hvalid := State.afterCall_dir_valid hruns ht
    obtain ⟨h1, h2, h3⟩ := hwidths hruns.recordFits
    obtain ⟨-, halign, hrun, hleft⟩ := encryptAligned_ran hruns.schedFits hs.tcbcAlgorithm hs.bs_pos hblock rfl ht
    have hstep (c : BlockCipher) : blockStep .enc s.mode (.tripleDes ks1 ks2 ks3) c = tcbcEncryptStep ks1 ks2 ks3 := by rw [hm]; rfl
    rw [hstep, hb] at hrun hleft
    rw [hb] at halign
    rw [prepared_dir_stages .enc (.tripleDes ks1 ks2 ks3) ha hm] at hstages
    cases hstages
    obtain ⟨y1, y2, y3, hy1, hy2, hy3, hout, hend⟩ := tcbcEncrypt_passes (ks1 := ks1) (ks2 := ks2) (ks3 := ks3) h1 h2 h3 halign
    rw [hout] at hrun
    rw [← hleft] at hend
    refine ⟨y1, y2, y3, hy1, hy2, hy3, ?_, fun hcb => ⟨hvalid.trans hcb, ?_⟩⟩
    · rw [State.afterCall_response, hrun]; rfl
    · rw [← State.afterCall_dir_of_cb (d := .enc) (r := r) hcb] at hend
      exact hend
  · obtain ⟨out, r, hruns, ht, rfl⟩ := ran_of_no_fault (d := .dec) h hf hsched
    have hvalid := State.afterCall_dir_valid hruns ht
    obtain ⟨h1, h2, h3⟩ := hwidths hruns.recordFits
    obtain ⟨-, halign, hrun, hleft⟩ := decryptAligned_ran hruns.schedFits hs.tcbcAlgorithm hblock rfl ht
    have hstep (c : BlockCipher) : blockStep .dec s.mode (.tripleDes ks1 ks2 ks3) c = tcbcDecryptStep ks1 ks2 ks3 := by rw [hm]; rfl
    rw [hstep, hb] at hrun hleft
    rw [hb] at halign
    rw [prepared_dir_stages .dec (.tripleDes ks1 ks2 ks3) ha hm] at hstages
    cases hstages
    obtain ⟨y2, y1, x, hy2, hy1, hx, hout, hend⟩ := tcbcDecrypt_passes (ks1 := ks1) (ks2 := ks2) (ks3 := ks3) h1 h2 h3 halign
    rw [hout] at hrun
    rw [← hleft] at hend
    refine ⟨y2, y1, x, hy2, hy1, hx, ?_, fun hcb => ⟨hvalid.trans hcb, ?_⟩⟩
    · rw [State.afterCall_response, hrun]
    · rw [← State.afterCall_dir_of_cb (d := .dec) (r := r) hcb] at hend
      exact hend

/-! ### 3CBC with one key (41_tripledes.md R179) -/

/-- The stage registers all hold what the register of a CBC record holds. -/
def StagesAre (r r' : DirRecord) : Prop := r.c1 = r'.reg ∧ r.c2 = r'.reg ∧ r.c3 = r'.reg ∧ r'.reg.length = 8

section
variable {r r' : DirRecord} {x : Bytes} (ks : List DesSubkey)

/-- With one schedule the second stage undoes the first, so 3CBC encrypts a block as CBC does. -/
theorem tcbcEncryptStep_same (h : StagesAre r r') (hx : x.length = 8) :
    (tcbcEncryptStep ks ks ks r x).1 = (cbcEncryptStep (desEncryptBlock ks) r' x).1
      ∧ StagesAre (tcbcEncryptStep ks ks ks r x).2 (cbcEncryptStep (desEncryptBlock ks) r' x).2 := by
  obtain ⟨h1, h2, h3, hlen⟩ := h
  have hmiddle : xorBytes (desDecryptBlock ks (desEncryptBlock ks (xorBytes x r'.reg))) r'.reg = x := by
    rw [desDecryptBlock_desEncryptBlock ks (by simp [hx, hlen]), xorBytes_cancel x _ (hx.trans hlen.symm)]
  simp only [tcbcEncryptStep, cbcEncryptStep, StagesAre, h1, h2, h3, hmiddle, desEncryptBlock_length, and_self]

/-- With one schedule the second stage undoes the third, so 3CBC decrypts a block as CBC does. -/
theorem tcbcDecryptStep_same (h : StagesAre r r') (hx : x.length = 8) :
    (tcbcDecryptStep ks ks ks r x).1 = (cbcDecryptStep (desDecryptBlock ks) r' x).1
      ∧ StagesAre (tcbcDecryptStep ks ks ks r x).2 (cbcDecryptStep (desDecryptBlock ks) r' x).2 := by
  obtain ⟨h1, h2, h3, hlen⟩ := h
  have hmiddle : desEncryptBlock ks (xorBytes (xorBytes (desDecryptBlock ks x) r'.reg) r'.reg) = x := by
    rw [xorBytes_cancel _ _ (by simp [hlen]), desEncryptBlock_desDecryptBlock ks hx]
  simp only [tcbcDecryptStep, cbcDecryptStep, StagesAre, h1, h2, h3, hmiddle, hx, and_self]

/-- The Status of a block-aligned mode depends on the blocks its run gives alone. -/
theorem alignedText_status_congr {d : Direction} {p : Bool} {bs : Nat} {f g : DirRecord → Bytes → Bytes × DirRecord}
    (h : ∀ X, (runBlocks bs f r X).1 = (runBlocks bs g r' X).1) (text : Bytes) :
    (alignedText d p bs f r text).status = (alignedText d p bs g r' text).status := by
  cases d
  · simp only [alignedText, encryptAligned_eq]
    split
    · rfl
    · simp only [ModeResult.status, h]
  · simp only [alignedText, decryptAligned_eq]
    split
    · rfl
    · simp only [ModeResult.status, h]

/-- The DES-CBC context with the same fields. -/
def State.asDesCbc (s : State) : State := { s with alg := .des, mode := .cbc }

@[simp] theorem State.asDesCbc_alg (s : State) : s.asDesCbc.alg = .des := rfl
@[simp] theorem State.asDesCbc_mode (s : State) : s.asDesCbc.mode = .cbc := rfl
@[simp] theorem State.asDesCbc_ivReg (s : State) : s.asDesCbc.ivReg = s.ivReg := rfl
@[simp] theorem State.asDesCbc_padEnabled (s : State) : s.asDesCbc.padEnabled = s.padEnabled := rfl
@[simp] theorem State.asDesCbc_bs (s : State) : s.asDesCbc.bs = 8 := State.bs_of_des (.inl rfl)
@[simp] theorem State.asDesCbc_startsFresh (d : Direction) (s : State) : s.asDesCbc.startsFresh d = s.startsFresh d := by
  cases d <;> rfl

/-- From such records 3CBC with one schedule gives the Status DES-CBC gives. -/
theorem cryptText_status_same {d : Direction} {s : State} (hm : s.mode = .tcbc) (ha : s.alg = .tripleDes) (h : StagesAre r r')
    (text : Bytes) :
    (cryptText d text s (.tripleDes ks ks ks) r).status = (cryptText d text s.asDesCbc (.des ks) r').status := by
  have hbs := State.bs_of_des (.inr ha)
  have hrun {f g : DirRecord → Bytes → Bytes × DirRecord}
      (hstep : ∀ r r' x, StagesAre r r' → x.length = 8 → (f r x).1 = (g r' x).1 ∧ StagesAre (f r x).2 (g r' x).2) (X : Bytes) :
      (runBlocks 8 f r X).1 = (runBlocks 8 g r' X).1 :=
    congrArg List.flatten (runThrough_related StagesAre _ hstep h (fun _ hx => blocks_mem_length hx))
  cases d with
  | enc =>
    have hleft : cryptText .enc text s (.tripleDes ks ks ks) r
        = alignedText .enc s.padEnabled 8 (tcbcEncryptStep ks ks ks) r text := by
      simp only [cryptText, encryptText, blockCipher, stageSchedules, hm, hbs, alignedText]
    have hright : cryptText .enc text s.asDesCbc (.des ks) r'
        = alignedText .enc s.padEnabled 8 (cbcEncryptStep (desEncryptBlock ks)) r' text := by
      simp only [cryptText, encryptText, blockCipher, State.asDesCbc_mode, State.asDesCbc_bs, State.asDesCbc_padEnabled,
        alignedText]
    rw [hleft, hright]
    refine alignedText_status_congr (hrun ?_) text
    exact fun _ _ _ hr hx => tcbcEncryptStep_same ks hr hx
  | dec =>
    have hleft : cryptText .dec text s (.tripleDes ks ks ks) r
        = alignedText .dec s.padEnabled 8 (tcbcDecryptStep ks ks ks) r text := by
      simp only [cryptText, decryptText, blockCipher, stageSchedules, hm, hbs, alignedText]
    have hright : cryptText .dec text s.asDesCbc (.des ks) r'
        = alignedText .dec s.padEnabled 8 (cbcDecryptStep (desDecryptBlock ks)) r' text := by
      simp only [cryptText, decryptText, blockCipher, State.asDesCbc_mode, State.asDesCbc_bs, State.asDesCbc_padEnabled,
        alignedText]
    rw [hleft, hright]
    refine alignedText_status_congr (hrun ?_) text
    exact fun _ _ _ hr hx => tcbcDecryptStep_same ks hr hx

end

/-- A fresh record has its widths, in any state whose schedule fits. -/
theorem prepared_dir_fits_of_fresh {d : Direction} {s : State} {sched : Schedule} (hfresh : s.startsFresh d = true)
    (hf : sched.fits s.alg s.bs = true) (hbs : 0 < s.bs) (htc : s.mode = .tcbc → s.bs = 8) :
    ((s.prepared d sched).dir d).fits s.alg s.mode s.bs = true := by
  rw [prepared_dir_eq, if_pos hfresh]
  exact initialRecord_fits (s := s.withSched sched) _ rfl hf hbs htc

/-- 3CBC with a short key and DES-CBC with the same key give a text one Status: a call from a fresh record starts with the IV in
the stage registers of the one and the register of the other. -/
theorem courseStatus_asDesCbc_of_short_key {s : State} {key : Bytes} (d : Direction) (text : Bytes) (ha : s.alg = .tripleDes)
    (hm : s.mode = .tcbc) (hk : s.keyReg = some key) (hlen : key.length ≤ 8) (hdirty : s.dirty = true)
    (hfresh : s.startsFresh d = true) :
    courseStatus (cryptCourse d (cryptText d text) s.asDesCbc) = courseStatus (cryptCourse d (cryptText d text) s) := by
  have hd : deriveSchedule s.alg s.bs s.keyLenParam key = .ok (tripleDesSchedule key) := by rw [ha, deriveSchedule]
  rw [tripleDesSchedule_of_short hlen] at hd
  have hd' : deriveSchedule s.asDesCbc.alg s.asDesCbc.bs s.asDesCbc.keyLenParam key
      = .ok (.des (desKeySchedule (desKey key))) := rfl
  have hks : (desKeySchedule (desKey key)).length = 16 := by simp
  generalize desKeySchedule (desKey key) = ks at hd hd' hks
  have hbs := State.bs_of_des (.inr ha)
  have hstart : StagesAre ((s.prepared d (.tripleDes ks ks ks)).dir d) ((s.asDesCbc.prepared d (.des ks)).dir d) := by
    obtain ⟨h1, h2, h3⟩ := initialRecord_tcbc (s := s.withSched (.tripleDes ks ks ks)) (s.dir d) ha hm
    obtain ⟨hreg, -⟩ := prepared_dir_of_fresh (s := s.asDesCbc) (d := d) (.des ks) (by simpa using hfresh) (by simp)
    rw [State.asDesCbc_bs] at hreg
    rw [prepared_dir_eq, if_pos hfresh]
    exact ⟨h1.trans hreg.symm, h2.trans hreg.symm, h3.trans hreg.symm, hreg ▸ normalisedIv_length 8 _⟩
  have htext : (cryptText d text (s.asDesCbc.prepared d (.des ks)) (.des ks) ((s.asDesCbc.prepared d (.des ks)).dir d)).status
      = (cryptText d text (s.prepared d (.tripleDes ks ks ks)) (.tripleDes ks ks ks)
          ((s.prepared d (.tripleDes ks ks ks)).dir d)).status := by
    rw [cryptText_reads (s := s) (u := s.prepared d _) d text _ _ (by simp) (by simp) (by simp),
      cryptText_reads (s := s.asDesCbc) (u := s.asDesCbc.prepared d _) d text _ _ (by simp) (by simp) (by simp),
      cryptText_status_same ks hm ha hstart]
  have hfits := prepared_dir_fits_of_fresh (sched := .tripleDes ks ks ks) hfresh (by simp [Schedule.fits, ha, hks]) (by omega)
    (fun _ => hbs)
  have hfits' := prepared_dir_fits_of_fresh (s := s.asDesCbc) (d := d) (sched := .des ks) (by simpa using hfresh)
    (by simp [Schedule.fits, hks]) (by simp) (fun _ => by simp)
  rw [courseStatus_of_dirty (s := s.asDesCbc) d _ hk hdirty hd', courseStatus_of_dirty d _ hk hdirty hd, htext]
  rw [ha, hm, hbs] at hfits
  simp only [State.asDesCbc_alg, State.asDesCbc_mode, State.asDesCbc_bs] at hfits'
  simp [Schedule.fits, ha, hm, hbs, hks, usesIv, hfits, hfits']

/-- Settles O43: the dispatch treats the two contexts alike, and a short key gives one Status in both. -/
theorem shortKeyTripleCbcIsDesCbc : Obligations.ShortKeyTripleCbcIsDesCbc := by
  intro d s text key ha hm hk hlen hdirty hfresh
  rw [exec_cryptInstr, exec_cryptInstr]
  refine whenConfigured_response_congr (u := s.asDesCbc) rfl rfl ?_
  obtain ⟨t, ht, hrt⟩ := crypt_response d (cryptText d text) s
  obtain ⟨u, hu, hru⟩ := crypt_response d (cryptText d text) s.asDesCbc
  exact ⟨t, u, ht, hu, by rw [hrt, hru, courseStatus_asDesCbc_of_short_key d text ha hm hk hlen hdirty hfresh]⟩

end Sys2Proof.Machine
end

section
/-! A DECRYPT after an ENCRYPT, continuous buffering disabled (44_modes.md R285): the two calls start from records alike, and step
by step the one undoes the other. -/

namespace Sys2Proof.Machine

/-! ### The block ciphers -/

/-- D undoes E, for every derived schedule (40_des.md R154, 41_tripledes.md R172, 42_rijndael.md R211). -/
theorem blockCipher_inverts {alg : Algorithm} {bs : Nat} {klen : BitVec 8} {key : Bytes} {sched : Schedule} {c : BlockCipher}
    (hlegal : bs ∈ [16, 20, 24, 28, 32] ∨ (alg ≠ .rijndael ∧ alg ≠ .aes)) (hbs : alg = .des ∨ alg = .tripleDes → bs = 8)
    (hder : deriveSchedule alg bs klen key = .ok sched) (hc : blockCipher sched = some c) {x : Bytes} (hx : x.length = bs) :
    c.D (c.E x) = x := by
  have hrijndael (ha : alg = .rijndael ∨ alg = .aes) (h : rijndaelSchedule bs klen key = sched) : c.D (c.E x) = x := by
    have hlen : bs ∈ [16, 20, 24, 28, 32] := hlegal.resolve_right (by rcases ha with rfl | rfl <;> simp)
    simp only [List.mem_cons, List.not_mem_nil, or_false] at hlen
    cases h
    cases hc
    exact rijndaelDecryptBlock_rijndaelEncryptBlock (by simp only [List.mem_cons, List.not_mem_nil, or_false]; omega)
      (Nat.succ_pos _) (rijndaelExpandKey_length (by omega)) (by omega)
  cases alg with
  | des =>
    cases hder
    cases hc
    exact desDecryptBlock_desEncryptBlock _ (hx.trans (hbs (.inl rfl)))
  | tripleDes =>
    cases hder
    cases hc
    exact tripleDesDecryptBlock_tripleDesEncryptBlock _ _ _ (hx.trans (hbs (.inr rfl)))
  | rijndael => exact hrijndael (.inl rfl) (Except.ok.inj hder)
  | aes => exact hrijndael (.inr rfl) (Except.ok.inj hder)
  | rc4 => exact absurd rfl (alg_of_blockCipher (deriveSchedule_fits hlegal hder) hc)

/-! ### Records alike -/

/-- The fields of the byte-stream modes and of CBC are the same. -/
def SameChain (r r' : DirRecord) : Prop := r.reg = r'.reg ∧ r.ks = r'.ks ∧ r.pos = r'.pos

/-- The fields of 3CBC are the same. -/
def SameStages (r r' : DirRecord) : Prop := r.c1 = r'.c1 ∧ r.c2 = r'.c2 ∧ r.c3 = r'.c3

/-- The fields of RC4 are the same. -/
def SameGenerator (r r' : DirRecord) : Prop := r.s = r'.s ∧ r.i = r'.i ∧ r.j = r'.j

/-- The records of two directions are alike where a call may read them. -/
structure SameStart (alg : Algorithm) (mode : Mode) (r r' : DirRecord) : Prop where
  chain : alg ≠ .rc4 → SameChain r r'
  stages : alg ≠ .rc4 → mode = .tcbc → SameStages r r'
  generator : alg = .rc4 → SameGenerator r r'

/-- DirInit makes records alike of any two. -/
theorem initialRecord_same (s : State) (q q' : DirRecord) : SameStart s.alg s.mode (initialRecord s q) (initialRecord s q') := by
  cases h : s.alg with
  | rc4 => exact ⟨fun ha => absurd rfl ha, fun ha => absurd rfl ha, fun _ => by simp [initialRecord, h, SameGenerator]⟩
  | des | tripleDes | rijndael | aes =>
    refine ⟨fun _ => ?_, fun _ hm => ?_, nofun⟩
    · by_cases hm : s.mode = .tcbc <;> simp [initialRecord, h, hm, SameChain]
    · simp [initialRecord, h, hm, SameStages]

/-! ### Step by step -/

/-- From records alike `g` undoes `f`, and the records stay alike. -/
def Undoes {α β : Type} (rel : DirRecord → DirRecord → Prop) (q : α → Prop) (f : DirRecord → α → β × DirRecord)
    (g : DirRecord → β → α × DirRecord) : Prop :=
  ∀ r r' a, rel r r' → q a → (g r' (f r a).1).1 = a ∧ rel (f r a).2 (g r' (f r a).1).2

theorem undoes_cfb (E : Bytes → Bytes) (bs : Nat) :
    Undoes SameChain (fun _ => True) (cfbEncryptStep E bs) (cfbDecryptStep E bs) := by
  rintro r r' b ⟨hreg, hks, hpos⟩ -
  simp [cfbEncryptStep, cfbDecryptStep, SameChain, ← hreg, ← hks, ← hpos]

/-- A keystream that does not depend on the text undoes itself. -/
theorem undoes_keystream (next gen : Bytes → Bytes) (bs : Nat) :
    Undoes SameChain (fun _ => True) (keystreamStep next gen bs) (keystreamStep next gen bs) := by
  rintro r r' b ⟨hreg, hks, hpos⟩ -
  simp [keystreamStep, SameChain, ← hreg, ← hks, ← hpos]

theorem undoes_rc4 : Undoes SameGenerator (fun _ => True) rc4Step rc4Step := by
  rintro r r' b ⟨hs, hi, hj⟩ -
  simp [rc4Step, SameGenerator, ← hs, ← hi, ← hj]

/-- The chaining registers are the same, and a block long. -/
def SameReg (bs : Nat) (r r' : DirRecord) : Prop := r.reg = r'.reg ∧ r.reg.length = bs

/-- The stage registers are the same, and a block long. -/
def SameWideStages (r r' : DirRecord) : Prop :=
  SameStages r r' ∧ r.c1.length = 8 ∧ r.c2.length = 8 ∧ r.c3.length = 8

section
variable {bs : Nat} {c : BlockCipher}

theorem undoes_ecb (hinv : ∀ x, x.length = bs → c.D (c.E x) = x) :
    Undoes (SameReg bs) (fun x => x.length = bs) (ecbStep c.E) (ecbStep c.D) :=
  fun _ _ x hrel hx => ⟨hinv x hx, hrel⟩

theorem undoes_cbc (hlen : ∀ x, x.length = bs → (c.E x).length = bs) (hinv : ∀ x, x.length = bs → c.D (c.E x) = x) :
    Undoes (SameReg bs) (fun x => x.length = bs) (cbcEncryptStep c.E) (cbcDecryptStep c.D) := by
  rintro r r' x ⟨hreg, hwide⟩ hx
  have hblock : (xorBytes x r.reg).length = bs := by simp [hx, hwide]
  refine ⟨?_, rfl, hlen _ hblock⟩
  simp only [cbcEncryptStep, cbcDecryptStep, ← hreg]
  rw [hinv _ hblock, xorBytes_cancel _ _ (hx.trans hwide.symm)]

theorem undoes_tcbc (ks1 ks2 ks3 : List DesSubkey) :
    Undoes SameWideStages (fun x => x.length = 8) (tcbcEncryptStep ks1 ks2 ks3) (tcbcDecryptStep ks1 ks2 ks3) := by
  rintro r r' x ⟨⟨h1, h2, h3⟩, hw1, hw2, hw3⟩ hx
  have hthird : xorBytes (desDecryptBlock ks3 (tcbcEncryptStep ks1 ks2 ks3 r x).1) r.c3
      = xorBytes (desDecryptBlock ks2 (desEncryptBlock ks1 (xorBytes x r.c1))) r.c2 := by
    rw [tcbcEncryptStep, desDecryptBlock_desEncryptBlock ks3 (by simp [hw2, hw3]), xorBytes_cancel _ _ (by simp [hw2, hw3])]
  have hsecond : desEncryptBlock ks2 (xorBytes (xorBytes (desDecryptBlock ks2 (desEncryptBlock ks1 (xorBytes x r.c1))) r.c2) r.c2)
      = desEncryptBlock ks1 (xorBytes x r.c1) := by
    rw [xorBytes_cancel _ _ (by simp [hw2]), desEncryptBlock_desDecryptBlock ks2 (by simp)]
  have hfirst : xorBytes (desDecryptBlock ks1 (desEncryptBlock ks1 (xorBytes x r.c1))) r.c1 = x := by
    rw [desDecryptBlock_desEncryptBlock ks1 (by simp [hx, hw1]), xorBytes_cancel _ _ (hx.trans hw1.symm)]
  simp only [tcbcDecryptStep, ← h1, ← h2, ← h3, hthird, hsecond, hfirst]
  simp [tcbcEncryptStep, SameWideStages, SameStages]

end

/-! ### Text by text -/

/-- Such stream steps undo a text. -/
theorem cryptStream_undone {rel : DirRecord → DirRecord → Prop} {f g : DirRecord → Byte → Byte × DirRecord} {r r' q : DirRecord}
    {M C : Bytes} (hundo : Undoes rel (fun _ => True) f g) (hrel : rel r r') (h : cryptStream f r M = .ok (some C, q)) :
    ∃ q', cryptStream g r' C = .ok (some M, q') := by
  cases h
  have hback := runThrough_inverts f g rel (fun _ => True) hundo r r' M hrel fun _ _ => trivial
  exact ⟨_, congrArg (fun X => (.ok (some X, _) : ModeResult)) hback⟩

/-- Such block functions undo the blocks of a text. -/
theorem runBlocks_undone {alg : Algorithm} {mode : Mode} {bs : Nat} {rel : DirRecord → DirRecord → Prop}
    {f g : DirRecord → Bytes → Bytes × DirRecord} {r r' : DirRecord} {X : Bytes} (hbs : 0 < bs) (hkeep : StepKeeps alg mode bs f)
    (hr : r.fits alg mode bs = true) (hundo : Undoes rel (fun x => x.length = bs) f g) (hrel : rel r r') (hX : X.length % bs = 0) :
    (runBlocks bs g r' (runBlocks bs f r X).1).1 = X := by
  have hback := runThrough_inverts f g rel _ hundo r r' (blocks bs X) hrel fun _ hx => blocks_mem_length hx
  rw [← blocks_runBlocks hbs hkeep hr] at hback
  exact (congrArg List.flatten hback).trans (blocks_flatten bs X hX)

/-- Such block functions undo a text, the padding put on and taken off where it is enabled. -/
theorem alignedText_undone {alg : Algorithm} {mode : Mode} {p : Bool} {bs : Nat} {rel : DirRecord → DirRecord → Prop}
    {f g : DirRecord → Bytes → Bytes × DirRecord} {r r' q : DirRecord} {M C : Bytes} (hbs : 0 < bs) (hsmall : bs < 256)
    (hkeep : StepKeeps alg mode bs f) (hr : r.fits alg mode bs = true) (hundo : Undoes rel (fun x => x.length = bs) f g)
    (hrel : rel r r') (h : alignedText .enc p bs f r M = .ok (some C, q)) :
    ∃ q', alignedText .dec p bs g r' C = .ok (some M, q') := by
  rw [alignedText, encryptAligned_eq] at h
  split at h
  · cases h
  · rename_i halign
    cases h
    have hX : (if p then pad bs M else M).length % bs = 0 := by
      cases p with
      | true => exact pad_length_mod hbs M
      | false => simpa using halign
    have hC := runBlocks_length hkeep hr hX
    rw [alignedText, decryptAligned_eq, if_neg (by rw [hC]; simpa using hX), runBlocks_undone hbs hkeep hr hundo hrel hX]
    cases p with
    | true => exact ⟨_, by rw [if_pos rfl, if_pos rfl, (unpadInvertsPad.1 bs M hbs hsmall).2.2.2]⟩
    | false => exact ⟨_, rfl⟩

/-- From records alike the mode function of DECRYPT undoes that of ENCRYPT. -/
theorem cryptText_undone {s : State} {sched : Schedule} {M C : Bytes} {r r' q : DirRecord} (hs : s.Inv) (h : s.Runs .enc sched)
    (hr : r.fits s.alg s.mode s.bs = true) (hsame : SameStart s.alg s.mode r r')
    (hrun : cryptText .enc M s sched r = .ok (some C, q)) : ∃ q', cryptText .dec C s sched r' = .ok (some M, q') := by
  obtain ⟨key, -, hder⟩ := h.schedule.derived hs
  cases hc : blockCipher sched with
  | none =>
    have ha := alg_of_no_blockCipher h.schedFits hc
    simp only [cryptText, encryptText, decryptText, hc] at hrun ⊢
    exact cryptStream_undone undoes_rc4 (hsame.generator ha) hrun
  | some c =>
    have ha := alg_of_blockCipher h.schedFits hc
    have hlen (x : Bytes) (hx : x.length = s.bs) := (blockCipher_length h.schedFits State.bs_of_des hc hx).1
    have hinv (x : Bytes) (hx : x.length = s.bs) := blockCipher_inverts hs.bs_legal State.bs_of_des hder hc hx
    have hchain := hsame.chain ha
    have hsmall : s.bs < 256 := by
      have := hs.bs_cases
      simp only [List.mem_cons, List.not_mem_nil, or_false] at this
      omega
    obtain ⟨hreg, -, -, hstages⟩ := (DirRecord.fits_block ha).mp hr
    by_cases hm : blockAligned s.mode = true
    · obtain ⟨c', hc', henc, hkeep⟩ := cryptText_aligned .enc h.schedFits hs.tcbcAlgorithm ha hm
      obtain ⟨c'', hc'', hdec, -⟩ := cryptText_aligned .dec h.schedFits hs.tcbcAlgorithm ha hm
      obtain rfl : c' = c := Option.some.inj (hc'.symm.trans hc)
      obtain rfl : c'' = c' := Option.some.inj (hc''.symm.trans hc)
      rw [henc] at hrun
      rw [hdec]
      cases hmode : s.mode with
      | cfb | ofb | ctr => rw [hmode] at hm; cases hm
      | ecb =>
        rw [hmode] at hrun hkeep hr
        exact alignedText_undone hs.bs_pos hsmall hkeep hr (undoes_ecb hinv) ⟨hchain.1, hreg⟩ hrun
      | cbc =>
        rw [hmode] at hrun hkeep hr
        exact alignedText_undone hs.bs_pos hsmall hkeep hr (undoes_cbc hlen hinv) ⟨hchain.1, hreg⟩ hrun
      | tcbc =>
        obtain ⟨ks1, ks2, ks3, rfl⟩ := exists_tripleDes_of_fits (hs.tcbcAlgorithm hmode ▸ h.schedFits)
        have hundo := undoes_tcbc ks1 ks2 ks3
        rw [← hs.bs_of_tcbc hmode] at hundo
        rw [hmode] at hrun hkeep hr
        exact alignedText_undone hs.bs_pos hsmall hkeep hr hundo ⟨hsame.stages ha hmode, hstages hmode⟩ hrun
    · cases hmode : s.mode with
      | ecb | cbc | tcbc => rw [hmode] at hm; exact absurd rfl hm
      | cfb =>
        simp only [cryptText, encryptText, decryptText, hc, hmode] at hrun ⊢
        exact cryptStream_undone (undoes_cfb c.E s.bs) hchain hrun
      | ofb =>
        simp only [cryptText, encryptText, decryptText, hc, hmode, ofbStep_eq] at hrun ⊢
        exact cryptStream_undone (undoes_keystream _ _ s.bs) hchain hrun
      | ctr =>
        simp only [cryptText, encryptText, decryptText, hc, hmode, ctrStep_eq] at hrun ⊢
        exact cryptStream_undone (undoes_keystream _ _ s.bs) hchain hrun

/-! ### Call by call (44_modes.md R285) -/

section
variable {s : State} {sched : Schedule} {out : Option Bytes} {r : DirRecord}

/-- Without continuous buffering a DECRYPT after an ENCRYPT starts from a record like the one the ENCRYPT started from. -/
theorem prepared_dec_same (hcb : s.cbEnabled = false) :
    SameStart s.alg s.mode ((s.prepared .enc sched).dir .enc) (((s.afterCall .enc sched out r).prepared .dec sched).dir .dec) := by
  rw [State.prepared_dir_of_not_cb sched hcb, State.prepared_dir_of_not_cb sched (by simpa using hcb)]
  exact initialRecord_same (s.withSched sched) _ _

/-- Without continuous buffering a DECRYPT can run after an ENCRYPT that ran. -/
theorem State.Runs.dec_afterCall (hs : s.Inv) (h : s.Runs .enc sched) (hcb : s.cbEnabled = false) :
    (s.afterCall .enc sched out r).Runs .dec sched where
  schedule := h.hasSchedule_afterCall out r
  iv := by simpa [State.startsFresh, hcb] using h.iv
  schedFits := by simpa using h.schedFits
  recordFits := prepared_dir_fits_of_fresh (by simp [State.startsFresh, hcb]) (by simpa using h.schedFits)
    (by simpa using hs.bs_pos) (by simpa using hs.bs_of_tcbc)

end

/-- Settles O39: the two calls run with one schedule from records alike, and the mode functions undo each other. -/
theorem decryptInvertsEncrypt : Obligations.DecryptInvertsEncrypt := by
  intro s t M C hs hcb h hok
  obtain ⟨sched, out, r, hready, hruns, hrun, rfl⟩ := exec_cryptInstr_completed (d := .enc) h hok (fun _ => nofun)
  obtain rfl : out = some C := by
    rw [State.afterCall_response] at hok
    cases out with
    | none => cases hok
    | some out => cases hok; rfl
  obtain ⟨q, hback⟩ := cryptText_undone hs hruns hruns.recordFits (prepared_dec_same hcb) hrun
  rw [← cryptText_reads (u := s.afterCall .enc sched (some C) r) .dec C sched _ (by simp) (by simp) (by simp)] at hback
  exact ⟨_, exec_cryptInstr_of_runs (by simpa using hready) (hruns.dec_afterCall hs hcb) hback, State.afterCall_response ..⟩

end Sys2Proof.Machine
end
